-- ==== Sys2Proof/Word.lean ====
section
/-! DEFINITION. The bus word, the symbol and index types, bit strings, and the record types of the
internal memories NODE and CODE. -/

namespace Sys2Proof

/-- A register or a command word: 32 bits (R20, R63). -/
abbrev Word := BitVec 32

/-- One byte of OUT (R38). -/
abbrev Byte := BitVec 8

/-- A symbol value, held in the 8 bits of the SYM field (R66).
A configuration with fewer symbol bits uses only the values below `NSYM_MAX`. -/
abbrev Sym := BitVec 8

/-- The INDEX operand of format X (R68). -/
abbrev Index := BitVec 24

/-- A bit string, first emitted bit first (R10). -/
abbrev Bits := List Bool

/-- One record of NODE (R35). -/
structure Node where
  freq  : Word
  leaf  : Bool
  sym   : Sym
  left  : BitVec 16
  right : BitVec 16
  deriving DecidableEq, Repr

/-- One record of CODE (R37); `bits` has the width of the longest code any configuration holds. -/
structure CodeEntry where
  valid : Bool
  len   : BitVec 8
  bits  : BitVec 255
  deriving DecidableEq, Repr

/-- The record of a symbol that has no code: `{valid: 0, len: 0, bits: 0}` (R37, R40). -/
def CodeEntry.none : CodeEntry := { valid := false, len := 0, bits := 0 }

end Sys2Proof
end

