-- ==== Sys2Proof/Config.lean ====
section
/-! DEFINITION. The parameters of an implementation (R7) and the values the spec leaves open (R41, R147). -/

namespace Sys2Proof

/-- The parameters the spec gives the model as arguments (R7, R47; 93_implementation_defined.md items 1 to 3).
`State` carries them unchanged, so a statement about every state is one about every implementation. -/
structure Config where
  /-- SYM_BITS, 1..8. -/
  symBits : Nat
  /-- TEXT_MAX, 1..2^24 with OUT_MAX ≤ 2^24. -/
  textMax : Nat
  /-- BASE, the 256-byte aligned bus address of register offset 0x00 (R48). -/
  base    : Nat
  deriving DecidableEq, Repr

namespace Config

/-- NSYM_MAX = 2^SYM_BITS (R7). -/
def nsymMax (c : Config) : Nat := 2 ^ c.symBits

/-- CODE_LEN_MAX = max(1, NSYM_MAX - 1) (R7). -/
def codeLenMax (c : Config) : Nat := max 1 (c.nsymMax - 1)

/-- NODE_MAX = 2*NSYM_MAX - 1 (R7). -/
def nodeMax (c : Config) : Nat := 2 * c.nsymMax - 1

/-- OUT_MAX = floor(TEXT_MAX * CODE_LEN_MAX / 8) + 2 (R7). -/
def outMax (c : Config) : Nat := c.textMax * c.codeLenMax / 8 + 2

/-- The legal values of R7. -/
abbrev wf (c : Config) : Prop :=
  1 ≤ c.symBits ∧ c.symBits ≤ 8 ∧ 1 ≤ c.textMax ∧ c.textMax ≤ 2 ^ 24 ∧ c.outMax ≤ 2 ^ 24 ∧ c.base % 256 = 0

/-- The reference values of R7; BASE is OPEN in the spec and is 0 here (DESIGN CHOICE, assumption 2). -/
def reference : Config := { symBits := 8, textMax := 65536, base := 0 }

end Config

/-- FREE VALUE: what the `n`-th host read made during BUSY finds in the bits R147 leaves unspecified (assumption 4). -/
opaque Config.freeRead : Nat → Word

/-- FREE VALUE: the contents of TEXT[i] at and above TEXT_LEN (R41, assumption 5). -/
opaque Config.freeSym : Nat → Sym

/-- FREE VALUE: the freq, sym, left and right fields of NODE[i] at and above NNODES (R41, assumption 5). -/
opaque Config.freeNodeBits : Nat → BitVec 73

/-- FREE VALUE: the contents of OUT[j] at and above OUT_LEN (R41, assumption 5). -/
opaque Config.freeByte : Nat → Byte

/-- The unspecified record NODE[i] at and above NNODES, cut from one free bit pattern (R35 gives the widths). -/
def Config.freeNode (i : Nat) : Node where
  freq  := (Config.freeNodeBits i).extractLsb' 0 32
  leaf  := (Config.freeNodeBits i).getLsbD 72
  sym   := (Config.freeNodeBits i).extractLsb' 32 8
  left  := (Config.freeNodeBits i).extractLsb' 40 16
  right := (Config.freeNodeBits i).extractLsb' 56 16

end Sys2Proof
end

