-- ==== Sys2Proof/Syntax.lean ====
section
/-! DEFINITION. The commands: one constructor per row of spec/opcode_table.json (R70), with the operands
its format carries (R65). -/

namespace Sys2Proof

/-- A command of R70 with its operands as R65 lays them out. -/
inductive Instr where
  /-- NOP, format N, R84. -/
  | nop
  /-- CLEAR, format N, R85. -/
  | clear
  /-- TEXT_PUSH, format S, R88. -/
  | textPush (sym : Sym)
  /-- FREQ_COUNT, format N, R89. -/
  | freqCount
  /-- BUILD_TREE, format N, R94. -/
  | buildTree
  /-- ASSIGN_CODES, format N, R100. -/
  | assignCodes
  /-- CODE_LOAD, format SL, R103. -/
  | codeLoad (sym : Sym) (len : BitVec 8)
  /-- PACK, format N, R108. -/
  | pack
  /-- COMPRESS, format N, R113. -/
  | compress
  /-- TEXT_READ, format X, R116. -/
  | textRead (index : Index)
  /-- FREQ_READ, format S, R117. -/
  | freqRead (sym : Sym)
  /-- NODE_READ, format X, R118. -/
  | nodeRead (index : Index)
  /-- CODE_READ, format S, R119. -/
  | codeRead (sym : Sym)
  /-- OUT_READ, format X, R120. -/
  | outRead (index : Index)
  deriving DecidableEq, Repr

end Sys2Proof
end

