-- ==== Sys2Proof/WellFormed.lean ====
section
/-! DEFINITION. Which commands have legal operands in a configuration (R66, R67). INDEX is always legal (R68). -/

namespace Sys2Proof

/-- The operand checks: SYM below NSYM_MAX (R66) and LEN in 1..CODE_LEN_MAX (R67). -/
def Instr.wf (c : Config) : Instr → Bool
  | .textPush sym => decide (sym.toNat < c.nsymMax)
  | .freqRead sym => decide (sym.toNat < c.nsymMax)
  | .codeRead sym => decide (sym.toNat < c.nsymMax)
  | .codeLoad sym len => decide (sym.toNat < c.nsymMax ∧ 1 ≤ len.toNat ∧ len.toNat ≤ c.codeLenMax)
  | .nop => true
  | .clear => true
  | .freqCount => true
  | .buildTree => true
  | .assignCodes => true
  | .pack => true
  | .compress => true
  | .textRead _ => true
  | .nodeRead _ => true
  | .outRead _ => true

end Sys2Proof
end

