-- ==== Sys2Proof/Decode.lean ====
section
/-! DEFINITION. Decoding a command word, total and rejecting by name (R63 to R73, R81), and the encoder (R76).
The two checks of R81 that depend on the configuration (SYM below NSYM_MAX, LEN in range) are operand checks:
each meaning makes them first (Machine/Operands.lean), so R81's order stands. -/

namespace Sys2Proof

/-- Why a word is no command (R71, R72, R128): the reasons of ILLEGAL_COMMAND. -/
inductive Illegal where
  /-- Reason 1: the opcode is not in the table of R70. -/
  | undefinedOpcode
  /-- Reason 2: a reserved bit is 1 (R69). -/
  | reservedBit
  /-- Reason 3: a CODE_LOAD's LEN is outside 1..CODE_LEN_MAX (R67). -/
  | badLength
  deriving DecidableEq, Repr

/-- ERR_INFO of each reason (R128). -/
def Illegal.info : Illegal → Word
  | .undefinedOpcode => 1
  | .reservedBit => 2
  | .badLength => 3

/-- OPCODE = w[7:0] (R64). -/
def opcodeOf (w : Word) : BitVec 8 := w.extractLsb' 0 8

/-- SYM = w[15:8] (R66). -/
def symOf (w : Word) : Sym := w.extractLsb' 8 8

/-- LEN = w[23:16] (R67). -/
def lenOf (w : Word) : BitVec 8 := w.extractLsb' 16 8

/-- INDEX = w[31:8] (R68). -/
def indexOf (w : Word) : Index := w.extractLsb' 8 24

/-- A word of format N: bits [31:8] are reserved (R65, R69). -/
def formatN (w : Word) (i : Instr) : Except Illegal Instr :=
  if w.extractLsb' 8 24 = 0 then .ok i else .error .reservedBit

/-- A word of format S: bits [31:16] are reserved (R65, R69). -/
def formatS (w : Word) (i : Sym → Instr) : Except Illegal Instr :=
  if w.extractLsb' 16 16 = 0 then .ok (i (symOf w)) else .error .reservedBit

/-- A word of format SL: bits [31:24] are reserved (R65, R69). -/
def formatSL (w : Word) (i : Sym → BitVec 8 → Instr) : Except Illegal Instr :=
  if w.extractLsb' 24 8 = 0 then .ok (i (symOf w) (lenOf w)) else .error .reservedBit

/-- A word of format X: it has no reserved bit (R65, R68). -/
def formatX (w : Word) (i : Index → Instr) : Except Illegal Instr := .ok (i (indexOf w))

/-- The opcode map of R70, then the format's reserved bits (R69): the first two checks of R81. -/
def decode (w : Word) : Except Illegal Instr :=
  match (opcodeOf w).toNat with
  | 0x00 => formatN w .nop
  | 0x01 => formatN w .clear
  | 0x02 => formatS w .textPush
  | 0x03 => formatN w .freqCount
  | 0x04 => formatN w .buildTree
  | 0x05 => formatN w .assignCodes
  | 0x06 => formatSL w .codeLoad
  | 0x07 => formatN w .pack
  | 0x08 => formatN w .compress
  | 0x10 => formatX w .textRead
  | 0x11 => formatS w .freqRead
  | 0x12 => formatX w .nodeRead
  | 0x13 => formatS w .codeRead
  | 0x14 => formatX w .outRead
  | _ => .error .undefinedOpcode

/-- The OPCODE byte of R70. -/
def Instr.opcode : Instr → BitVec 8
  | .nop => 0x00
  | .clear => 0x01
  | .textPush _ => 0x02
  | .freqCount => 0x03
  | .buildTree => 0x04
  | .assignCodes => 0x05
  | .codeLoad _ _ => 0x06
  | .pack => 0x07
  | .compress => 0x08
  | .textRead _ => 0x10
  | .freqRead _ => 0x11
  | .nodeRead _ => 0x12
  | .codeRead _ => 0x13
  | .outRead _ => 0x14

/-- Bits [31:8] of the command word, as R65's patterns show them. -/
def Instr.operandBits : Instr → BitVec 24
  | .textPush sym => 0#16 ++ sym
  | .freqRead sym => 0#16 ++ sym
  | .codeRead sym => 0#16 ++ sym
  | .codeLoad sym len => 0#8 ++ len ++ sym
  | .textRead index => index
  | .nodeRead index => index
  | .outRead index => index
  | .nop => 0
  | .clear => 0
  | .freqCount => 0
  | .buildTree => 0
  | .assignCodes => 0
  | .pack => 0
  | .compress => 0

/-- The command word of R65: the operand bits above the OPCODE byte. -/
def encode (i : Instr) : Word := i.operandBits ++ i.opcode

/-- The word whose `nbits` bits are `w`, every bit above them 0 (R63: a command is one 32-bit word). -/
def tableWord (nbits w : Nat) : Word := BitVec.ofNat 32 (w % 2 ^ nbits)

/-- The instruction the decoder reads from a table word. -/
def decodeTableWord (nbits w : Nat) : Option Instr := (decode (tableWord nbits w)).toOption

end Sys2Proof
end

