-- ==== Sys2Proof/Machine/State.lean ====
section
/-! DEFINITION. The state of HUFFCORE (R16 to R47) as plain data, its reset, and the reasons a step can stop. -/

namespace Sys2Proof.Machine

/-- The sequencer phase PHASE (R19). -/
inductive Phase where
  | idle
  | busy (w : Word)
  deriving DecidableEq, Repr

/-- The error codes of R124 that a command can end with; code 0 (NONE) is success. -/
inductive ErrCode where
  | invalidInput
  | lookupError
  | structuralError
  | illegalCommand
  | sequenceError
  | capacityError
  | rangeError
  deriving DecidableEq, Repr

/-- The registers of R20's table. -/
inductive Reg where
  | id | cfg | cfgTextMax | cfgOutMax | cmd | status | irqStatus | irqEnable | lastCmd | errInfo
  | textLen | nsym | nnodes | root | bitLen | pad | outLen
  | result0 | result1 | result2
  | codeW (k : Fin 8)
  /-- An offset 0x70..0xFC. -/
  | reserved
  deriving DecidableEq, Repr

/-- One thing the outside world does, or leaves to the block, at one step (R4, R150).
A list of these holds one interleaving, so all lists together hold every one R150 admits. -/
inductive Event where
  /-- The host reads `bytes` bytes at a bus address; only 4 aligned bytes are defined (R48, R50). -/
  | hostRead (addr : Nat) (bytes : Nat)
  /-- The host writes `bytes` bytes at a bus address; only 4 aligned bytes are defined (R48, R50). -/
  | hostWrite (addr : Nat) (bytes : Nat) (value : Word)
  /-- The platform drives RESET (R141). -/
  | reset
  /-- The sequencer takes this step: the completion of R79 when busy, nothing when idle. -/
  | sequencer
  deriving DecidableEq, Repr

/-- The report of the last command: LAST_CMD (R29), STATUS.ERR and STATUS.ERRCODE (R26), ERR_INFO (R30). -/
structure Report where
  lastCmd : Word
  err     : Bool
  errCode : BitVec 4
  errInfo : Word
  deriving DecidableEq, Repr

/-- IRQ_STATUS[2:0] and IRQ_ENABLE[2:0] (R27, R28): bit 0 DONE, bit 1 ERROR, bit 2 OVERRUN.
Bits [31:3] of both registers are reserved and read 0 (R21), so they are not held. -/
structure Irq where
  status : BitVec 3
  enable : BitVec 3
  deriving DecidableEq, Repr

/-- TEXT (R33) and TEXT_LEN (R31). `entries` starts at TEXT[0]; entries at and above TEXT_LEN need not be held (R41). -/
structure TextBuffer where
  entries : List Sym
  len     : Word
  deriving DecidableEq, Repr

/-- The FREQ table: FREQ (R34, NSYM_MAX counts), NSYM (R31) and STATUS.FREQ_VALID (R26, R39). -/
structure FreqTable where
  counts : List Word
  nsym   : Word
  valid  : Bool
  deriving DecidableEq, Repr

/-- The tree: NODE (R35), NNODES and ROOT (R31) and STATUS.TREE_VALID (R26, R39). -/
structure Tree where
  nodes  : List Node
  nnodes : Word
  root   : Word
  valid  : Bool
  deriving DecidableEq, Repr

/-- The CODE table: CODE (R37, NSYM_MAX records) and STATUS.CODES_VALID (R26, R39). -/
structure CodeTable where
  entries : List CodeEntry
  valid   : Bool
  deriving DecidableEq, Repr

/-- OUT (R38), OUT_LEN, BIT_LEN and PAD (R31) and STATUS.OUT_VALID (R26, R39). -/
structure OutBuffer where
  bytes  : List Byte
  len    : Word
  bitLen : Word
  pad    : Word
  valid  : Bool
  deriving DecidableEq, Repr

/-- The data registers RESULT0..RESULT2 and CODE_W0..CODE_W7 (R32). -/
structure DataRegs where
  result0 : Word
  result1 : Word
  result2 : Word
  codeW   : Vector Word 8
  deriving DecidableEq, Repr

/-- THE MODEL'S OWN FIELDS, not the block's state: the world around the block (assumptions 3 and 4). -/
structure Env where
  /-- What happens next, oldest first. -/
  pending   : List Event
  /-- The value the last host read returned. -/
  readData  : Word
  /-- The counter that picks a fresh free value for each read during BUSY. -/
  freeIndex : Nat
  deriving DecidableEq, Repr

/-- The machine: the parameters (R7), the state of R16, and the model's own fields. -/
structure State where
  /-- The parameters; no step changes them (R47, assumption 2). -/
  cfg    : Config
  /-- PHASE (R19). -/
  phase  : Phase
  report : Report
  irq    : Irq
  text   : TextBuffer
  freq   : FreqTable
  tree   : Tree
  /-- QUEUE (R36): the node indices waiting to be merged, without order or repeats. -/
  queue  : List Nat
  codes  : CodeTable
  out    : OutBuffer
  data   : DataRegs
  env    : Env
  deriving DecidableEq, Repr

/-- Why the machine stops; each is safe, since no claim about a next state can rest on one. -/
inductive Fault where
  /-- Raised by a host access to an address outside the 256-byte window at BASE, the only address space there is
  (R49). Safe (assumption 6). -/
  | outsideWindow
  deriving DecidableEq, Repr

/-- Why a step has no meaning; each is safe, since no claim about a next state can rest on one. -/
inductive Refusal where
  /-- Raised by a dispatch arm whose instruction has no meaning yet. Safe. -/
  | notModelled (mnemonic : String)
  /-- Raised by a host access that is not 32 bits wide or not word aligned: "The model gives such an access no step"
  (R50). Safe (assumption 7). -/
  | undefinedAccess
  deriving DecidableEq, Repr

/-- How a command ends (R79, R123). -/
inductive CmdOutcome where
  /-- Success: the state with the command's effects applied. -/
  | ok (s : State)
  /-- `fail(code, info)`. -/
  | fail (e : ErrCode) (info : Word)
  deriving DecidableEq, Repr

/-- The FREQ table in its empty state (R40, R44). -/
def FreqTable.empty (c : Config) : FreqTable :=
  { counts := List.replicate c.nsymMax 0, nsym := 0, valid := false }

/-- No tree (R40, R44). -/
def Tree.empty : Tree := { nodes := [], nnodes := 0, root := 0, valid := false }

/-- The CODE table in its empty state (R40, R44). -/
def CodeTable.empty (c : Config) : CodeTable :=
  { entries := List.replicate c.nsymMax CodeEntry.none, valid := false }

/-- No output (R40, R44). -/
def OutBuffer.empty : OutBuffer := { bytes := [], len := 0, bitLen := 0, pad := 0, valid := false }

/-- No text (R44, R85). -/
def TextBuffer.empty : TextBuffer := { entries := [], len := 0 }

/-- The state after hardware reset (R44, R142) of the implementation with parameters `c` in the world `e`. -/
def State.resetIn (c : Config) (e : Env) : State where
  cfg    := c
  phase  := .idle
  report := { lastCmd := 0, err := false, errCode := 0, errInfo := 0 }
  irq    := { status := 0, enable := 0 }
  text   := .empty
  freq   := .empty c
  tree   := .empty
  queue  := []
  codes  := .empty c
  out    := .empty
  data   := { result0 := 0, result1 := 0, result2 := 0, codeW := #v[0, 0, 0, 0, 0, 0, 0, 0] }
  env    := e

/-- The reference implementation right after reset, with no event pending; the values of the model's own fields are
a DESIGN CHOICE (assumptions 2, 3 and 4). -/
def State.reset : State := State.resetIn Config.reference { pending := [], readData := 0, freeIndex := 0 }

end Sys2Proof.Machine
end

