-- ==== Sys2Proof/Machine/Flags.lean ====
section
/-! DEFINITION. The flags: STATUS (R26), IRQ_STATUS and IRQ_ENABLE (R27, R28), the interrupt output (R46) and
the error codes (R124). HUFFCORE has no arithmetic condition codes (R42). -/

namespace Sys2Proof.Machine

/-- STATUS.ERRCODE of each error (R124). -/
def ErrCode.code : ErrCode → BitVec 4
  | .invalidInput => 1
  | .lookupError => 2
  | .structuralError => 3
  | .illegalCommand => 4
  | .sequenceError => 5
  | .capacityError => 6
  | .rangeError => 7

/-- IRQ_STATUS.DONE (R27). -/
def irqDone : BitVec 3 := 0b001

/-- IRQ_STATUS.ERROR (R27). -/
def irqError : BitVec 3 := 0b010

/-- IRQ_STATUS.OVERRUN (R27). -/
def irqOverrun : BitVec 3 := 0b100

/-- Set event bits of IRQ_STATUS; they stay set until cleared (R27). -/
def Irq.raise (events : BitVec 3) (q : Irq) : Irq := { q with status := q.status ||| events }

/-- A host write to IRQ_STATUS: each 1 clears its bit, each 0 and every reserved bit does nothing (R21, R27). -/
def Irq.clear (v : Word) (q : Irq) : Irq := { q with status := q.status &&& ~~~ (v.extractLsb' 0 3) }

/-- A host write to IRQ_ENABLE: the three enables are stored, reserved bits are ignored (R21, R28). -/
def Irq.setEnable (v : Word) (q : Irq) : Irq := { q with enable := v.extractLsb' 0 3 }

/-- The interrupt output IRQ (R46). -/
def State.irqLine (s : State) : Bool := s.irq.status &&& s.irq.enable != 0

/-- STATUS.BUSY (R19). -/
def State.isBusy (s : State) : Bool :=
  match s.phase with
  | .idle => false
  | .busy _ => true

/-- One bit as a 1-bit vector. -/
def bit (b : Bool) : BitVec 1 := BitVec.ofBool b

/-- STATUS[11:8]: OUT_VALID, CODES_VALID, TREE_VALID, FREQ_VALID from bit 11 down to bit 8 (R26). -/
def State.validFlags (s : State) : BitVec 4 :=
  bit s.out.valid ++ bit s.codes.valid ++ bit s.tree.valid ++ bit s.freq.valid

/-- STATUS from its fields, highest bit first (R26); the reserved bits [31:12] and [3:2] are 0. -/
def statusWord (valid : BitVec 4) (errCode : BitVec 4) (err busy : Bool) : Word :=
  0#20 ++ valid ++ errCode ++ 0#2 ++ bit err ++ bit busy

/-- STATUS as its rule gives it (R26). -/
def State.status (s : State) : Word := statusWord s.validFlags s.report.errCode s.report.err s.isBusy

/-- The ERR_INFO masks of SEQUENCE_ERROR: the STATUS bit of the missing product (R129). -/
def freqValidMask : Word := 0x00000100

/-- See `freqValidMask`. -/
def treeValidMask : Word := 0x00000200

/-- See `freqValidMask`. -/
def codesValidMask : Word := 0x00000400

end Sys2Proof.Machine
end

