-- ==== Sys2Proof/Machine/Operands.lean ====
section
/-! DEFINITION. The operand forms: SYM, LEN and INDEX (R66 to R68) with their legality checks, and the code
value staged in CODE_W (R32, R54, R103). -/

namespace Sys2Proof.Machine

/-- `value(s)` of R10: the first emitted bit is the most significant. -/
def valueOf (s : Bits) : Nat := s.foldl (fun v b => 2 * v + b.toNat) 0

/-- The `n`-bit binary form of `v`, most significant bit first (R10; `bits8` is `bitsOf 8`). -/
def bitsOf (n v : Nat) : Bits := (List.range n).map fun j => v.testBit (n - 1 - j)

/-- SYM is legal exactly when it is below NSYM_MAX (R66). -/
def symLegal (c : Config) (sym : Sym) : Bool := decide (sym.toNat < c.nsymMax)

/-- LEN is legal exactly when it is in 1..CODE_LEN_MAX (R67). -/
def lenLegal (c : Config) (len : BitVec 8) : Bool := decide (1 ≤ len.toNat ∧ len.toNat ≤ c.codeLenMax)

/-- `raise IllegalCommand(reason)` (R81, R128). -/
def illegal (r : Illegal) : CmdOutcome := .fail .illegalCommand r.info

/-- The SYM part of R81's reserved-bit check: a SYM at or above NSYM_MAX is a reserved bit set (R66, R72). -/
def withSym (sym : Sym) (s : State) (k : CmdOutcome) : CmdOutcome :=
  if symLegal s.cfg sym then k else illegal .reservedBit

/-- R81's LEN check, after the reserved bits (R67, R72). -/
def withLen (len : BitVec 8) (s : State) (k : CmdOutcome) : CmdOutcome :=
  if lenLegal s.cfg len then k else illegal .badLength

/-- `zext_32` of an INDEX operand (R68): what RANGE_ERROR reports (R131). -/
def indexWord (index : Index) : Word := index.setWidth 32

/-- CW = the sum over k of CODE_Wk * 2^(32k): CODE_W7 on top, CODE_W0 in bits [31:0] (R32). -/
def DataRegs.cw (d : DataRegs) : BitVec 256 :=
  d.codeW[7] ++ d.codeW[6] ++ d.codeW[5] ++ d.codeW[4] ++ d.codeW[3] ++ d.codeW[2] ++ d.codeW[1] ++ d.codeW[0]

/-- The words CODE_W0..CODE_W7 of a value of CW (R32, R119). -/
def codeWords (v : BitVec 256) : Vector Word 8 :=
  #v[v.extractLsb' 0 32, v.extractLsb' 32 32, v.extractLsb' 64 32, v.extractLsb' 96 32,
     v.extractLsb' 128 32, v.extractLsb' 160 32, v.extractLsb' 192 32, v.extractLsb' 224 32]

/-- The record CODE_LOAD writes: bits of CW at LEN and above are ignored (R54, R103). -/
def loadedEntry (cw : BitVec 256) (len : BitVec 8) : CodeEntry :=
  { valid := true, len := len, bits := BitVec.ofNat 255 (cw.toNat % 2 ^ len.toNat) }

/-- The record of a code string: `{valid: 1, len: len(p), bits: value(p)}` (R100). -/
def entryOfPath (p : Bits) : CodeEntry :=
  { valid := true, len := BitVec.ofNat 8 p.length, bits := BitVec.ofNat 255 (valueOf p) }

/-- `codestr(e)`: the e.len-bit binary form of e.bits, most significant bit first (R105). -/
def codestr (e : CodeEntry) : Bits := bitsOf e.len.toNat e.bits.toNat

end Sys2Proof.Machine
end

