-- ==== Sys2Proof/Machine/Ops.lean ====
section
/-! DEFINITION. The operations the commands share: reading the internal memories (R33 to R38), invalidation (R40),
issue (R77), the report that stands for exception entry (R80, R134), the acknowledgement that stands for the return
from it (R135), the data registers (R121) and reset (R141). -/

namespace Sys2Proof.Machine

/-! ## The internal memories -/

/-- TEXT[0..TEXT_LEN-1], the input text in input order (R33). -/
def State.input (s : State) : List Sym := s.text.entries.take s.text.len.toNat

/-- TEXT[i]; an entry the list does not hold is unspecified (R41). -/
def textAt (s : State) (i : Nat) : Sym := s.text.entries.getD i (Config.freeSym i)

/-- FREQ[s] (R34). -/
def freqAt (s : State) (sym : Sym) : Word := s.freq.counts.getD sym.toNat 0

/-- NODE[i]; an entry the list does not hold is unspecified (R41). -/
def nodeAt (nodes : List Node) (i : Nat) : Node := nodes.getD i (Config.freeNode i)

/-- CODE[s] (R37). -/
def codeAt (entries : List CodeEntry) (sym : Sym) : CodeEntry := entries.getD sym.toNat CodeEntry.none

/-- OUT[j]; an entry the list does not hold is unspecified (R41). -/
def outAt (s : State) (j : Nat) : Byte := s.out.bytes.getD j (Config.freeByte j)

/-! ## Invalidation (R40) -/

/-- `inval_freq()`. -/
def invalFreq (s : State) : State := { s with freq := .empty s.cfg }

/-- `inval_tree()`. -/
def invalTree (s : State) : State := { s with tree := .empty }

/-- `inval_codes()`. -/
def invalCodes (s : State) : State := { s with codes := .empty s.cfg }

/-- `inval_out()`. -/
def invalOut (s : State) : State := { s with out := .empty }

/-! ## Issue and completion -/

/-- Issue of command `w` (R77): LAST_CMD is written, ERR and ERRCODE are cleared, PHASE becomes BUSY(w). -/
def issue (w : Word) (s : State) : State :=
  { s with phase := .busy w, report := { s.report with lastCmd := w, err := false, errCode := 0 } }

/-- The report of a success (R80): the block is IDLE, no error, DONE is raised. -/
def reportOk (s : State) : State :=
  { s with
    phase := .idle
    report := { s.report with err := false, errCode := 0, errInfo := 0 }
    irq := s.irq.raise irqDone }

/-- TAKING AN ERROR, what replaces trap entry (R134): the report of a failure (R80), written over the state before
the command, and nothing else (R82). -/
def reportFail (e : ErrCode) (info : Word) (s : State) : State :=
  { s with
    phase := .idle
    report := { s.report with err := true, errCode := e.code, errInfo := info }
    irq := s.irq.raise (irqDone ||| irqError) }

/-- ACKNOWLEDGING AN EVENT, what replaces trap return (R135): the host writes 1 to its bit in IRQ_STATUS. -/
def acknowledge (v : Word) (s : State) : State := { s with irq := s.irq.clear v }

/-- The completion step's second half (R79): apply the effects on success, then report. -/
def finish (s : State) : CmdOutcome → State
  | .ok s' => reportOk s'
  | .fail e info => reportFail e info s

/-- The completion of a command whose rule gives `r` from `s`: always a next state (R79, R122). -/
def completeWith (s : State) (r : CmdOutcome) : Host.Outcome State Fault Refusal := .next (finish s r)

/-- Run one stage's body after another; the first failure decides the outcome (R81, R113). -/
def CmdOutcome.andThen (r : CmdOutcome) (k : State → CmdOutcome) : CmdOutcome :=
  match r with
  | .ok s => k s
  | .fail e info => .fail e info

/-! ## Data registers and reset -/

/-- A successful read command writes all three RESULT registers (R32, R121). -/
def setResults (r0 r1 r2 : Word) (s : State) : State :=
  { s with data := { s.data with result0 := r0, result1 := r1, result2 := r2 } }

/-- `RangeError(INDEX)` unless INDEX is below the memory's length (R131). -/
def withIndex (index : Index) (len : Word) (k : CmdOutcome) : CmdOutcome :=
  if index.toNat < len.toNat then k else .fail .rangeError (indexWord index)

/-- `CW <- v` (R32, R119). -/
def setCw (v : BitVec 256) (s : State) : State := { s with data := { s.data with codeW := codeWords v } }

/-- A host write of CODE_Wk (R32). -/
def setCodeW (k : Fin 8) (v : Word) (s : State) : State :=
  { s with data := { s.data with codeW := s.data.codeW.set k.val v } }

/-- A host write dropped because PHASE is BUSY: its only effect is IRQ_STATUS.OVERRUN (R78, R87, R132). -/
def dropWrite (s : State) : State := { s with irq := s.irq.raise irqOverrun }

/-- Hardware reset (R141 to R143): every part of the block's state takes its reset value, whatever the phase;
the parameters and the world outside stay. -/
def hardReset (s : State) : State := State.resetIn s.cfg s.env

end Sys2Proof.Machine
end

