-- ==== Sys2Proof/Machine/Bus.lean ====
section
/-! DEFINITION. The host's register accesses: the map of R20, reads (R21 to R32, R147) and writes (R25, R27, R28,
R32, R77, R78, R87). -/

namespace Sys2Proof.Machine

/-- The register at an offset of the window (R20). -/
def regAt (off : Nat) : Reg :=
  match off with
  | 0x00 => .id
  | 0x04 => .cfg
  | 0x08 => .cfgTextMax
  | 0x0C => .cfgOutMax
  | 0x10 => .cmd
  | 0x14 => .status
  | 0x18 => .irqStatus
  | 0x1C => .irqEnable
  | 0x20 => .lastCmd
  | 0x24 => .errInfo
  | 0x28 => .textLen
  | 0x2C => .nsym
  | 0x30 => .nnodes
  | 0x34 => .root
  | 0x38 => .bitLen
  | 0x3C => .pad
  | 0x40 => .outLen
  | 0x44 => .result0
  | 0x48 => .result1
  | 0x4C => .result2
  | 0x50 => .codeW 0
  | 0x54 => .codeW 1
  | 0x58 => .codeW 2
  | 0x5C => .codeW 3
  | 0x60 => .codeW 4
  | 0x64 => .codeW 5
  | 0x68 => .codeW 6
  | 0x6C => .codeW 7
  | _ => .reserved

/-- CFG: SYM_BITS in [3:0], CODE_LEN_MAX in [15:8], the rest 0 (R23). -/
def cfgWord (c : Config) : Word :=
  0#16 ++ BitVec.ofNat 8 c.codeLenMax ++ 0#4 ++ BitVec.ofNat 4 c.symBits

/-- The value each register's own rule gives it (R22 to R32). -/
def regValue (s : State) : Reg → Word
  | .id => 0x48554631
  | .cfg => cfgWord s.cfg
  | .cfgTextMax => BitVec.ofNat 32 s.cfg.textMax
  | .cfgOutMax => BitVec.ofNat 32 s.cfg.outMax
  | .cmd => 0
  | .status => s.status
  | .irqStatus => s.irq.status.setWidth 32
  | .irqEnable => s.irq.enable.setWidth 32
  | .lastCmd => s.report.lastCmd
  | .errInfo => s.report.errInfo
  | .textLen => s.text.len
  | .nsym => s.freq.nsym
  | .nnodes => s.tree.nnodes
  | .root => s.tree.root
  | .bitLen => s.out.bitLen
  | .pad => s.out.pad
  | .outLen => s.out.len
  | .result0 => s.data.result0
  | .result1 => s.data.result1
  | .result2 => s.data.result2
  | .codeW k => s.data.codeW[k.val]
  | .reserved => 0

/-- What a read during BUSY finds (R147), `free` being the value of what is unspecified: BUSY reads 1, ERR and
ERRCODE read 0, STATUS[11:8] is unspecified, and so is every register a command may write. -/
def regValueBusy (free : Word) (s : State) : Reg → Word
  | .status => statusWord (free.extractLsb' 8 4) 0 false true
  | .errInfo => free
  | .textLen => free
  | .nsym => free
  | .nnodes => free
  | .root => free
  | .bitLen => free
  | .pad => free
  | .outLen => free
  | .result0 => free
  | .result1 => free
  | .result2 => free
  | .codeW _ => free
  | .id => regValue s .id
  | .cfg => regValue s .cfg
  | .cfgTextMax => regValue s .cfgTextMax
  | .cfgOutMax => regValue s .cfgOutMax
  | .cmd => regValue s .cmd
  | .irqStatus => regValue s .irqStatus
  | .irqEnable => regValue s .irqEnable
  | .lastCmd => regValue s .lastCmd
  | .reserved => regValue s .reserved

/-- The value a read returns: the rules' value when IDLE, R147's when BUSY. -/
def readValue (s : State) (r : Reg) : Word :=
  if s.isBusy then regValueBusy (Config.freeRead s.env.freeIndex) s r else regValue s r

/-- A host read of a register: it has no side effect on the block (R21, R55). The value goes to the model's own
field `readData`, and a read during BUSY takes a fresh free value, so two of them may differ (R147). -/
def readReg (r : Reg) (s : State) : State :=
  { s with env := { s.env with
      readData := readValue s r
      freeIndex := if s.isBusy then s.env.freeIndex + 1 else s.env.freeIndex } }

/-- A host write of a register (R21, R25, R27, R28, R32, R77, R78, R87). -/
def writeReg (r : Reg) (v : Word) (s : State) : State :=
  match r with
  | .cmd => if s.isBusy then dropWrite s else issue v s
  | .codeW k => if s.isBusy then dropWrite s else setCodeW k v s
  | .irqStatus => acknowledge v s
  | .irqEnable => { s with irq := s.irq.setEnable v }
  | .id => s
  | .cfg => s
  | .cfgTextMax => s
  | .cfgOutMax => s
  | .status => s
  | .lastCmd => s
  | .errInfo => s
  | .textLen => s
  | .nsym => s
  | .nnodes => s
  | .root => s
  | .bitLen => s
  | .pad => s
  | .outLen => s
  | .result0 => s
  | .result1 => s
  | .result2 => s
  | .reserved => s

/-- One host access of `bytes` bytes at a bus address: only 32-bit, word-aligned accesses inside the window are
defined (R48 to R50). -/
def access (addr bytes : Nat) (s : State) (act : Reg → State → State) : Host.Outcome State Fault Refusal :=
  if addr < s.cfg.base ∨ s.cfg.base + 256 ≤ addr then .fault .outsideWindow
  else if bytes = 4 ∧ (addr - s.cfg.base) % 4 = 0 then .next (act (regAt (addr - s.cfg.base)) s)
  else .refused .undefinedAccess

/-- `MemRead(addr, bytes)` (R48). -/
def hostRead (addr bytes : Nat) (s : State) : Host.Outcome State Fault Refusal := access addr bytes s readReg

/-- `MemWrite(addr, bytes, v)` (R48). -/
def hostWrite (addr bytes : Nat) (v : Word) (s : State) : Host.Outcome State Fault Refusal :=
  access addr bytes s (fun r => writeReg r v)

end Sys2Proof.Machine
end

