-- ==== Sys2Proof/Machine/Control.lean ====
section
/-! DEFINITION. The control commands NOP (R84) and CLEAR (R85). -/

namespace Sys2Proof.Machine

/-- NOP: complete with no effect (R84). -/
def execNop (s : State) : Host.Outcome State Fault Refusal := completeWith s (.ok s)

/-- CLEAR's effects: no text and no product (R85). -/
def clearRun (s : State) : State :=
  invalOut (invalCodes (invalTree (invalFreq { s with text := .empty })))

/-- CLEAR: start a new run (R85). -/
def execClear (s : State) : Host.Outcome State Fault Refusal := completeWith s (.ok (clearRun s))

end Sys2Proof.Machine
end

