-- ==== Sys2Proof/Machine/BitPacker.lean ====
section
/-! DEFINITION. The Bit Packer: assembly, padding and packing (R105 to R107) and PACK (R108). -/

namespace Sys2Proof.Machine

/-- `assemble()` of R105: the coded text, or the first symbol with no code and its index. -/
def assembleFrom (entries : List CodeEntry) : Nat → List Sym → Except (Sym × Nat) Bits
  | _, [] => .ok []
  | i, sym :: rest =>
    if (codeAt entries sym).valid then
      match assembleFrom entries (i + 1) rest with
      | .ok bits => .ok (codestr (codeAt entries sym) ++ bits)
      | .error e => .error e
    else .error (sym, i)

/-- The padding count of R106: 1..8, never 0. -/
def extraOf (bits : Bits) : Nat := 8 - bits.length % 8

/-- The padded bit sequence of R106: the header, the bits, and `extra` zeros. -/
def padded (bits : Bits) : Bits := bitsOf 8 (extraOf bits) ++ bits ++ List.replicate (extraOf bits) false

/-- The first `n` bytes of a bit sequence, each from 8 bits, most significant first (R107). -/
def bytesOf : Nat → Bits → List Byte
  | 0, _ => []
  | n + 1, bits => BitVec.ofNat 8 (valueOf (bits.take 8)) :: bytesOf n (bits.drop 8)

/-- OUT and its registers for an encoded bit sequence (R108). -/
def outOf (bits : Bits) : OutBuffer where
  bytes  := bytesOf ((padded bits).length / 8) (padded bits)
  len    := BitVec.ofNat 32 ((padded bits).length / 8)
  bitLen := BitVec.ofNat 32 bits.length
  pad    := BitVec.ofNat 32 (extraOf bits)
  valid  := true

/-- ERR_INFO of a LOOKUP_ERROR: (symbol << 24) | index (R126). -/
def lookupInfo (sym : Sym) (i : Nat) : Word := (sym.setWidth 32 <<< 24) ||| BitVec.ofNat 32 i

/-- PACK's rule (R108); the structural check of R107 is kept, and never fails (R110). -/
def packBody (s : State) : CmdOutcome :=
  if s.codes.valid = false then .fail .sequenceError codesValidMask
  else
    match assembleFrom s.codes.entries 0 s.input with
    | .error (sym, i) => .fail .lookupError (lookupInfo sym i)
    | .ok bits =>
      if (padded bits).length % 8 ≠ 0 then .fail .structuralError 0
      else .ok { s with out := outOf bits }

/-- PACK: encode the text with the CODE table into OUT (R108). -/
def execPack (s : State) : Host.Outcome State Fault Refusal := completeWith s (packBody s)

end Sys2Proof.Machine
end

