-- ==== Sys2Proof/Machine/CodeAssigner.lean ====
section
/-! DEFINITION. The Code Assigner: ASSIGN_CODES (R99 to R102) and the host's table, CODE_LOAD (R103, R104). -/

namespace Sys2Proof.Machine

/-- `CODE[sym] <- e`. -/
def setCode (entries : List CodeEntry) (sym : Sym) (e : CodeEntry) : List CodeEntry := entries.set sym.toNat e

/-- The stack-based walk of R100: each frame is a node index with its own path value.
Each pass pops one node, so NNODES is enough fuel for a tree (R95); assumption 8. -/
def walk (nodes : List Node) : Nat → List (Nat × Bits) → List CodeEntry → List CodeEntry
  | 0, _, entries => entries
  | _, [], entries => entries
  | fuel + 1, (i, p) :: stack, entries =>
    if (nodeAt nodes i).leaf then
      walk nodes fuel stack (setCode entries (nodeAt nodes i).sym (entryOfPath p))
    else
      walk nodes fuel
        (((nodeAt nodes i).left.toNat, p ++ [false]) :: ((nodeAt nodes i).right.toNat, p ++ [true]) :: stack) entries

/-- CODE of a tree, from an empty table: the code "0" for a tree of one leaf (R102), else the walk (R100). -/
def codesOf (c : Config) (t : Tree) : CodeTable where
  entries :=
    if (nodeAt t.nodes t.root.toNat).leaf then
      setCode (CodeTable.empty c).entries (nodeAt t.nodes t.root.toNat).sym (entryOfPath [false])
    else walk t.nodes t.nnodes.toNat [(t.root.toNat, [])] (CodeTable.empty c).entries
  valid := true

/-- ASSIGN_CODES's rule (R100). -/
def assignCodesBody (s : State) : CmdOutcome :=
  if s.tree.valid = false then .fail .sequenceError treeValidMask
  else .ok { invalOut s with codes := codesOf s.cfg s.tree }

/-- ASSIGN_CODES: derive the CODE table from the tree (R100). -/
def execAssignCodes (s : State) : Host.Outcome State Fault Refusal := completeWith s (assignCodesBody s)

/-- CODE_LOAD's rule, once its operands are legal (R103). -/
def codeLoadBody (sym : Sym) (len : BitVec 8) (s : State) : CmdOutcome :=
  .ok { invalOut s with
    codes := { entries := setCode s.codes.entries sym (loadedEntry s.data.cw len), valid := true } }

/-- CODE_LOAD: write one entry of the CODE table from the host (R103); the table is not checked (R104). -/
def execCodeLoad (sym : Sym) (len : BitVec 8) (s : State) : Host.Outcome State Fault Refusal :=
  completeWith s (withSym sym s (withLen len s (codeLoadBody sym len s)))

end Sys2Proof.Machine
end

