-- ==== Sys2Proof/Machine/Input.lean ====
section
/-! DEFINITION. Text input and the Frequency Analyzer: TEXT_PUSH (R88) and FREQ_COUNT (R89). -/

namespace Sys2Proof.Machine

/-- `TEXT[TEXT_LEN] <- SYM; TEXT_LEN <- TEXT_LEN + 1` (R88). -/
def appendText (sym : Sym) (s : State) : State :=
  { s with text := { entries := s.input ++ [sym], len := s.text.len + 1 } }

/-- TEXT_PUSH's rule (R88). -/
def textPushBody (sym : Sym) (s : State) : CmdOutcome :=
  if s.text.len.toNat = s.cfg.textMax then .fail .capacityError (BitVec.ofNat 32 s.cfg.textMax)
  else .ok (invalOut (invalCodes (invalTree (invalFreq (appendText sym s)))))

/-- TEXT_PUSH: append one symbol (R88). -/
def execTextPush (sym : Sym) (s : State) : Host.Outcome State Fault Refusal :=
  completeWith s (withSym sym s (textPushBody sym s))

/-- `FREQ[s] <- FREQ[s] + 1` (R89). -/
def countOne (counts : List Word) (sym : Sym) : List Word := counts.modify sym.toNat (· + 1)

/-- The single linear scan, in input order, over cleared counts (R89). -/
def countSymbols (n : Nat) (text : List Sym) : List Word := text.foldl countOne (List.replicate n 0)

/-- The number of symbols with a non-zero count (R89). -/
def distinctCount (counts : List Word) : Nat := counts.countP (· ≠ 0)

/-- The Frequency Table of a text (R89). -/
def freqOf (c : Config) (text : List Sym) : FreqTable where
  counts := countSymbols c.nsymMax text
  nsym   := BitVec.ofNat 32 (distinctCount (countSymbols c.nsymMax text))
  valid  := true

/-- FREQ_COUNT's rule: it cannot fail (R89). -/
def freqCountBody (s : State) : CmdOutcome :=
  .ok { invalOut (invalCodes (invalTree s)) with freq := freqOf s.cfg s.input }

/-- FREQ_COUNT: build the Frequency Table from the text (R89). -/
def execFreqCount (s : State) : Host.Outcome State Fault Refusal := completeWith s (freqCountBody s)

end Sys2Proof.Machine
end

