-- ==== Sys2Proof/Machine/TreeBuilder.lean ====
section
/-! DEFINITION. The Tree Builder: the priority queue (R92, R93) and BUILD_TREE (R94). -/

namespace Sys2Proof.Machine

/-- `key(i) < key(j)`: the smaller frequency first, then the smaller node index (R93). -/
def keyLt (nodes : List Node) (i j : Nat) : Bool :=
  decide ((nodeAt nodes i).freq.toNat < (nodeAt nodes j).freq.toNat ∨
    (nodeAt nodes i).freq.toNat = (nodeAt nodes j).freq.toNat ∧ i < j)

/-- The element with the least key among `m` and a queue (R92). -/
def leastFrom (nodes : List Node) : Nat → List Nat → Nat
  | m, [] => m
  | m, i :: rest => leastFrom nodes (if keyLt nodes i m then i else m) rest

/-- `extract_min()`: the element with the least key and the queue without it; nothing from an empty queue (R92). -/
def extractMin (nodes : List Node) : List Nat → Option (Nat × List Nat)
  | [] => none
  | i :: rest => some (leastFrom nodes i rest, (i :: rest).erase (leastFrom nodes i rest))

/-- The leaf of a symbol (R35, R94 step 1). -/
def leafNode (count : Word) (sym : Nat) : Node :=
  { freq := count, leaf := true, sym := BitVec.ofNat 8 sym, left := 0, right := 0 }

/-- One leaf for each symbol with a non-zero count, in ascending symbol order, from symbol `sym` on (R94 step 1). -/
def leavesFrom : Nat → List Word → List Node
  | _, [] => []
  | sym, f :: rest => if f = 0 then leavesFrom (sym + 1) rest else leafNode f sym :: leavesFrom (sym + 1) rest

/-- The internal node over `a`, popped first, and `b`, popped second (R94 step 2). -/
def mergeNode (nodes : List Node) (a b : Nat) : Node where
  freq  := (nodeAt nodes a).freq + (nodeAt nodes b).freq
  leaf  := false
  sym   := 0
  left  := BitVec.ofNat 16 a
  right := BitVec.ofNat 16 b

/-- One pass of the greedy merge: NODE and QUEUE after it, or nothing when size() ≤ 1 (R94 step 2). -/
def mergeOnce (nodes : List Node) (queue : List Nat) : Option (List Node × List Nat) :=
  match extractMin nodes queue with
  | none => none
  | some (a, q₁) =>
    match extractMin nodes q₁ with
    | none => none
    | some (b, q₂) => some (nodes ++ [mergeNode nodes a b], q₂ ++ [nodes.length])

/-- The greedy merge (R94 step 2). Each pass shortens QUEUE by one, so the number of leaves is enough fuel. -/
def mergeLoop : Nat → List Node → List Nat → List Node × List Nat
  | 0, nodes, queue => (nodes, queue)
  | fuel + 1, nodes, queue =>
    match mergeOnce nodes queue with
    | none => (nodes, queue)
    | some (nodes', queue') => mergeLoop fuel nodes' queue'

/-- NODE and QUEUE when the merge ends, from the counts of FREQ (R94 steps 1 and 2). -/
def huffman (counts : List Word) : List Node × List Nat :=
  mergeLoop (leavesFrom 0 counts).length (leavesFrom 0 counts) (List.range (leavesFrom 0 counts).length)

/-- The tree of a Frequency Table: ROOT is the one node left in QUEUE (R94 step 3). -/
def treeOf (counts : List Word) : Tree where
  nodes  := (huffman counts).1
  nnodes := BitVec.ofNat 32 (huffman counts).1.length
  root   := BitVec.ofNat 32 (((extractMin (huffman counts).1 (huffman counts).2).map Prod.fst).getD 0)
  valid  := true

/-- QUEUE after BUILD_TREE: what is left when ROOT has been taken (R94 step 3). -/
def queueAfter (counts : List Word) : List Nat :=
  ((extractMin (huffman counts).1 (huffman counts).2).map Prod.snd).getD []

/-- BUILD_TREE's rule (R94, R96, R97). -/
def buildTreeBody (s : State) : CmdOutcome :=
  if s.freq.valid = false then .fail .sequenceError freqValidMask
  else if s.freq.nsym = 0 then .fail .invalidInput 0
  else .ok { invalOut (invalCodes s) with tree := treeOf s.freq.counts, queue := queueAfter s.freq.counts }

/-- BUILD_TREE: build the code tree from the FREQ table (R94). -/
def execBuildTree (s : State) : Host.Outcome State Fault Refusal := completeWith s (buildTreeBody s)

end Sys2Proof.Machine
end

