-- ==== Sys2Proof/Machine/Pipeline.lean ====
section
/-! DEFINITION. COMPRESS, the whole pipeline (R113). -/

namespace Sys2Proof.Machine

/-- COMPRESS's rule: the bodies of the four stages in turn, after the check for an empty text (R113). -/
def compressBody (s : State) : CmdOutcome :=
  if s.text.len = 0 then .fail .invalidInput 0
  else (((freqCountBody s).andThen buildTreeBody).andThen assignCodesBody).andThen packBody

/-- COMPRESS: run the Frequency Analyzer, Tree Builder, Code Assigner and Bit Packer (R113). -/
def execCompress (s : State) : Host.Outcome State Fault Refusal := completeWith s (compressBody s)

end Sys2Proof.Machine
end

