-- ==== Sys2Proof/Machine/Readback.lean ====
section
/-! DEFINITION. The readback commands (R116 to R121). -/

namespace Sys2Proof.Machine

/-- TEXT_READ: read one symbol of the text (R116). -/
def execTextRead (index : Index) (s : State) : Host.Outcome State Fault Refusal :=
  completeWith s (withIndex index s.text.len (.ok (setResults ((textAt s index.toNat).setWidth 32) 0 0 s)))

/-- FREQ_READ: read one count of the FREQ table (R117). -/
def execFreqRead (sym : Sym) (s : State) : Host.Outcome State Fault Refusal :=
  completeWith s (withSym sym s (.ok (setResults (freqAt s sym) 0 0 s)))

/-- RESULT1 of a node: bit 31 LEAF, bits [7:0] SYM (R118). -/
def nodeResult1 (n : Node) : Word := bit n.leaf ++ 0#23 ++ n.sym

/-- RESULT2 of a node: bits [31:16] RIGHT, bits [15:0] LEFT (R118). -/
def nodeResult2 (n : Node) : Word := n.right ++ n.left

/-- NODE_READ: read one node of the tree (R118). -/
def execNodeRead (index : Index) (s : State) : Host.Outcome State Fault Refusal :=
  completeWith s (withIndex index s.tree.nnodes
    (.ok (setResults (nodeAt s.tree.nodes index.toNat).freq (nodeResult1 (nodeAt s.tree.nodes index.toNat))
      (nodeResult2 (nodeAt s.tree.nodes index.toNat)) s)))

/-- RESULT0 of a code record: bit 31 VALID, bits [7:0] LEN (R119). -/
def codeResult0 (e : CodeEntry) : Word := bit e.valid ++ 0#23 ++ e.len

/-- CODE_READ: read one entry of the CODE table into RESULT0 and CW (R119). -/
def execCodeRead (sym : Sym) (s : State) : Host.Outcome State Fault Refusal :=
  completeWith s (withSym sym s
    (.ok (setCw ((codeAt s.codes.entries sym).bits.setWidth 256)
      (setResults (codeResult0 (codeAt s.codes.entries sym)) 0 0 s))))

/-- OUT_READ: read one byte of the output (R120). -/
def execOutRead (index : Index) (s : State) : Host.Outcome State Fault Refusal :=
  completeWith s (withIndex index s.out.len (.ok (setResults ((outAt s index.toNat).setWidth 32) 0 0 s)))

end Sys2Proof.Machine
end

