-- ==== Sys2Proof/Machine/Dispatch.lean ====
section
/-! DEFINITION. One arm per command: the completion of a decoded command from the state before it (R79, R81). -/

namespace Sys2Proof.Machine

def exec (i : Instr) (s : State) : Host.Outcome State Fault Refusal :=
  match i with
  | .nop => Sys2Proof.Machine.execNop s
  | .clear => Sys2Proof.Machine.execClear s
  | .textPush sym => Sys2Proof.Machine.execTextPush sym s
  | .freqCount => Sys2Proof.Machine.execFreqCount s
  | .buildTree => Sys2Proof.Machine.execBuildTree s
  | .assignCodes => Sys2Proof.Machine.execAssignCodes s
  | .codeLoad sym len => Sys2Proof.Machine.execCodeLoad sym len s
  | .pack => Sys2Proof.Machine.execPack s
  | .compress => Sys2Proof.Machine.execCompress s
  | .textRead index => Sys2Proof.Machine.execTextRead index s
  | .freqRead sym => Sys2Proof.Machine.execFreqRead sym s
  | .nodeRead index => Sys2Proof.Machine.execNodeRead index s
  | .codeRead sym => Sys2Proof.Machine.execCodeRead sym s
  | .outRead index => Sys2Proof.Machine.execOutRead index s

end Sys2Proof.Machine
end

