-- ==== Sys2Proof/Machine/Sequencer.lean ====
section
/-! DEFINITION. The sequencer's step (R79, R152), what a host event does (R150), and the issue of a table word. -/

namespace Sys2Proof.Machine

/-- The completion of command word `w` (R79, R81): decode, then the command's own rule; a word that is no command
completes with ILLEGAL_COMMAND (R71, R72). -/
def complete (w : Word) (s : State) : Host.Outcome State Fault Refusal :=
  match decode w with
  | .ok i => exec i s
  | .error r => completeWith s (illegal r)

/-- The sequencer's turn: the completion when BUSY; an IDLE block does nothing on its own (R79, R139). -/
def sequencerStep (s : State) : Host.Outcome State Fault Refusal :=
  match s.phase with
  | .busy w => complete w s
  | .idle => .next s

/-- One event of R150, applied to the state with the event taken off the list. -/
def runEvent (e : Event) (s : State) : Host.Outcome State Fault Refusal :=
  match e with
  | .hostRead addr bytes => hostRead addr bytes s
  | .hostWrite addr bytes v => hostWrite addr bytes v s
  | .reset => .next (hardReset s)
  | .sequencer => sequencerStep s

/-- The events that are still to come become `es`. -/
def setPending (es : List Event) (s : State) : State := { s with env := { s.env with pending := es } }

/-- The state in which the very next step runs the table word: IDLE, then issued by the host (R77), with the
sequencer's turn next. -/
def issueTableWord (s : State) (nbits w : Nat) : State :=
  issue (tableWord nbits w) (setPending (.sequencer :: s.env.pending) { s with phase := .idle })

end Sys2Proof.Machine
end

