-- ==== Sys2Proof/Machine/Step.lean ====
section
/-! DEFINITION. One step of the machine (R150): the next pending event, or the sequencer's turn when none is pending. -/

namespace Sys2Proof.Machine

/-- One step: exactly one host access, one completion, or one reset (R150). When the list of events is empty only the
sequencer can move, so a busy command always completes (R152). -/
def step (s : State) : Host.Outcome State Fault Refusal :=
  match s.env.pending with
  | [] => sequencerStep s
  | e :: es => runEvent e (setPending es s)

/-- The table word issued by the host, so that the very next step runs it (R77, assumption 3). -/
def State.withFetchWord (s : State) (nbits w : Nat) : State := issueTableWord s nbits w

end Sys2Proof.Machine
end

