-- ==== Sys2Proof/Safety.lean ====
section
/-! DEFINITION. What a good state and a safe step are, in the terms the statements use: the form of the internal
memories (R33 to R38), the invariants of R45 and R39, the report (R80), paths and replay in the tree (R99, R112). -/

namespace Sys2Proof.Machine

/-! ## Good states -/

/-- TEXT holds TEXT_LEN legal symbols (R31, R33, R66). -/
abbrev TextBuffer.wf (c : Config) (x : TextBuffer) : Prop :=
  x.entries.length = x.len.toNat ∧ x.len.toNat ≤ c.textMax ∧ ∀ y ∈ x.entries, y.toNat < c.nsymMax

/-- FREQ holds NSYM_MAX counts (R34). -/
abbrev FreqTable.wf (c : Config) (f : FreqTable) : Prop := f.counts.length = c.nsymMax

/-- NODE holds NNODES records (R35). -/
abbrev Tree.wf (t : Tree) : Prop := t.nodes.length = t.nnodes.toNat

/-- CODE holds NSYM_MAX records (R37). -/
abbrev CodeTable.wf (c : Config) (t : CodeTable) : Prop := t.entries.length = c.nsymMax

/-- OUT holds OUT_LEN bytes (R38). -/
abbrev OutBuffer.wf (o : OutBuffer) : Prop := o.bytes.length = o.len.toNat

/-- The canonical form of the internal memories: each list holds exactly the entries the rules specify. -/
abbrev Memory.wf (s : State) : Prop :=
  s.text.wf s.cfg ∧ s.freq.wf s.cfg ∧ s.tree.wf ∧ s.codes.wf s.cfg ∧ s.out.wf

/-- The number of occurrences of a symbol in the text (R45 (c)). -/
def occurrences (s : State) (sym : Sym) : Nat := s.input.count sym

/-- The number of symbols with a non-zero count (R45 (c)). -/
def distinctSymbols (s : State) : Nat := (List.range s.cfg.nsymMax).countP fun v => freqAt s (BitVec.ofNat 8 v) ≠ 0

/-- R45, clause by clause. -/
structure R45 (s : State) : Prop where
  treeNeedsFreq  : s.tree.valid = true → s.freq.valid = true
  outNeedsCodes  : s.out.valid = true → s.codes.valid = true
  freqIsCount    : s.freq.valid = true → ∀ sym : Sym, sym.toNat < s.cfg.nsymMax →
    (freqAt s sym).toNat = occurrences s sym
  nsymIsDistinct : s.freq.valid = true → s.freq.nsym.toNat = distinctSymbols s
  treeShape      : s.tree.valid = true →
    1 ≤ s.freq.nsym.toNat ∧ s.tree.nnodes.toNat = 2 * s.freq.nsym.toNat - 1 ∧
      s.tree.root.toNat = s.tree.nnodes.toNat - 1
  queueEmpty     : s.queue = []
  padZero        : s.out.pad = 0 ↔ s.out.valid = false
  outLenZero     : s.out.len = 0 ↔ s.out.valid = false

/-- A record of CODE as R37 allows it: nothing when not valid, else 1..CODE_LEN_MAX bits. -/
def CodeOk (c : Config) (e : CodeEntry) : Prop :=
  (e.valid = false → e = CodeEntry.none) ∧
  (e.valid = true → 1 ≤ e.len.toNat ∧ e.len.toNat ≤ c.codeLenMax ∧ e.bits.toNat < 2 ^ e.len.toNat)

/-- "A valid flag of 1 always means the product matches the current state of what it depends on" (R39), and a product
that is not valid is in its empty state (R40). A CODE table the host loaded matches nothing else (R153). -/
structure ProductsMatch (s : State) : Prop where
  freqValid    : s.freq.valid = true → s.freq = freqOf s.cfg s.input
  freqInvalid  : s.freq.valid = false → s.freq = .empty s.cfg
  treeValid    : s.tree.valid = true → s.freq.valid = true ∧ s.freq.nsym ≠ 0 ∧ s.tree = treeOf s.freq.counts
  treeInvalid  : s.tree.valid = false → s.tree = .empty
  codesInvalid : s.codes.valid = false → s.codes = .empty s.cfg
  outValid     : s.out.valid = true → s.codes.valid = true ∧
    ∃ bits, assembleFrom s.codes.entries 0 s.input = .ok bits ∧ s.out = outOf bits
  outInvalid   : s.out.valid = false → s.out = .empty

/-- The invariant every step keeps. -/
structure Inv (s : State) : Prop where
  params   : s.cfg.wf
  memory   : Memory.wf s
  products : ProductsMatch s
  queue    : s.queue = []
  codes    : ∀ e ∈ s.codes.entries, CodeOk s.cfg e
  nodesFit : s.tree.nnodes.toNat ≤ s.cfg.nodeMax
  outFits  : s.out.len.toNat ≤ s.cfg.outMax
  /-- During BUSY, LAST_CMD is the command's word and ERR and ERRCODE are clear (R29, R77). -/
  busy     : ∀ w, s.phase = .busy w → s.report.lastCmd = w ∧ s.report.err = false ∧ s.report.errCode = 0
  /-- Codes 8..15 are never produced (R124). -/
  errCode  : s.report.errCode.toNat ≤ 7

/-- The FREQ table holds the counts of at least one symbol, with its own NSYM: what BUILD_TREE needs (R94).
The bound on the sum is R8 (a): the counts come from a text. -/
abbrev FreqReady (s : State) : Prop :=
  s.cfg.wf ∧ s.freq.valid = true ∧ s.freq.counts.length = s.cfg.nsymMax ∧
  s.freq.nsym.toNat = s.freq.counts.countP (· ≠ 0) ∧ 1 ≤ s.freq.counts.countP (· ≠ 0) ∧
  (s.freq.counts.map BitVec.toNat).sum < 2 ^ 32

/-! ## Safe events -/

/-- A host access the spec defines: four bytes at a word-aligned offset of the window (R48, R50). -/
def DefinedAccess (c : Config) (addr bytes : Nat) : Prop :=
  bytes = 4 ∧ ∃ off, off < 256 ∧ off % 4 = 0 ∧ addr = c.base + off

/-- An event with a defined effect: everything but an access R50 leaves undefined or one outside the window. -/
def Event.defined (c : Config) : Event → Prop
  | .hostRead addr bytes => DefinedAccess c addr bytes
  | .hostWrite addr bytes _ => DefinedAccess c addr bytes
  | .reset => True
  | .sequencer => True

/-- The next step of `s` is the sequencer's: its turn is the next event, or no event is pending (R150, R152).
`u` is the state with that event taken off the list, the state its turn runs on. -/
def SequencerTurn (s u : State) : Prop :=
  (s.env.pending = [] ∧ u = s) ∨
    ∃ es, s.env.pending = .sequencer :: es ∧ u = { s with env := { s.env with pending := es } }

/-! ## Reports -/

/-- Everything of the state but PHASE, the report and IRQ_STATUS is as before (R82, and the frame of every read). -/
structure SameButReport (s t : State) : Prop where
  cfg     : t.cfg = s.cfg
  enable  : t.irq.enable = s.irq.enable
  lastCmd : t.report.lastCmd = s.report.lastCmd
  text    : t.text = s.text
  freq    : t.freq = s.freq
  tree    : t.tree = s.tree
  queue   : t.queue = s.queue
  codes   : t.codes = s.codes
  out     : t.out = s.out
  data    : t.data = s.data
  env     : t.env = s.env

/-- The report of a successful completion (R80): IDLE, no error, ERR_INFO 0, DONE set and the other event bits kept;
the parameters, IRQ_ENABLE, LAST_CMD and the world outside are as before. -/
structure Succeeded (s t : State) : Prop where
  idle    : t.phase = .idle
  noErr   : t.report.err = false
  code    : t.report.errCode = 0
  info    : t.report.errInfo = 0
  events  : t.irq.status = s.irq.status ||| 0b001
  enable  : t.irq.enable = s.irq.enable
  lastCmd : t.report.lastCmd = s.report.lastCmd
  cfg     : t.cfg = s.cfg
  env     : t.env = s.env

/-- The completion of a failed command (R80, R82): IDLE, ERR 1, ERRCODE and ERR_INFO as given, DONE and ERROR set,
and nothing else changed. -/
structure Failed (code : BitVec 4) (info : Word) (s t : State) : Prop where
  idle   : t.phase = .idle
  err    : t.report.err = true
  code   : t.report.errCode = code
  info   : t.report.errInfo = info
  events : t.irq.status = s.irq.status ||| 0b011
  same   : SameButReport s t

/-- `exec` answers a next state, and it is a failure with this ERRCODE and ERR_INFO. -/
def FailsWith (i : Instr) (s : State) (code : BitVec 4) (info : Word) : Prop :=
  ∃ t, exec i s = .next t ∧ Failed code info s t

/-- The read commands (R116 to R120). -/
def isReadCommand : Instr → Bool
  | .textRead _ => true
  | .freqRead _ => true
  | .nodeRead _ => true
  | .codeRead _ => true
  | .outRead _ => true
  | .nop => false
  | .clear => false
  | .textPush _ => false
  | .freqCount => false
  | .buildTree => false
  | .assignCodes => false
  | .codeLoad _ _ => false
  | .pack => false
  | .compress => false

/-! ## Runs of commands -/

/-- One command after another, each from the state the one before left; a stop ends the run (R83). -/
def runCommands : List Instr → State → Option State
  | [], s => some s
  | i :: rest, s =>
    match exec i s with
    | .next t => runCommands rest t
    | .fault _ => none
    | .refused _ => none

/-! ## The greedy merge (R92 to R94) -/

/-- `key(i) < key(j)` of R93, on a node store. -/
def KeyBefore (nodes : List Node) (i j : Nat) : Prop :=
  (nodeAt nodes i).freq.toNat < (nodeAt nodes j).freq.toNat ∨
    (nodeAt nodes i).freq.toNat = (nodeAt nodes j).freq.toNat ∧ i < j

/-- Node `i` is in QUEUE just before node `j` is made: it exists, and no node made before `j` is its parent (R94). -/
def Waiting (nodes : List Node) (j i : Nat) : Prop :=
  i < j ∧ ∀ k < j, (nodeAt nodes k).leaf = false →
    i ≠ (nodeAt nodes k).left.toNat ∧ i ≠ (nodeAt nodes k).right.toNat

/-- Node `j` merges the two waiting nodes with the least keys, the least one left (R93, R94 step 2). -/
def GreedyAt (nodes : List Node) (j : Nat) : Prop :=
  Waiting nodes j (nodeAt nodes j).left.toNat ∧ Waiting nodes j (nodeAt nodes j).right.toNat ∧
  (nodeAt nodes j).left.toNat ≠ (nodeAt nodes j).right.toNat ∧
  (nodeAt nodes j).freq =
    (nodeAt nodes (nodeAt nodes j).left.toNat).freq + (nodeAt nodes (nodeAt nodes j).right.toNat).freq ∧
  (∀ i, Waiting nodes j i → i ≠ (nodeAt nodes j).left.toNat → KeyBefore nodes (nodeAt nodes j).left.toNat i) ∧
  (∀ i, Waiting nodes j i → i ≠ (nodeAt nodes j).left.toNat → i ≠ (nodeAt nodes j).right.toNat →
    KeyBefore nodes (nodeAt nodes j).right.toNat i)

/-! ## Paths and replay (R99, R112) -/

/-- The child of an internal node on a bit: left on 0, right on 1 (R99). -/
def childOn (n : Node) (b : Bool) : Nat := if b then n.right.toNat else n.left.toNat

/-- `PathTo nodes i p j`: from node `i` the bits of `p` lead through internal nodes of the store to node `j` (R99). -/
def PathTo (nodes : List Node) : Nat → Bits → Nat → Prop
  | i, [], j => i = j ∧ i < nodes.length
  | i, b :: p, j => i < nodes.length ∧ (nodeAt nodes i).leaf = false ∧ PathTo nodes (childOn (nodeAt nodes i) b) p j

/-- Replay bits against the tree (R112): take left on 0 and right on 1, and at each leaf emit its symbol and return
to the root. -/
def replay (nodes : List Node) (root : Nat) : Nat → Bits → List Sym
  | _, [] => []
  | i, b :: rest =>
    if (nodeAt nodes (childOn (nodeAt nodes i) b)).leaf then
      (nodeAt nodes (childOn (nodeAt nodes i) b)).sym :: replay nodes root root rest
    else replay nodes root (childOn (nodeAt nodes i) b) rest

/-- The bits of a byte, most significant first (R52). -/
def byteBits (b : Byte) : Bits := [b.getLsbD 7, b.getLsbD 6, b.getLsbD 5, b.getLsbD 4, b.getLsbD 3, b.getLsbD 2,
  b.getLsbD 1, b.getLsbD 0]

/-- The bits of OUT[1..] read most significant first (R111, R112). -/
def payloadBits (s : State) : Bits := (s.out.bytes.drop 1).flatMap byteBits

/-- The encoded bit sequence OUT carries: the first BIT_LEN bits after the header byte (R111, R112). -/
def encodedBits (s : State) : Bits := (payloadBits s).take s.out.bitLen.toNat

end Sys2Proof.Machine
end

