-- ==== Sys2Proof/Certificates/Slice0/Obligations.lean ====
section
/-! DEFINITION. The statements for the provers. -/

open Sys2Proof Sys2Proof.Machine

/-! ## Reset -/

/-- R142: the state after reset, of every implementation. -/
def Obligations.ResetStateIsAllZero : Prop :=
  ∀ (c : Config) (e : Env), ∃ s, State.resetIn c e = s ∧
    s.phase = .idle ∧ s.cfg = c ∧ s.queue = [] ∧ s.irqLine = false ∧
    (∀ r ∈ [Reg.status, .irqStatus, .irqEnable, .lastCmd, .errInfo, .textLen, .nsym, .nnodes, .root, .bitLen, .pad,
      .outLen, .result0, .result1, .result2], regValue s r = 0) ∧
    (∀ k : Fin 8, regValue s (.codeW k) = 0) ∧
    s.freq.counts = List.replicate c.nsymMax 0 ∧ s.codes.entries = List.replicate c.nsymMax CodeEntry.none ∧
    (∀ sym, freqAt s sym = 0) ∧ (∀ sym, (codeAt s.codes.entries sym).valid = false)

/-- R141, R143: a reset in any state, BUSY or not, leaves exactly the reset state; a command in progress has no effect
and no report. -/
def Obligations.ResetFromAnyState : Prop :=
  ∀ (s : State) (es : List Event), s.env.pending = .reset :: es →
    step s = .next (State.resetIn s.cfg { s.env with pending := es })

/-! ## The host's accesses -/

/-- R78, R87, R21, R27, R28, R32, R77: what a 32-bit host write at each offset does, IDLE and BUSY. -/
def Obligations.HostWriteEffects : Prop :=
  ∀ (s : State) (off : Nat) (v : Word) (es : List Event), off < 256 → off % 4 = 0 →
    s.env.pending = .hostWrite (s.cfg.base + off) 4 v :: es →
    ∃ u, u = { s with env := { s.env with pending := es } } ∧
    step s = .next (
      if off = 0x10 then
        match s.phase with
        | .idle => { u with phase := .busy v, report := { u.report with lastCmd := v, err := false, errCode := 0 } }
        | .busy _ => { u with irq := { u.irq with status := u.irq.status ||| 0b100 } }
      else if 0x50 ≤ off ∧ off < 0x70 then
        match s.phase with
        | .idle => { u with data := { u.data with codeW := u.data.codeW.setIfInBounds ((off - 0x50) / 4) v } }
        | .busy _ => { u with irq := { u.irq with status := u.irq.status ||| 0b100 } }
      else if off = 0x18 then { u with irq := { u.irq with status := u.irq.status &&& ~~~ (v.setWidth 3) } }
      else if off = 0x1C then { u with irq := { u.irq with enable := v.setWidth 3 } }
      else u)

/-- R20 to R32: while IDLE a read returns the value the register's rule gives, at the offset R20 gives it, and nothing
of the block changes. -/
def Obligations.IdleReadReturnsRegister : Prop :=
  ∀ (s : State) (off : Nat) (es : List Event), s.phase = .idle → s.cfg.wf → off < 256 → off % 4 = 0 →
    s.env.pending = .hostRead (s.cfg.base + off) 4 :: es →
    ∃ v, step s = .next { s with env := { s.env with pending := es, readData := v } } ∧
      (∀ p ∈ [(0x00, 0x48554631), (0x04, s.cfg.symBits + 256 * s.cfg.codeLenMax), (0x08, s.cfg.textMax),
        (0x0C, s.cfg.outMax), (0x10, 0),
        (0x14, 2 * s.report.err.toNat + 16 * s.report.errCode.toNat + 0x100 * s.freq.valid.toNat
          + 0x200 * s.tree.valid.toNat + 0x400 * s.codes.valid.toNat + 0x800 * s.out.valid.toNat),
        (0x18, s.irq.status.toNat), (0x1C, s.irq.enable.toNat), (0x20, s.report.lastCmd.toNat),
        (0x24, s.report.errInfo.toNat), (0x28, s.text.len.toNat), (0x2C, s.freq.nsym.toNat),
        (0x30, s.tree.nnodes.toNat), (0x34, s.tree.root.toNat), (0x38, s.out.bitLen.toNat), (0x3C, s.out.pad.toNat),
        (0x40, s.out.len.toNat), (0x44, s.data.result0.toNat), (0x48, s.data.result1.toNat),
        (0x4C, s.data.result2.toNat)], off = p.1 → v.toNat = p.2) ∧
      (∀ k : Fin 8, off = 0x50 + 4 * k.val → v = s.data.codeW[k.val]) ∧ (0x70 ≤ off → v = 0)

/-- R147: what a read during BUSY returns; every other value is unspecified, and the block does not change.
The premise is the invariant's clause that LAST_CMD holds the word in progress. -/
def Obligations.BusyReadReturnsFixedBits : Prop :=
  ∀ (s : State) (w : Word) (off : Nat) (es : List Event), s.phase = .busy w → s.report.lastCmd = w → s.cfg.wf →
    off < 256 → off % 4 = 0 → s.env.pending = .hostRead (s.cfg.base + off) 4 :: es →
    ∃ v, step s = .next { s with env := { pending := es, readData := v, freeIndex := s.env.freeIndex + 1 } } ∧
      (∀ p ∈ [(0x00, 0x48554631), (0x04, s.cfg.symBits + 256 * s.cfg.codeLenMax), (0x08, s.cfg.textMax),
        (0x0C, s.cfg.outMax), (0x10, 0), (0x18, s.irq.status.toNat), (0x1C, s.irq.enable.toNat), (0x20, w.toNat)],
        off = p.1 → v.toNat = p.2) ∧
      (off = 0x14 → v.toNat % 256 = 1 ∧ v.toNat < 0x1000) ∧ (0x70 ≤ off → v = 0)

/-- R46: the interrupt output is the level of the enabled event bits. -/
def Obligations.IrqOutputLevel : Prop :=
  ∀ s : State, s.irqLine = true ↔
    ∃ k < 3, (regValue s .irqStatus).getLsbD k = true ∧ (regValue s .irqEnable).getLsbD k = true

/-- R50, R49: an access that is not 32 bits wide and word aligned has no step, and the model stops on one outside the
window (the second half is the model's own choice, assumption 6). -/
def Obligations.UndefinedAccessStops : Prop :=
  ∀ (s : State) (addr bytes : Nat) (v : Word) (es : List Event),
    (s.env.pending = .hostRead addr bytes :: es ∨ s.env.pending = .hostWrite addr bytes v :: es) →
    (s.cfg.base ≤ addr → addr < s.cfg.base + 256 → (bytes ≠ 4 ∨ (addr - s.cfg.base) % 4 ≠ 0) →
      step s = .refused .undefinedAccess) ∧
    (addr < s.cfg.base ∨ s.cfg.base + 256 ≤ addr → step s = .fault .outsideWindow)

/-! ## Steps -/

/-- 93_implementation_defined.md: "every defined state has a next step". -/
def Obligations.DefinedEventHasNextStep : Prop :=
  ∀ s : State, (∀ e es, s.env.pending = e :: es → e.defined s.cfg) → ∃ t, step s = .next t

/-- R152: a busy command completes, or a reset ends it, after at most as many steps as there are events still to come,
plus one. -/
def Obligations.BusyCommandCompletes : Prop :=
  ∀ (s : State) (w : Word), s.phase = .busy w → (∀ e ∈ s.env.pending, e.defined s.cfg) →
    ∃ n t, n ≤ s.env.pending.length + 1 ∧ Host.Core.run Sys2Proof.core n s = .next t ∧ t.phase = .idle

/-- R79, R81: the completion step of a word that decodes runs the decoded command on the state before it. -/
def Obligations.StepRunsDecodedCommand : Prop :=
  ∀ (s : State) (w : Word) (i : Instr), s.phase = .busy w → decode w = .ok i →
    (∀ es, s.env.pending = .sequencer :: es → step s = exec i { s with env := { s.env with pending := es } }) ∧
    (s.env.pending = [] → step s = exec i s)

/-- R69, R71, R72: a word with an undefined opcode completes with ILLEGAL_COMMAND reason 1, and one whose format's
reserved bits are not all zero with reason 2; nothing but PHASE and the report changes. -/
def Obligations.StepRejectsIllegalWord : Prop :=
  ∀ (s u : State) (w : Word), SequencerTurn s u → s.phase = .busy w → ∃ t,
    ((0x09 ≤ w.toNat % 256 ∧ w.toNat % 256 ≤ 0x0F) ∨ 0x15 ≤ w.toNat % 256 →
      step s = .next t ∧ Failed 4 1 u t) ∧
    (w.toNat % 256 ∈ [0x00, 0x01, 0x03, 0x04, 0x05, 0x07, 0x08] → w.toNat / 256 ≠ 0 →
      step s = .next t ∧ Failed 4 2 u t) ∧
    (w.toNat % 256 ∈ [0x02, 0x11, 0x13] → w.toNat / 65536 ≠ 0 → step s = .next t ∧ Failed 4 2 u t) ∧
    (w.toNat % 256 = 0x06 → w.toNat / 2 ^ 24 ≠ 0 → step s = .next t ∧ Failed 4 2 u t)

/-- R66, R67, R72: a SYM at or above NSYM_MAX fails with reason 2, whatever LEN is; a LEN outside 1..CODE_LEN_MAX with
reason 3. -/
def Obligations.IllegalOperandsFail : Prop :=
  ∀ (s : State) (sym : Sym) (len : BitVec 8),
    (s.cfg.nsymMax ≤ sym.toNat →
      FailsWith (.textPush sym) s 4 2 ∧ FailsWith (.freqRead sym) s 4 2 ∧ FailsWith (.codeRead sym) s 4 2 ∧
        FailsWith (.codeLoad sym len) s 4 2) ∧
    (sym.toNat < s.cfg.nsymMax → len.toNat = 0 ∨ s.cfg.codeLenMax < len.toNat → FailsWith (.codeLoad sym len) s 4 3)

/-- R150: a completion and a CMD write that fall together happen in either order: the write is dropped with OVERRUN, or
it is issued after the completion. -/
def Obligations.CompletionAndCommandWriteRace : Prop :=
  ∀ (s : State) (w v : Word) (es : List Event), s.phase = .busy w →
    (s.env.pending = .hostWrite (s.cfg.base + 0x10) 4 v :: .sequencer :: es →
      ∃ t, Host.Core.run Sys2Proof.core 2 s = .next t ∧ t.phase = .idle ∧ t.report.lastCmd = s.report.lastCmd ∧
        t.irq.status.getLsbD 2 = true) ∧
    (s.env.pending = .sequencer :: .hostWrite (s.cfg.base + 0x10) 4 v :: es →
      ∃ t, Host.Core.run Sys2Proof.core 2 s = .next t ∧ t.phase = .busy v ∧ t.report.lastCmd = v ∧
        t.irq.status.getLsbD 2 = s.irq.status.getLsbD 2)

/-! ## Encoding -/

/-- R63 to R70: decoding the word of any command gives the command back, with every operand. -/
def Obligations.DecodeOfEncode : Prop := ∀ i : Instr, decode (encode i) = .ok i

/-- R69: no bit of a word that decodes is ignored: the command's own word is the word. -/
def Obligations.EncodeOfDecode : Prop := ∀ (w : Word) (i : Instr), decode w = .ok i → encode i = w

/-- R76: each command word is the OR of its fields at their positions. -/
def Obligations.EncodingFormula : Prop :=
  ∀ (sym : Sym) (len : BitVec 8) (index : Index),
    encode .nop = 0x00#32 ∧ encode .clear = 0x01#32 ∧ encode .freqCount = 0x03#32 ∧ encode .buildTree = 0x04#32 ∧
    encode .assignCodes = 0x05#32 ∧ encode .pack = 0x07#32 ∧ encode .compress = 0x08#32 ∧
    encode (.textPush sym) = 0x02#32 ||| sym.setWidth 32 <<< 8 ∧
    encode (.freqRead sym) = 0x11#32 ||| sym.setWidth 32 <<< 8 ∧
    encode (.codeRead sym) = 0x13#32 ||| sym.setWidth 32 <<< 8 ∧
    encode (.codeLoad sym len) = 0x06#32 ||| sym.setWidth 32 <<< 8 ||| len.setWidth 32 <<< 16 ∧
    encode (.textRead index) = 0x10#32 ||| index.setWidth 32 <<< 8 ∧
    encode (.nodeRead index) = 0x12#32 ||| index.setWidth 32 <<< 8 ∧
    encode (.outRead index) = 0x14#32 ||| index.setWidth 32 <<< 8

/-- R65, R70, R76: words written out from the spec's encodings. -/
def Obligations.SampleWordsDecode : Prop :=
  decode 0x00000001 = .ok .clear ∧ decode 0x00006102 = .ok (.textPush 0x61) ∧
  decode 0x00036206 = .ok (.codeLoad 0x62 3) ∧ decode 0x00000008 = .ok .compress ∧
  decode 0x00000412 = .ok (.nodeRead 4) ∧ decode 0x00007213 = .ok (.codeRead 0x72) ∧
  decode 0xFFFFFF14 = .ok (.outRead 0xFFFFFF) ∧ decode 0x00000009 = .error .undefinedOpcode ∧
  decode 0x80000000 = .error .reservedBit ∧ decode 0x01036106 = .error .reservedBit

/-! ## Control commands -/

/-- R84: NOP completes with no effect but the report. -/
def Obligations.NopChangesOnlyReport : Prop :=
  ∀ s : State, ∃ t, exec .nop s = .next t ∧ Succeeded s t ∧ SameButReport s t

/-- R85: CLEAR empties the text and every product, and keeps RESULT and CODE_W. -/
def Obligations.ClearEmptiesRun : Prop :=
  ∀ s : State, ∃ t, exec .clear s = .next t ∧ Succeeded s t ∧
    t.input = [] ∧ t.text.len = 0 ∧
    (∀ sym, freqAt t sym = 0) ∧ t.freq.counts.length = s.cfg.nsymMax ∧ t.freq.nsym = 0 ∧
    t.tree.nnodes = 0 ∧ t.tree.root = 0 ∧
    (∀ sym, codeAt t.codes.entries sym = CodeEntry.none) ∧ t.codes.entries.length = s.cfg.nsymMax ∧
    t.out.len = 0 ∧ t.out.bitLen = 0 ∧ t.out.pad = 0 ∧ regValue t .status = 0 ∧
    t.data = s.data ∧ t.queue = s.queue

/-- R145: CLEAR against reset, from any IDLE state (QUEUE is empty then, R36). -/
def Obligations.ClearComparedWithReset : Prop :=
  ∀ s : State, s.phase = .idle → s.queue = [] →
    exec .clear (issue (encode .clear) s) = .next { State.resetIn s.cfg s.env with
      irq := { status := s.irq.status ||| 0b001, enable := s.irq.enable }
      data := s.data
      report := { lastCmd := 0x00000001, err := false, errCode := 0, errInfo := 0 } }

/-! ## Text input and the Frequency Analyzer -/

/-- R88: TEXT_PUSH appends its symbol at index TEXT_LEN and invalidates every product. -/
def Obligations.TextPushAppends : Prop :=
  ∀ (s : State) (sym : Sym), s.cfg.wf → Memory.wf s → sym.toNat < s.cfg.nsymMax → s.text.len.toNat ≠ s.cfg.textMax →
    ∃ t, exec (.textPush sym) s = .next t ∧ Succeeded s t ∧
      t.input = s.input ++ [sym] ∧ t.text.len.toNat = s.text.len.toNat + 1 ∧ textAt t s.text.len.toNat = sym ∧
      (∀ i < s.text.len.toNat, textAt t i = textAt s i) ∧
      t.freq = .empty s.cfg ∧ t.tree = .empty ∧ t.codes = .empty s.cfg ∧ t.out = .empty ∧ regValue t .status = 0 ∧
      t.data = s.data ∧ t.queue = s.queue

/-- R130: TEXT_PUSH into a full buffer, and no other command, is a CAPACITY_ERROR. -/
def Obligations.TextPushIntoFullBuffer : Prop :=
  ∀ s : State,
    (∀ sym : Sym, sym.toNat < s.cfg.nsymMax → s.text.len.toNat = s.cfg.textMax →
      FailsWith (.textPush sym) s 6 (BitVec.ofNat 32 s.cfg.textMax)) ∧
    (∀ i t, exec i s = .next t → t.report.errCode = 6 →
      ∃ sym, i = .textPush sym ∧ sym.toNat < s.cfg.nsymMax ∧ s.text.len.toNat = s.cfg.textMax)

/-- R89: FREQ_COUNT counts every symbol of the text. -/
def Obligations.FreqCountCountsSymbols : Prop :=
  ∀ s : State, s.cfg.wf → Memory.wf s →
    ∃ t, exec .freqCount s = .next t ∧ Succeeded s t ∧
      (∀ sym : Sym, sym.toNat < s.cfg.nsymMax → (freqAt t sym).toNat = s.input.count sym) ∧
      t.freq.counts.length = s.cfg.nsymMax ∧
      t.freq.nsym.toNat = (List.range s.cfg.nsymMax).countP (fun v => BitVec.ofNat 8 v ∈ s.input) ∧
      t.freq.valid = true ∧ t.tree = .empty ∧ t.codes = .empty s.cfg ∧ t.out = .empty ∧
      t.text = s.text ∧ t.data = s.data ∧ t.queue = s.queue

/-- R90: the properties of the FREQ table; it depends only on the multiset of symbols. -/
def Obligations.FreqTableProperties : Prop :=
  ∀ s s' : State, s.cfg.wf → Memory.wf s → Memory.wf s' → s'.cfg = s.cfg → s.input.Perm s'.input →
    ∃ t t', exec .freqCount s = .next t ∧ exec .freqCount s' = .next t' ∧
      (t.freq.counts.map BitVec.toNat).sum = s.text.len.toNat ∧
      (∀ sym : Sym, freqAt t sym ≠ 0 ↔ sym ∈ s.input) ∧
      t.freq.nsym.toNat = s.input.dedup.length ∧ t'.freq = t.freq

/-! ## The Tree Builder -/

/-- R94: BUILD_TREE succeeds on a table with a symbol, empties QUEUE, discards codes and output, and touches
nothing else. -/
def Obligations.BuildTreeCompletes : Prop :=
  ∀ s : State, FreqReady s → ∃ t, exec .buildTree s = .next t ∧ Succeeded s t ∧
    t.tree.valid = true ∧ t.tree.nodes.length = t.tree.nnodes.toNat ∧ t.queue = [] ∧
    t.codes = .empty s.cfg ∧ t.out = .empty ∧ t.freq = s.freq ∧ t.text = s.text ∧ t.data = s.data

/-- R95 (a), (b): NNODES = 2N - 1 and ROOT = NNODES - 1; the leaves come first, in ascending symbol order, one for each
counted symbol; the rest are internal. -/
def Obligations.BuiltTreeCountsAndLeaves : Prop :=
  ∀ s : State, FreqReady s → ∃ t, exec .buildTree s = .next t ∧
    t.tree.nnodes.toNat = 2 * s.freq.nsym.toNat - 1 ∧ t.tree.root.toNat = t.tree.nnodes.toNat - 1 ∧
    (∀ i < s.freq.nsym.toNat, (nodeAt t.tree.nodes i).leaf = true ∧
      (nodeAt t.tree.nodes i).freq = freqAt s (nodeAt t.tree.nodes i).sym ∧
      (nodeAt t.tree.nodes i).freq ≠ 0 ∧ (nodeAt t.tree.nodes i).left = 0 ∧ (nodeAt t.tree.nodes i).right = 0) ∧
    (∀ i j, i < j → j < s.freq.nsym.toNat →
      (nodeAt t.tree.nodes i).sym.toNat < (nodeAt t.tree.nodes j).sym.toNat) ∧
    (∀ sym, freqAt s sym ≠ 0 → ∃ i < s.freq.nsym.toNat, (nodeAt t.tree.nodes i).sym = sym) ∧
    (∀ i, s.freq.nsym.toNat ≤ i → i < t.tree.nnodes.toNat →
      (nodeAt t.tree.nodes i).leaf = false ∧ (nodeAt t.tree.nodes i).sym = 0)

/-- R92, R93, R94: every internal node merges the two waiting nodes with the least keys, the least one left. -/
def Obligations.BuiltTreeIsGreedyMerge : Prop :=
  ∀ s : State, FreqReady s → ∃ t, exec .buildTree s = .next t ∧
    ∀ j, s.freq.nsym.toNat ≤ j → j < t.tree.nnodes.toNat → GreedyAt t.tree.nodes j

/-- R95 (c), (f): the root weighs the whole text, and the internal nodes' frequencies do not decrease. -/
def Obligations.BuiltTreeWeights : Prop :=
  ∀ s : State, FreqReady s → ∃ t, exec .buildTree s = .next t ∧
    (nodeAt t.tree.nodes t.tree.root.toNat).freq.toNat = (s.freq.counts.map BitVec.toNat).sum ∧
    (∀ i, s.freq.nsym.toNat ≤ i → i < t.tree.nnodes.toNat →
      (nodeAt t.tree.nodes i).freq.toNat =
        (nodeAt t.tree.nodes (nodeAt t.tree.nodes i).left.toNat).freq.toNat +
          (nodeAt t.tree.nodes (nodeAt t.tree.nodes i).right.toNat).freq.toNat) ∧
    (∀ i j, s.freq.nsym.toNat ≤ i → i < j → j < t.tree.nnodes.toNat →
      (nodeAt t.tree.nodes i).freq.toNat ≤ (nodeAt t.tree.nodes j).freq.toNat)

/-- R95 (d), (e): children come before their parent, every node but ROOT has exactly one parent, every node is reached
from ROOT, and no leaf lies deeper than N - 1. -/
def Obligations.BuiltTreeStructure : Prop :=
  ∀ s : State, FreqReady s → ∃ t, exec .buildTree s = .next t ∧
    (∀ i, s.freq.nsym.toNat ≤ i → i < t.tree.nnodes.toNat →
      (nodeAt t.tree.nodes i).left.toNat < i ∧ (nodeAt t.tree.nodes i).right.toNat < i ∧
        (nodeAt t.tree.nodes i).left ≠ (nodeAt t.tree.nodes i).right) ∧
    (∀ i, i < t.tree.nnodes.toNat → i ≠ t.tree.root.toNat →
      ∃! j, j < t.tree.nnodes.toNat ∧ (nodeAt t.tree.nodes j).leaf = false ∧
        ((nodeAt t.tree.nodes j).left.toNat = i ∨ (nodeAt t.tree.nodes j).right.toNat = i)) ∧
    (∀ i, i < t.tree.nnodes.toNat → ∃ p, PathTo t.tree.nodes t.tree.root.toNat p i) ∧
    (∀ p i, PathTo t.tree.nodes t.tree.root.toNat p i → (nodeAt t.tree.nodes i).leaf = true →
      p.length ≤ s.freq.nsym.toNat - 1)

/-- R129: a stage command whose input product is not valid; no other command has a precondition. -/
def Obligations.SequenceErrors : Prop :=
  ∀ s : State,
    (s.freq.valid = false → FailsWith .buildTree s 5 0x00000100) ∧
    (s.tree.valid = false → FailsWith .assignCodes s 5 0x00000200) ∧
    (s.codes.valid = false → FailsWith .pack s 5 0x00000400) ∧
    (∀ i t, exec i s = .next t → t.report.errCode = 5 →
      i = .buildTree ∧ s.freq.valid = false ∨ i = .assignCodes ∧ s.tree.valid = false ∨
        i = .pack ∧ s.codes.valid = false)

/-- R125, R97: the two cases of INVALID_INPUT; with a text in its form (R33) there is no third. -/
def Obligations.InvalidInputCases : Prop :=
  ∀ s : State,
    (s.freq.valid = true → s.freq.nsym = 0 → FailsWith .buildTree s 1 0) ∧
    (s.text.len = 0 → FailsWith .compress s 1 0) ∧
    (s.cfg.wf → Memory.wf s → ∀ i t, exec i s = .next t → t.report.errCode = 1 →
      i = .buildTree ∧ s.freq.valid = true ∧ s.freq.nsym = 0 ∨ i = .compress ∧ s.text.len = 0)

/-! ## The Code Assigner -/

/-- R96, R102: with exactly one distinct symbol the tree is its one leaf, and its code is "0". -/
def Obligations.SingleSymbolTreeAndCode : Prop :=
  ∀ (s : State) (x : Sym), FreqReady s → s.freq.nsym = 1 → freqAt s x ≠ 0 →
    ∃ t u, exec .buildTree s = .next t ∧ exec .assignCodes t = .next u ∧
      t.tree.nodes = [{ freq := freqAt s x, leaf := true, sym := x, left := 0, right := 0 }] ∧
      t.tree.root = 0 ∧ t.tree.nnodes = 1 ∧ t.tree.valid = true ∧ t.report.err = false ∧
      codeAt u.codes.entries x = { valid := true, len := 1, bits := 0 } ∧ u.report.err = false

/-- R100: ASSIGN_CODES succeeds on any valid tree, sets CODES_VALID and discards the output. -/
def Obligations.AssignCodesCompletes : Prop :=
  ∀ s : State, s.tree.valid = true → ∃ t, exec .assignCodes s = .next t ∧ Succeeded s t ∧
    t.codes.valid = true ∧ t.codes.entries.length = s.cfg.nsymMax ∧ t.out = .empty ∧
    t.text = s.text ∧ t.freq = s.freq ∧ t.tree = s.tree ∧ t.queue = s.queue ∧ t.data = s.data

/-- R99, R100: with two symbols or more, the code of every leaf's symbol is the leaf's path; a symbol with no count
has no code. -/
def Obligations.AssignedCodesArePaths : Prop :=
  ∀ s : State, FreqReady s → 2 ≤ s.freq.nsym.toNat →
    ∃ t u, exec .buildTree s = .next t ∧ exec .assignCodes t = .next u ∧
      (∀ p i, PathTo t.tree.nodes t.tree.root.toNat p i → (nodeAt t.tree.nodes i).leaf = true →
        (codeAt u.codes.entries (nodeAt t.tree.nodes i).sym).valid = true ∧
        codestr (codeAt u.codes.entries (nodeAt t.tree.nodes i).sym) = p ∧
        (codeAt u.codes.entries (nodeAt t.tree.nodes i).sym).bits.toNat = valueOf p) ∧
      (∀ sym, freqAt s sym = 0 → codeAt u.codes.entries sym = CodeEntry.none)

/-- R101: the assigned table has one code for each distinct symbol, of legal length, prefix-free and complete. -/
def Obligations.AssignedTableIsPrefixCode : Prop :=
  ∀ s : State, FreqReady s →
    ∃ t u, exec .buildTree s = .next t ∧ exec .assignCodes t = .next u ∧
      (∀ sym, (codeAt u.codes.entries sym).valid = true ↔ freqAt s sym ≠ 0) ∧
      u.codes.entries.countP (·.valid) = s.freq.nsym.toNat ∧
      (∀ sym, freqAt s sym ≠ 0 → 1 ≤ (codeAt u.codes.entries sym).len.toNat ∧
        (codeAt u.codes.entries sym).len.toNat ≤ max 1 (s.freq.nsym.toNat - 1) ∧
        (codeAt u.codes.entries sym).len.toNat ≤ s.cfg.codeLenMax) ∧
      s.freq.nsym.toNat - 1 ≤ s.cfg.codeLenMax ∧
      (∀ x y, freqAt s x ≠ 0 → freqAt s y ≠ 0 →
        codestr (codeAt u.codes.entries x) <+: codestr (codeAt u.codes.entries y) → x = y) ∧
      (2 ≤ s.freq.nsym.toNat →
        ((u.codes.entries.filter (·.valid)).map fun e => 2 ^ (s.cfg.codeLenMax - e.len.toNat)).sum
          = 2 ^ s.cfg.codeLenMax)

/-- R103, R32: CODE_LOAD writes one record from CW, the sum over k of CODE_Wk * 2^(32k), and leaves the others. -/
def Obligations.CodeLoadWritesEntry : Prop :=
  ∀ (s : State) (sym : Sym) (len : BitVec 8), s.codes.entries.length = s.cfg.nsymMax →
    sym.toNat < s.cfg.nsymMax → 1 ≤ len.toNat → len.toNat ≤ s.cfg.codeLenMax →
    ∃ t, exec (.codeLoad sym len) s = .next t ∧ Succeeded s t ∧
      (codeAt t.codes.entries sym).valid = true ∧ (codeAt t.codes.entries sym).len = len ∧
      (codeAt t.codes.entries sym).bits.toNat =
        (s.data.codeW[0].toNat + s.data.codeW[1].toNat * 2 ^ 32 + s.data.codeW[2].toNat * 2 ^ 64 +
          s.data.codeW[3].toNat * 2 ^ 96 + s.data.codeW[4].toNat * 2 ^ 128 + s.data.codeW[5].toNat * 2 ^ 160 +
          s.data.codeW[6].toNat * 2 ^ 192 + s.data.codeW[7].toNat * 2 ^ 224) % 2 ^ len.toNat ∧
      (∀ y, y ≠ sym → codeAt t.codes.entries y = codeAt s.codes.entries y) ∧
      t.codes.entries.length = s.cfg.nsymMax ∧ t.codes.valid = true ∧ t.out = .empty ∧
      t.text = s.text ∧ t.freq = s.freq ∧ t.tree = s.tree ∧ t.queue = s.queue ∧ t.data = s.data

/-- R54: a loaded code is read back with the bits of CW at positions LEN and above zero. -/
def Obligations.CodeLoadThenCodeRead : Prop :=
  ∀ (s : State) (sym : Sym) (len : BitVec 8), s.codes.entries.length = s.cfg.nsymMax →
    sym.toNat < s.cfg.nsymMax → 1 ≤ len.toNat → len.toNat ≤ s.cfg.codeLenMax →
    ∃ t u, exec (.codeLoad sym len) s = .next t ∧ exec (.codeRead sym) t = .next u ∧
      u.report.err = false ∧ u.data.result0.toNat = 2 ^ 31 + len.toNat ∧
      ∀ j < 256, u.data.cw.getLsbD j = (decide (j < len.toNat) && s.data.cw.getLsbD j)

/-! ## The Bit Packer -/

/-- R105 to R108: PACK of a text whose symbols all have codes: the header is the padding count, the payload is the
codes in input order, then the padding zeros. -/
def Obligations.PackEncodesText : Prop :=
  ∀ s : State, s.cfg.wf → Memory.wf s → s.codes.valid = true →
    (∀ x ∈ s.input, (codeAt s.codes.entries x).valid = true) →
    ∃ t, exec .pack s = .next t ∧ Succeeded s t ∧ t.out.valid = true ∧
      encodedBits t = s.input.flatMap (fun x => codestr (codeAt s.codes.entries x)) ∧
      payloadBits t = encodedBits t ++ List.replicate t.out.pad.toNat false ∧
      (t.out.bytes.head?.map BitVec.toNat) = some t.out.pad.toNat ∧
      t.out.pad.toNat = 8 - t.out.bitLen.toNat % 8 ∧ t.out.bitLen.toNat = (encodedBits t).length ∧
      t.out.bytes.length = t.out.len.toNat ∧
      t.text = s.text ∧ t.freq = s.freq ∧ t.tree = s.tree ∧ t.queue = s.queue ∧ t.codes = s.codes ∧ t.data = s.data

/-- R109: the length laws of PACK. The last one is stated for any table, as long as FREQ counts the text. -/
def Obligations.PackLengthLaws : Prop :=
  ∀ s : State, s.cfg.wf → Memory.wf s → s.codes.valid = true →
    (∀ x ∈ s.input, (codeAt s.codes.entries x).valid = true) →
    ∃ t, exec .pack s = .next t ∧
      t.out.len.toNat = t.out.bitLen.toNat / 8 + 2 ∧
      8 * (t.out.len.toNat - 1) = t.out.bitLen.toNat + t.out.pad.toNat ∧
      1 ≤ t.out.pad.toNat ∧ t.out.pad.toNat ≤ 8 ∧ (outAt t 0).toNat = t.out.pad.toNat ∧
      (payloadBits t).drop (8 * (t.out.len.toNat - 1) - t.out.pad.toNat) = List.replicate t.out.pad.toNat false ∧
      ((∀ v < s.cfg.nsymMax, (freqAt s (BitVec.ofNat 8 v)).toNat = s.input.count (BitVec.ofNat 8 v)) →
        t.out.bitLen.toNat = ((List.range s.cfg.nsymMax).map fun v =>
          (freqAt s (BitVec.ofNat 8 v)).toNat * (codeAt s.codes.entries (BitVec.ofNat 8 v)).len.toNat).sum)

/-- R126: PACK reports the first symbol of the text that has no code. -/
def Obligations.PackReportsFirstMissingCode : Prop :=
  ∀ (s : State) (k : Nat) (x : Sym), s.cfg.wf → Memory.wf s → s.codes.valid = true →
    s.input[k]? = some x → (codeAt s.codes.entries x).valid = false →
    (∀ m < k, ∀ y, s.input[m]? = some y → (codeAt s.codes.entries y).valid = true) →
    ∃ info : Word, FailsWith .pack s 2 info ∧ info.toNat / 2 ^ 24 = x.toNat ∧ info.toNat % 2 ^ 24 = k

/-- R124, R127: no command ever reports STRUCTURAL_ERROR or a reserved code, and a code of 0 is success. -/
def Obligations.NeverStructuralOrReservedError : Prop :=
  ∀ (i : Instr) (s t : State), exec i s = .next t →
    t.report.errCode ≠ 3 ∧ t.report.errCode.toNat ≤ 7 ∧ (t.report.errCode = 0 ↔ t.report.err = false)

/-! ## COMPRESS -/

/-- R113, R114: COMPRESS of any non-empty text succeeds with every product valid. -/
def Obligations.CompressSucceeds : Prop :=
  ∀ s : State, s.cfg.wf → Memory.wf s → s.text.len ≠ 0 →
    ∃ t, exec .compress s = .next t ∧ Succeeded s t ∧ regValue t .status = 0x00000F00 ∧
      t.queue = [] ∧ t.text = s.text ∧ t.data = s.data

/-- R114: COMPRESS ends with the same products, registers and memories as the four stages one after another. -/
def Obligations.CompressEqualsFourStages : Prop :=
  ∀ s : State, s.cfg.wf → Memory.wf s → s.text.len ≠ 0 →
    ∃ t a b c d, exec .compress s = .next t ∧ exec .freqCount s = .next a ∧ exec .buildTree a = .next b ∧
      exec .assignCodes b = .next c ∧ exec .pack c = .next d ∧
      a.report.err = false ∧ b.report.err = false ∧ c.report.err = false ∧ d.report.err = false ∧
      t.text = d.text ∧ t.freq = d.freq ∧ t.tree = d.tree ∧ t.queue = d.queue ∧ t.codes = d.codes ∧ t.out = d.out ∧
      t.data = d.data

/-- R112: replaying the encoded bits against the tree gives the text back; for one symbol every bit is 0 and each
stands for one symbol. -/
def Obligations.CompressedBitsReplayToText : Prop :=
  ∀ s : State, s.cfg.wf → Memory.wf s → s.text.len ≠ 0 →
    ∃ t, exec .compress s = .next t ∧
      (2 ≤ t.freq.nsym.toNat →
        replay t.tree.nodes t.tree.root.toNat t.tree.root.toNat (encodedBits t) = s.input) ∧
      (t.freq.nsym.toNat = 1 → encodedBits t = List.replicate s.text.len.toNat false)

/-- R86: after CLEAR, a run's products depend on the text pushed and on nothing that came before. -/
def Obligations.ClearedRunsAreIsolated : Prop :=
  ∀ (s s' : State) (text : List Sym), s'.cfg = s.cfg →
    ∃ t t', runCommands (.clear :: text.map .textPush ++ [.compress]) s = some t ∧
      runCommands (.clear :: text.map .textPush ++ [.compress]) s' = some t' ∧
      t.report.err = t'.report.err ∧ t.report.errCode = t'.report.errCode ∧
      t.text = t'.text ∧ t.freq = t'.freq ∧ t.tree = t'.tree ∧ t.codes = t'.codes ∧ t.out = t'.out

/-! ## Readback -/

/-- R116: TEXT_READ of an index below TEXT_LEN. -/
def Obligations.TextReadReturnsSymbol : Prop :=
  ∀ (s : State) (index : Index), index.toNat < s.text.len.toNat →
    ∃ t, exec (.textRead index) s = .next t ∧ Succeeded s t ∧
      t.data.result0.toNat = (textAt s index.toNat).toNat ∧ t.data.result1 = 0 ∧ t.data.result2 = 0 ∧
      t.data.codeW = s.data.codeW ∧ SameButReport { s with data := t.data } t

/-- R117: FREQ_READ of a legal symbol. -/
def Obligations.FreqReadReturnsCount : Prop :=
  ∀ (s : State) (sym : Sym), sym.toNat < s.cfg.nsymMax →
    ∃ t, exec (.freqRead sym) s = .next t ∧ Succeeded s t ∧
      t.data.result0 = freqAt s sym ∧ t.data.result1 = 0 ∧ t.data.result2 = 0 ∧
      t.data.codeW = s.data.codeW ∧ SameButReport { s with data := t.data } t

/-- R118: NODE_READ of an index below NNODES. -/
def Obligations.NodeReadReturnsNode : Prop :=
  ∀ (s : State) (index : Index), index.toNat < s.tree.nnodes.toNat →
    ∃ t n, exec (.nodeRead index) s = .next t ∧ n = nodeAt s.tree.nodes index.toNat ∧ Succeeded s t ∧
      t.data.result0 = n.freq ∧ t.data.result1.toNat = 2 ^ 31 * n.leaf.toNat + n.sym.toNat ∧
      t.data.result2.toNat = 2 ^ 16 * n.right.toNat + n.left.toNat ∧
      t.data.codeW = s.data.codeW ∧ SameButReport { s with data := t.data } t

/-- R119: CODE_READ of a legal symbol puts the record into RESULT0 and CW. -/
def Obligations.CodeReadReturnsCode : Prop :=
  ∀ (s : State) (sym : Sym), sym.toNat < s.cfg.nsymMax →
    ∃ t e, exec (.codeRead sym) s = .next t ∧ e = codeAt s.codes.entries sym ∧ Succeeded s t ∧
      t.data.result0.toNat = 2 ^ 31 * e.valid.toNat + e.len.toNat ∧ t.data.result1 = 0 ∧ t.data.result2 = 0 ∧
      (∀ k : Fin 8, t.data.codeW[k.val].toNat = e.bits.toNat / 2 ^ (32 * k.val) % 2 ^ 32) ∧
      SameButReport { s with data := t.data } t

/-- R120: OUT_READ of an index below OUT_LEN. -/
def Obligations.OutReadReturnsByte : Prop :=
  ∀ (s : State) (index : Index), index.toNat < s.out.len.toNat →
    ∃ t, exec (.outRead index) s = .next t ∧ Succeeded s t ∧
      t.data.result0.toNat = (outAt s index.toNat).toNat ∧ t.data.result1 = 0 ∧ t.data.result2 = 0 ∧
      t.data.codeW = s.data.codeW ∧ SameButReport { s with data := t.data } t

/-- R131: an index at or above the memory's length. -/
def Obligations.RangeErrors : Prop :=
  ∀ (s : State) (index : Index), ∃ info : Word, info.toNat = index.toNat ∧
    (s.text.len.toNat ≤ index.toNat → FailsWith (.textRead index) s 7 info) ∧
    (s.tree.nnodes.toNat ≤ index.toNat → FailsWith (.nodeRead index) s 7 info) ∧
    (s.out.len.toNat ≤ index.toNat → FailsWith (.outRead index) s 7 info)

/-! ## Rules of the whole machine -/

/-- R80: every completion reports, whatever the word. -/
def Obligations.CompletionWritesReport : Prop :=
  ∀ (s u : State) (w : Word), SequencerTurn s u → s.phase = .busy w →
    ∃ t, step s = .next t ∧ t.phase = .idle ∧ t.report.lastCmd = s.report.lastCmd ∧ t.irq.enable = s.irq.enable ∧
      t.cfg = s.cfg ∧ t.env = u.env ∧
      ((t.report.err = false ∧ t.report.errCode = 0 ∧ t.report.errInfo = 0 ∧
          t.irq.status = s.irq.status ||| 0b001) ∨
        (t.report.err = true ∧ t.report.errCode ≠ 0 ∧ t.irq.status = s.irq.status ||| 0b011))

/-- R82: a failed command changes nothing but PHASE, ERR, ERRCODE, ERR_INFO, DONE and ERROR. -/
def Obligations.FailureIsAtomic : Prop :=
  ∀ (s u t : State) (w : Word), SequencerTurn s u → s.phase = .busy w → step s = .next t → t.report.err = true →
    ∃ code info, code ≠ 0 ∧ Failed code info u t

/-- R121: the data registers are written only by the successful completion of a read command, by the host's CODE_W
writes while IDLE, and by reset. -/
def Obligations.DataRegisterWritePolicy : Prop :=
  ∀ s t : State, step s = .next t →
    (t.data.result0 ≠ s.data.result0 ∨ t.data.result1 ≠ s.data.result1 ∨ t.data.result2 ≠ s.data.result2 →
      (∃ es, s.env.pending = .reset :: es) ∨
      ∃ u w i, SequencerTurn s u ∧ s.phase = .busy w ∧ t.phase = .idle ∧
        decode w = .ok i ∧ isReadCommand i = true ∧ t.report.err = false) ∧
    (t.data.codeW ≠ s.data.codeW →
      (∃ es, s.env.pending = .reset :: es) ∨
      (s.phase = .idle ∧ ∃ off v es, 0x50 ≤ off ∧ off < 0x70 ∧
        s.env.pending = .hostWrite (s.cfg.base + off) 4 v :: es) ∨
      ∃ u w sym, SequencerTurn s u ∧ s.phase = .busy w ∧ t.phase = .idle ∧
        decode w = .ok (.codeRead sym) ∧ t.report.err = false)

/-- R27: each event bit stays set until the host writes 1 to it or a reset occurs. -/
def Obligations.EventBitsAreSticky : Prop :=
  ∀ (s t : State) (k : Nat), step s = .next t → s.irq.status.getLsbD k = true →
    t.irq.status.getLsbD k = true ∨ (∃ es, s.env.pending = .reset :: es) ∨
      ∃ v es, s.env.pending = .hostWrite (s.cfg.base + 0x18) 4 v :: es ∧ v.getLsbD k = true

/-- R47: no step changes the parameters, so none changes ID, CFG, CFG_TEXT_MAX or CFG_OUT_MAX. -/
def Obligations.ParametersNeverChange : Prop :=
  ∀ s t : State, step s = .next t → t.cfg = s.cfg ∧
    ∀ r ∈ [Reg.id, .cfg, .cfgTextMax, .cfgOutMax], readValue t r = readValue s r

/-- The invariant holds after reset of every legal implementation. -/
def Obligations.ResetHasInv : Prop := ∀ (c : Config) (e : Env), c.wf → Inv (State.resetIn c e)

/-- Every step keeps the invariant: the memories' form, R39's matching of products, R37's records, R31's bounds, R29
and R124. -/
def Obligations.StepKeepsInv : Prop := ∀ s t : State, Inv s → step s = .next t → Inv t

/-- R45: the invariant gives every clause of R45. -/
def Obligations.InvGivesR45 : Prop := ∀ s : State, Inv s → R45 s

/-- R45 of every state a run of every implementation reaches from reset, whatever the events, while IDLE. -/
def Obligations.ReachableIdleStatesMeetR45 : Prop :=
  ∀ (c : Config) (e : Env) (n : Nat) (t : State), c.wf →
    Host.Core.run Sys2Proof.core n (State.resetIn c e) = .next t → t.phase = .idle → R45 t
end

