-- ==== Sys2Proof/Laws/Queue.lean ====
section
/-! SUPPORT. The priority queue (R92, R93), one merge and the merge loop (R94), and the leaves of step 1. -/

namespace Sys2Proof.Machine

/-! ## NODE -/

theorem nodeAt_eq {nodes : List Node} {i : Nat} (h : i < nodes.length) : nodeAt nodes i = nodes[i] := by
  simp [nodeAt, h]

theorem nodeAt_append {nodes : List Node} {i : Nat} (more : List Node) (h : i < nodes.length) :
    nodeAt (nodes ++ more) i = nodeAt nodes i := by
  simp [nodeAt, List.getElem?_append, h]

theorem nodeAt_append_self (nodes : List Node) (n : Node) : nodeAt (nodes ++ [n]) nodes.length = n := by
  simp [nodeAt]

/-! ## The priority queue (R92, R93) -/

/-- The key of R93, compared lexicographically. -/
theorem keyLt_iff (nodes : List Node) (i j : Nat) : keyLt nodes i j = true ↔
    (nodeAt nodes i).freq.toNat < (nodeAt nodes j).freq.toNat ∨
      (nodeAt nodes i).freq.toNat = (nodeAt nodes j).freq.toNat ∧ i < j := by
  simp [keyLt]

theorem leastFrom_mem (nodes : List Node) (m : Nat) (q : List Nat) : leastFrom nodes m q ∈ m :: q := by
  induction q generalizing m with
  | nil => simp [leastFrom]
  | cons i rest ih =>
    have := ih (if keyLt nodes i m then i else m)
    simp only [leastFrom, List.mem_cons] at *
    by_cases hk : keyLt nodes i m = true
    · simp only [if_pos hk] at *; tauto
    · simp only [if_neg hk] at *; tauto

theorem leastFrom_le (nodes : List Node) (m : Nat) (q : List Nat) :
    ∀ i ∈ m :: q, ¬ keyLt nodes i (leastFrom nodes m q) = true := by
  induction q generalizing m with
  | nil => simp [leastFrom, keyLt_iff]
  | cons j rest ih =>
    intro i hi
    have h := ih (if keyLt nodes j m then j else m)
    have h0 := h _ List.mem_cons_self
    simp only [leastFrom]
    simp only [List.mem_cons] at hi
    rcases hi with rfl | rfl | hi
    · split at h0
      · rename_i hk
        rw [if_pos hk] 
        rw [keyLt_iff] at *
        omega
      · rename_i hk; rw [if_neg hk]; exact h0
    · split at h0
      · rename_i hk; rw [if_pos hk]; exact h0
      · rename_i hk
        rw [if_neg hk]
        rw [keyLt_iff] at *
        omega
    · exact h i (List.mem_cons_of_mem _ hi)

/-- What `extract_min` answers (R92): an element of the queue no other has a smaller key than, and the rest. -/
theorem extractMin_some {nodes : List Node} {q q' : List Nat} {a : Nat} (h : extractMin nodes q = some (a, q')) :
    a ∈ q ∧ q' = q.erase a ∧ ∀ i ∈ q, ¬ keyLt nodes i a = true := by
  cases q with
  | nil => simp [extractMin] at h
  | cons i rest =>
    simp only [extractMin, Option.some.injEq, Prod.mk.injEq] at h
    obtain ⟨rfl, rfl⟩ := h
    exact ⟨leastFrom_mem nodes i rest, rfl, leastFrom_le nodes i rest⟩

theorem extractMin_perm {nodes : List Node} {q q' : List Nat} {a : Nat} (h : extractMin nodes q = some (a, q')) :
    q.Perm (a :: q') := by
  obtain ⟨hm, rfl, -⟩ := extractMin_some h
  exact List.perm_cons_erase hm

theorem extractMin_eq_none {nodes : List Node} {q : List Nat} : extractMin nodes q = none ↔ q = [] := by
  cases q <;> simp [extractMin]

/-- One greedy merge (R94 step 2): the two least nodes `a` and `b` leave the queue, their parent enters it. -/
theorem mergeOnce_some {nodes nodes' : List Node} {q q' : List Nat} (h : mergeOnce nodes q = some (nodes', q')) :
    ∃ a b q₂, nodes' = nodes ++ [mergeNode nodes a b] ∧ q' = q₂ ++ [nodes.length] ∧ q.Perm (a :: b :: q₂) ∧
      (∀ i ∈ q, ¬ keyLt nodes i a = true) ∧ (∀ i ∈ q, i = a ∨ ¬ keyLt nodes i b = true) := by
  unfold mergeOnce at h
  split at h
  · simp at h
  · rename_i a q₁ ha
    split at h
    · simp at h
    · rename_i b q₂ hb
      simp only [Option.some.injEq, Prod.mk.injEq] at h
      refine ⟨a, b, q₂, h.1.symm, h.2.symm, (extractMin_perm ha).trans ((extractMin_perm hb).cons a),
        (extractMin_some ha).2.2, ?_⟩
      intro i hi
      rcases List.mem_cons.1 ((extractMin_perm ha).subset hi) with h | h
      · exact .inl h
      · exact .inr ((extractMin_some hb).2.2 i h)

theorem mergeOnce_none {nodes : List Node} {q : List Nat} : mergeOnce nodes q = none ↔ q.length ≤ 1 := by
  unfold mergeOnce
  split
  · rename_i h; simp [extractMin_eq_none.1 h]
  · rename_i a q₁ ha
    have hl := (extractMin_perm ha).length_eq
    split
    · rename_i h; simp [hl, extractMin_eq_none.1 h]
    · rename_i b q₂ hb
      have := (extractMin_perm hb).length_eq
      simp [hl, this]

/-- The merge loop keeps whatever each merge keeps, and ends with at most one node in the queue. -/
theorem mergeLoop_induct {P : List Node → List Nat → Prop}
    (step : ∀ nodes q nodes' q', P nodes q → mergeOnce nodes q = some (nodes', q') → P nodes' q')
    (fuel : Nat) (nodes : List Node) (q : List Nat) (h : P nodes q) (hf : q.length ≤ fuel + 1) :
    P (mergeLoop fuel nodes q).1 (mergeLoop fuel nodes q).2 ∧ (mergeLoop fuel nodes q).2.length ≤ 1 := by
  induction fuel generalizing nodes q with
  | zero => exact ⟨h, by simpa [mergeLoop] using hf⟩
  | succ k ih =>
    simp only [mergeLoop]
    split
    · rename_i hn; exact ⟨h, mergeOnce_none.1 hn⟩
    · rename_i nodes' q' hs
      refine ih nodes' q' (step _ _ _ _ h hs) ?_
      obtain ⟨a, b, q₂, -, rfl, hp, -⟩ := mergeOnce_some hs
      have := hp.length_eq
      simp at *; omega

/-! ## Leaves (R94 step 1) -/

theorem leavesFrom_length (sym : Nat) (counts : List Word) :
    (leavesFrom sym counts).length = counts.countP (· ≠ 0) := by
  induction counts generalizing sym with
  | nil => rfl
  | cons f rest ih =>
    simp only [leavesFrom]
    split <;> simp_all

/-- Every leaf carries a symbol with its non-zero count. -/
theorem mem_leavesFrom {sym : Nat} {counts : List Word} {n : Node} (h : n ∈ leavesFrom sym counts) :
    ∃ k, k < counts.length ∧ counts.getD k 0 ≠ 0 ∧ n = leafNode (counts.getD k 0) (sym + k) := by
  induction counts generalizing sym with
  | nil => simp [leavesFrom] at h
  | cons f rest ih =>
    simp only [leavesFrom] at h
    split at h
    · obtain ⟨k, hk, h1, h2⟩ := ih h
      exact ⟨k + 1, by simpa using hk, by simpa using h1, by rw [h2]; simp; congr 1; omega⟩
    · rename_i hf
      rcases List.mem_cons.1 h with rfl | h
      · exact ⟨0, by simp, by simpa using hf, by simp⟩
      · obtain ⟨k, hk, h1, h2⟩ := ih h
        exact ⟨k + 1, by simpa using hk, by simpa using h1, by rw [h2]; simp; congr 1; omega⟩

/-- Every symbol with a non-zero count has its leaf. -/
theorem leaf_mem_leavesFrom {sym : Nat} {counts : List Word} {k : Nat} (h : counts.getD k 0 ≠ 0) :
    leafNode (counts.getD k 0) (sym + k) ∈ leavesFrom sym counts := by
  induction counts generalizing sym k with
  | nil => simp at h
  | cons f rest ih =>
    cases k with
    | zero => simp at h; simp [leavesFrom, h]
    | succ k =>
      have := ih (sym := sym + 1) (k := k) (by simpa using h)
      simp only [leavesFrom]
      rw [show sym + (k + 1) = sym + 1 + k by omega]
      split <;> simp_all

/-- The leaves' symbols ascend (R93). -/
theorem leavesFrom_pairwise (sym : Nat) (counts : List Word) (h : sym + counts.length ≤ 256) :
    (leavesFrom sym counts).Pairwise fun m n => m.sym.toNat < n.sym.toNat := by
  induction counts generalizing sym with
  | nil => simp [leavesFrom]
  | cons f rest ih =>
    simp only [List.length_cons] at h
    simp only [leavesFrom]
    split
    · exact ih _ (by omega)
    · refine List.pairwise_cons.2 ⟨fun n hn => ?_, ih _ (by omega)⟩
      obtain ⟨k, hk, -, rfl⟩ := mem_leavesFrom hn
      simp [leafNode]
      omega

end Sys2Proof.Machine
end

