-- ==== Sys2Proof/Laws/Forest.lean ====
section
/-! SUPPORT. The trees the node store represents, and the forest the queue holds during the merge (R95). -/

namespace Sys2Proof.Machine

/-! ## Trees over the node store -/

/-- A binary tree of node indices: the shape the node store represents (R95 (d)). -/
inductive HTree where
  | leaf (i : Nat)
  | node (i : Nat) (l r : HTree)

namespace HTree

/-- The index of the top node. -/
def root : HTree → Nat
  | leaf i => i
  | node i _ _ => i

/-- Every index in the tree. -/
def indices : HTree → List Nat
  | leaf i => [i]
  | node i l r => i :: (l.indices ++ r.indices)

/-- The indices of the leaves. -/
def leaves : HTree → List Nat
  | leaf i => [i]
  | node _ l r => l.leaves ++ r.leaves

/-- The depth of the deepest leaf. -/
def height : HTree → Nat
  | leaf _ => 0
  | node _ l r => max l.height r.height + 1

/-- The node store holds this tree at its indices. -/
def Rep (nodes : List Node) : HTree → Prop
  | leaf i => i < nodes.length ∧ (nodeAt nodes i).leaf = true
  | node i l r => i < nodes.length ∧ (nodeAt nodes i).leaf = false ∧ (nodeAt nodes i).left.toNat = l.root ∧
      (nodeAt nodes i).right.toNat = r.root ∧
      (nodeAt nodes i).freq = (nodeAt nodes l.root).freq + (nodeAt nodes r.root).freq ∧
      l.root < i ∧ r.root < i ∧ l.Rep nodes ∧ r.Rep nodes

theorem Rep.root_lt {nodes : List Node} {t : HTree} (h : t.Rep nodes) : t.root < nodes.length := by
  cases t <;> exact h.1

theorem root_mem_indices (t : HTree) : t.root ∈ t.indices := by cases t <;> simp [root, indices]

theorem Rep.append {nodes : List Node} {t : HTree} (more : List Node) (h : t.Rep nodes) : t.Rep (nodes ++ more) := by
  induction t with
  | leaf i => exact ⟨by have := h.1; simp; omega, by rw [nodeAt_append more h.1]; exact h.2⟩
  | node i l r ihl ihr =>
    obtain ⟨h1, h2, h3, h4, h5, h6, h7, h8, h9⟩ := h
    refine ⟨by simp; omega, ?_, ?_, ?_, ?_, h6, h7, ihl h8, ihr h9⟩
    all_goals simp only [nodeAt_append more h1, nodeAt_append more h8.root_lt, nodeAt_append more h9.root_lt]
    all_goals assumption

theorem leaves_pos (t : HTree) : 1 ≤ t.leaves.length := by
  induction t with
  | leaf i => simp [leaves]
  | node i l r ihl ihr => simp [leaves]; omega

/-- A leaf lies at most (number of leaves - 1) deep (R95 (e)). -/
theorem height_lt_leaves (t : HTree) : t.height + 1 ≤ t.leaves.length := by
  induction t with
  | leaf i => simp [height, leaves]
  | node i l r ihl ihr =>
    have := l.leaves_pos; have := r.leaves_pos
    simp [height, leaves]; omega

/-- A tree of N leaves has 2N - 1 nodes (R95 (a)). -/
theorem indices_length (t : HTree) : t.indices.length + 1 = 2 * t.leaves.length := by
  induction t with
  | leaf i => simp [indices, leaves]
  | node i l r ihl ihr => simp [indices, leaves]; omega

end HTree

/-! ## The forest the queue holds during the merge -/

/-- During the merge the queue holds the roots of disjoint trees that cover the node store (R95 (d)). -/
def Forest (nodes : List Node) (q : List Nat) : Prop :=
  ∃ ts : List HTree, (ts.map HTree.root).Perm q ∧ (∀ t ∈ ts, t.Rep nodes) ∧
    (ts.flatMap HTree.indices).Perm (List.range nodes.length)

/-- Reordering the values of a map reorders its arguments. -/
theorem perm_map_preimage {α β : Type} (f : α → β) {l : List β} {ts : List α} (h : (ts.map f).Perm l) :
    ∃ ts', ts.Perm ts' ∧ ts'.map f = l := by
  induction l generalizing ts with
  | nil => exact ⟨ts, .refl _, by simpa using h⟩
  | cons x l ih =>
    obtain ⟨t, ht, rfl⟩ := List.mem_map.1 (h.symm.subset List.mem_cons_self)
    obtain ⟨s, u, rfl⟩ := List.append_of_mem ht
    have hp : (s ++ t :: u).Perm (t :: (s ++ u)) := List.perm_middle
    have := (List.Perm.map f hp).symm.trans h
    rw [List.map_cons, List.perm_cons] at this
    obtain ⟨ts', h1, h2⟩ := ih this
    exact ⟨t :: ts', hp.trans (h1.cons t), by simp [h2]⟩

/-- The leaves alone are a forest (R94 step 1). -/
theorem forest_leaves {nodes : List Node} (h : ∀ n ∈ nodes, n.leaf = true) : Forest nodes (List.range nodes.length) := by
  refine ⟨(List.range nodes.length).map .leaf, by simp [Function.comp_def, HTree.root], ?_, ?_⟩
  · intro t ht
    obtain ⟨i, hi, rfl⟩ := List.mem_map.1 ht
    have hi : i < nodes.length := by simpa using hi
    exact ⟨hi, by rw [nodeAt_eq hi]; exact h _ (List.getElem_mem hi)⟩
  · simp [List.flatMap_map, HTree.indices]

/-- A merge keeps the forest (R94 step 2). -/
theorem forest_mergeOnce {nodes nodes' : List Node} {q q' : List Nat} (hf : Forest nodes q)
    (hs : nodes.length < 2 ^ 16) (h : mergeOnce nodes q = some (nodes', q')) : Forest nodes' q' := by
  obtain ⟨a, b, q₂, rfl, rfl, hq, -⟩ := mergeOnce_some h
  obtain ⟨ts, hroots, hrep, hidx⟩ := hf
  obtain ⟨ts', hperm, hts'⟩ := perm_map_preimage _ (hroots.trans hq)
  match ts', hts' with
  | ta :: tb :: rest, hts' =>
    simp only [List.map_cons, List.cons.injEq] at hts'
    obtain ⟨rfl, rfl, rfl⟩ := hts'
    have ha := hrep ta (hperm.symm.subset (by simp))
    have hb := hrep tb (hperm.symm.subset (by simp))
    refine ⟨rest ++ [.node nodes.length ta tb], by simp [HTree.root], ?_, ?_⟩
    · intro t ht
      rcases List.mem_append.1 ht with ht | ht
      · exact (hrep t (hperm.symm.subset (by simp [ht]))).append _
      · obtain rfl := List.mem_singleton.1 ht
        have la := ha.root_lt
        have lb := hb.root_lt
        refine ⟨by simp, ?_, ?_, ?_, ?_, la, lb, ha.append _, hb.append _⟩
        all_goals simp only [nodeAt_append_self, nodeAt_append _ la, nodeAt_append _ lb, mergeNode, BitVec.toNat_ofNat]
        all_goals omega
    · have h1 : (ts.flatMap HTree.indices).Perm ((ta :: tb :: rest).flatMap HTree.indices) := hperm.flatMap_right _
      have h2 := h1.symm.trans hidx
      simp only [List.flatMap_cons, List.flatMap_append, List.flatMap_nil, List.append_nil, HTree.indices,
        List.length_append, List.length_singleton, List.range_succ] at *
      have h3 : (List.flatMap HTree.indices rest ++ nodes.length :: (ta.indices ++ tb.indices)).Perm
          ((ta.indices ++ (tb.indices ++ List.flatMap HTree.indices rest)) ++ [nodes.length]) := by
        rw [List.perm_iff_count]
        intro x
        simp only [List.count_append, List.count_cons, List.count_nil]
        omega
      exact h3.trans (h2.append_right _)

end Sys2Proof.Machine
end

