-- ==== Sys2Proof/Laws/Huffman.lean ====
section
/-! SUPPORT. The finished tree of BUILD_TREE (R95) and the walk of ASSIGN_CODES over it (R100). -/

namespace Sys2Proof.Machine

/-! ## The finished tree (R95) -/

/-- What holds of NODE and QUEUE before and after every merge, `leaves` being the leaves of step 1. -/
structure MergeInv (leaves nodes : List Node) (q : List Nat) : Prop where
  forest   : Forest nodes q
  split    : ∃ internal, nodes = leaves ++ internal ∧ ∀ n ∈ internal, n.leaf = false ∧ n.sym = 0
  size     : nodes.length + q.length = 2 * leaves.length
  newest   : nodes.length - 1 ∈ q

theorem mergeInv_leaves {leaves : List Node} (hl : ∀ n ∈ leaves, n.leaf = true) (hpos : 1 ≤ leaves.length) :
    MergeInv leaves leaves (List.range leaves.length) where
  forest := forest_leaves hl
  split := ⟨[], by simp, by simp⟩
  size := by simp; omega
  newest := by simp; omega

theorem mergeInv_mergeOnce {leaves nodes nodes' : List Node} {q q' : List Nat} (hl : leaves.length ≤ 256)
    (hi : MergeInv leaves nodes q) (h : mergeOnce nodes q = some (nodes', q')) : MergeInv leaves nodes' q' := by
  have hs : nodes.length < 2 ^ 16 := by have := hi.size; omega
  have hforest := forest_mergeOnce hi.forest hs h
  obtain ⟨a, b, q₂, rfl, rfl, hq, -⟩ := mergeOnce_some h
  obtain ⟨internal, h1, h2⟩ := hi.split
  refine ⟨hforest, ⟨internal ++ [mergeNode nodes a b], by simp [h1], ?_⟩, ?_, by simp⟩
  · intro n hn
    rcases List.mem_append.1 hn with hn | hn
    · exact h2 n hn
    · rw [List.mem_singleton.1 hn]; exact ⟨rfl, rfl⟩
  · have := hi.size; have := hq.length_eq; simp at *; omega

/-- Everything BUILD_TREE's node store is, for a table with at least one symbol: the leaves of step 1, then internal
nodes; one tree that covers the store, its root the last node (R95). -/
structure IsCodeTree (counts : List Word) (t : HTree) : Prop where
  rep     : t.Rep (huffman counts).1
  covers  : t.indices.Perm (List.range (huffman counts).1.length)
  root    : t.root = (huffman counts).1.length - 1
  queue   : (huffman counts).2 = [t.root]
  split   : ∃ internal, (huffman counts).1 = leavesFrom 0 counts ++ internal ∧ ∀ n ∈ internal, n.leaf = false ∧ n.sym = 0
  size    : (huffman counts).1.length + 1 = 2 * counts.countP (· ≠ 0)

theorem leaf_of_mem_leavesFrom {sym : Nat} {counts : List Word} {n : Node} (h : n ∈ leavesFrom sym counts) :
    n.leaf = true := by
  obtain ⟨k, -, -, rfl⟩ := mem_leavesFrom h; rfl

theorem huffman_isCodeTree {counts : List Word} (hl : counts.length ≤ 256) (hpos : 1 ≤ counts.countP (· ≠ 0)) :
    ∃ t, IsCodeTree counts t := by
  have hlen := leavesFrom_length 0 counts
  have hle : (leavesFrom 0 counts).length ≤ 256 := by
    rw [hlen]; exact List.countP_le_length.trans hl
  obtain ⟨hinv, hq⟩ := mergeLoop_induct (P := MergeInv (leavesFrom 0 counts))
    (fun _ _ _ _ hi h => mergeInv_mergeOnce hle hi h) (leavesFrom 0 counts).length (leavesFrom 0 counts)
    (List.range (leavesFrom 0 counts).length)
    (mergeInv_leaves (fun _ hn => leaf_of_mem_leavesFrom hn) (by omega)) (by simp)
  change MergeInv _ (huffman counts).1 (huffman counts).2 at hinv
  change (huffman counts).2.length ≤ 1 at hq
  have hone : (huffman counts).2 = [(huffman counts).1.length - 1] := by
    have := hinv.newest
    match h : (huffman counts).2 with
    | [] => simp [h] at this
    | [x] => simp [h] at this; simp [this]
    | x :: y :: r => simp [h] at hq
  obtain ⟨ts, h1, h2, h3⟩ := hinv.forest
  rw [hone] at h1
  have h1 := List.perm_singleton.1 h1
  obtain ⟨t, rfl⟩ := List.length_eq_one_iff.1 (by simpa using congrArg List.length h1)
  simp at h1 h3
  exact ⟨t, h2 t (by simp), h3, h1, by rw [hone, h1], hinv.split, by have := hinv.size; simp [hone] at this; omega⟩

/-- ROOT, NNODES and QUEUE after BUILD_TREE (R95 (a), R36). -/
theorem treeOf_shape {counts : List Word} {t : HTree} (h : IsCodeTree counts t) (hl : counts.length ≤ 256) :
    (treeOf counts).nnodes.toNat = 2 * counts.countP (· ≠ 0) - 1 ∧
      (treeOf counts).root.toNat = t.root ∧ (treeOf counts).nodes.length = (treeOf counts).nnodes.toNat ∧
      queueAfter counts = [] := by
  have h1 := h.size
  have h2 : counts.countP (· ≠ 0) ≤ 256 := List.countP_le_length.trans hl
  have h3 := h.root
  simp only [treeOf, queueAfter, h.queue, extractMin, leastFrom, BitVec.toNat_ofNat, Option.map_some, Option.getD_some]
  refine ⟨by omega, by omega, by omega, by simp⟩

/-! ## The walk (R100) -/

namespace HTree

/-- The table the walk writes for a subtree whose top has path `p` (R99, R100). -/
def assign (nodes : List Node) : HTree → Bits → List CodeEntry → List CodeEntry
  | leaf i, p, entries => setCode entries (nodeAt nodes i).sym (entryOfPath p)
  | node _ l r, p, entries => r.assign nodes (p ++ [true]) (l.assign nodes (p ++ [false]) entries)

/-- The paths of the leaves below a top with path `p`, with the leaf each leads to (R99). -/
def paths : HTree → Bits → List (Nat × Bits)
  | leaf i, p => [(i, p)]
  | node _ l r, p => l.paths (p ++ [false]) ++ r.paths (p ++ [true])

theorem paths_fst (t : HTree) (p : Bits) : (t.paths p).map Prod.fst = t.leaves := by
  induction t generalizing p with
  | leaf i => rfl
  | node i l r ihl ihr => simp [paths, leaves, ihl, ihr]

/-- Walking one tree takes as many passes as it has nodes, and writes its table. -/
theorem walk_cons {nodes : List Node} {t : HTree} (h : t.Rep nodes) (fuel : Nat) (p : Bits)
    (stack : List (Nat × Bits)) (entries : List CodeEntry) :
    walk nodes (t.indices.length + fuel) ((t.root, p) :: stack) entries =
      walk nodes fuel stack (t.assign nodes p entries) := by
  induction t generalizing fuel p stack entries with
  | leaf i =>
    simp only [indices, List.length_singleton, root, assign]
    rw [show 1 + fuel = fuel + 1 by omega, walk, if_pos h.2]
  | node i l r ihl ihr =>
    obtain ⟨-, h2, h3, h4, -, -, -, h8, h9⟩ := h
    simp only [indices, List.length_cons, List.length_append, root, assign]
    rw [show l.indices.length + r.indices.length + 1 + fuel = l.indices.length + (r.indices.length + fuel) + 1 by omega,
      walk, if_neg (by simp [h2]), h3, h4, ihl h8, ihr h9]

theorem walk_nil (nodes : List Node) (fuel : Nat) (entries : List CodeEntry) : walk nodes fuel [] entries = entries := by
  cases fuel <;> rfl

theorem walk_eq_assign {nodes : List Node} {t : HTree} (h : t.Rep nodes) (entries : List CodeEntry) :
    walk nodes t.indices.length [(t.root, [])] entries = t.assign nodes [] entries := by
  have := walk_cons h 0 [] [] entries
  rwa [Nat.add_zero, walk_nil] at this

/-- The table is the fold of the leaves' paths. -/
theorem assign_eq_foldl (nodes : List Node) (t : HTree) (p : Bits) (entries : List CodeEntry) :
    t.assign nodes p entries =
      (t.paths p).foldl (fun e ip => setCode e (nodeAt nodes ip.1).sym (entryOfPath ip.2)) entries := by
  induction t generalizing p entries with
  | leaf i => rfl
  | node i l r ihl ihr => simp [assign, paths, ihl, ihr]

end HTree

end Sys2Proof.Machine
end

