-- ==== Sys2Proof/Laws/Codes.lean ====
section
/-! SUPPORT. Bit strings (R10), paths in the tree (R99) and writing records of CODE. -/

namespace Sys2Proof.Machine

/-! ## Bit strings (R10) -/

theorem valueOf_append (p : Bits) (b : Bool) : valueOf (p ++ [b]) = 2 * valueOf p + b.toNat := by
  simp [valueOf, List.foldl_append]

theorem valueOf_lt (p : Bits) : valueOf p < 2 ^ p.length := by
  induction p using List.reverseRecOn with
  | nil => simp [valueOf]
  | append_singleton p b ih =>
    rw [valueOf_append, List.length_append, List.length_singleton, Nat.pow_succ]
    have := Bool.toNat_lt b
    omega

@[simp] theorem bitsOf_length (n v : Nat) : (bitsOf n v).length = n := by simp [bitsOf]

theorem bitsOf_succ (n v : Nat) (b : Bool) : bitsOf (n + 1) (2 * v + b.toNat) = bitsOf n v ++ [b] := by
  simp only [bitsOf, List.range_succ, List.map_append, List.map_cons, List.map_nil]
  congr 1
  · apply List.map_congr_left
    intro j hj
    have hj : j < n := by simpa using hj
    rw [show n + 1 - 1 - j = (n - 1 - j) + 1 by omega, Nat.testBit_succ]
    congr 1
    have := Bool.toNat_lt b
    omega
  · cases b <;> simp [Nat.testBit_zero]

/-- `bits8` and `codestr` undo `value` (R10, R105). -/
theorem bitsOf_valueOf (p : Bits) : bitsOf p.length (valueOf p) = p := by
  induction p using List.reverseRecOn with
  | nil => rfl
  | append_singleton p b ih =>
    rw [valueOf_append, List.length_append, List.length_singleton, bitsOf_succ, ih]

theorem valueOf_bitsOf {n v : Nat} (h : v < 2 ^ n) : valueOf (bitsOf n v) = v := by
  induction n generalizing v with
  | zero => simp at h; simp [bitsOf, valueOf, h]
  | succ n ih =>
    have hv : v = 2 * (v / 2) + (decide (v % 2 = 1)).toNat := by
      by_cases h2 : v % 2 = 1 <;> simp [h2] <;> omega
    rw [hv, bitsOf_succ, valueOf_append, ih (by rw [Nat.pow_succ] at h; omega)]

@[simp] theorem codestr_length (e : CodeEntry) : (codestr e).length = e.len.toNat := by simp [codestr]

/-- A path short enough for the table is its own code string (R105). -/
theorem codestr_entryOfPath {p : Bits} (h : p.length ≤ 255) : codestr (entryOfPath p) = p := by
  have h1 := valueOf_lt p
  have h2 : 2 ^ p.length ≤ 2 ^ 255 := Nat.pow_le_pow_right (by decide) h
  simp only [codestr, entryOfPath, BitVec.toNat_ofNat]
  rw [Nat.mod_eq_of_lt (by omega : p.length < 2 ^ 8), Nat.mod_eq_of_lt (by omega : valueOf p < 2 ^ 255), bitsOf_valueOf]

/-! ## Paths (R99) -/

theorem PathTo.lt {nodes : List Node} {i : Nat} {p : Bits} {j : Nat} (h : PathTo nodes i p j) : i < nodes.length := by
  cases p <;> simp [PathTo] at h <;> omega

/-- Paths compose. -/
theorem pathTo_append {nodes : List Node} {i : Nat} {p q : Bits} {j : Nat} :
    PathTo nodes i (p ++ q) j ↔ ∃ m, PathTo nodes i p m ∧ PathTo nodes m q j := by
  induction p generalizing i with
  | nil => 
    simp only [List.nil_append, PathTo]
    exact ⟨fun h => ⟨i, ⟨rfl, h.lt⟩, h⟩, fun ⟨m, ⟨h, _⟩, h2⟩ => h ▸ h2⟩
  | cons b p ih =>
    simp only [List.cons_append, PathTo, ih]
    constructor
    · rintro ⟨h1, h2, m, h3, h4⟩; exact ⟨m, ⟨h1, h2, h3⟩, h4⟩
    · rintro ⟨m, ⟨h1, h2, h3⟩, h4⟩; exact ⟨h1, h2, m, h3, h4⟩

/-- A path determines the node it leads to. -/
theorem PathTo.unique {nodes : List Node} {i : Nat} {p : Bits} {j k : Nat} (h : PathTo nodes i p j)
    (h' : PathTo nodes i p k) : j = k := by
  induction p generalizing i with
  | nil => exact h.1.symm.trans h'.1
  | cons b p ih => exact ih h.2.2 h'.2.2

/-- A leaf has no descendants (R101 (c)). -/
theorem PathTo.of_leaf {nodes : List Node} {i : Nat} {p : Bits} {j : Nat} (h : PathTo nodes i p j)
    (hl : (nodeAt nodes i).leaf = true) : p = [] := by
  cases p with
  | nil => rfl
  | cons b p => simp [PathTo, hl] at h

/-- No path to a leaf is a prefix of a path to anywhere else (R101 (c)). -/
theorem PathTo.prefix_leaf {nodes : List Node} {i : Nat} {p p' : Bits} {j k : Nat} (h : PathTo nodes i p j)
    (hl : (nodeAt nodes j).leaf = true) (h' : PathTo nodes i p' k) (hp : p <+: p') : p = p' ∧ j = k := by
  obtain ⟨q, rfl⟩ := hp
  obtain ⟨m, h1, h2⟩ := pathTo_append.1 h'
  obtain rfl := h.unique h1
  obtain rfl := h2.of_leaf hl
  exact ⟨by simp, h2.1⟩

namespace HTree

theorem pathTo_of_mem_paths {nodes : List Node} {t : HTree} (h : t.Rep nodes) {p₀ : Bits} {j : Nat} {p : Bits}
    (hm : (j, p) ∈ t.paths p₀) : ∃ q, p = p₀ ++ q ∧ PathTo nodes t.root q j ∧ (nodeAt nodes j).leaf = true ∧
      q.length ≤ t.height := by
  induction t generalizing p₀ with
  | leaf i =>
    simp only [paths, List.mem_singleton, Prod.mk.injEq] at hm
    obtain ⟨rfl, rfl⟩ := hm
    exact ⟨[], by simp, ⟨rfl, h.1⟩, h.2, by simp⟩
  | node i l r ihl ihr =>
    obtain ⟨h1, h2, h3, h4, -, -, -, h8, h9⟩ := h
    rcases List.mem_append.1 hm with hm | hm
    · obtain ⟨q, rfl, hq, hl, hh⟩ := ihl h8 hm
      refine ⟨false :: q, by simp, ⟨h1, h2, ?_⟩, hl, by simp [height]; omega⟩
      simpa [childOn, root, h3] using hq
    · obtain ⟨q, rfl, hq, hl, hh⟩ := ihr h9 hm
      refine ⟨true :: q, by simp, ⟨h1, h2, ?_⟩, hl, by simp [height]; omega⟩
      simpa [childOn, root, h4] using hq

/-- Every index of the tree that is a leaf record is a leaf of the tree. -/
theorem mem_leaves_iff {nodes : List Node} {t : HTree} (h : t.Rep nodes) {i : Nat} :
    i ∈ t.leaves ↔ i ∈ t.indices ∧ (nodeAt nodes i).leaf = true := by
  induction t with
  | leaf j =>
    simp only [leaves, indices, List.mem_singleton]
    exact ⟨fun e => ⟨e, e ▸ h.2⟩, fun e => e.1⟩
  | node j l r ihl ihr =>
    obtain ⟨h1, h2, h3, h4, -, -, -, h8, h9⟩ := h
    simp only [leaves, indices, List.mem_append, List.mem_cons, ihl h8, ihr h9]
    constructor
    · rintro (h | h) <;> exact ⟨by tauto, h.2⟩
    · rintro ⟨rfl | h | h, hl⟩
      · simp [h2] at hl
      · exact .inl ⟨h, hl⟩
      · exact .inr ⟨h, hl⟩

theorem leaves_sublist_indices (t : HTree) : t.leaves.Sublist t.indices := by
  induction t with
  | leaf i => simp [leaves, indices]
  | node i l r ihl ihr => exact (ihl.append ihr).trans (List.sublist_cons_self _ _)

end HTree

/-! ## The table (R100 to R102) -/

theorem codeAt_setCode {entries : List CodeEntry} {x y : Sym} {e : CodeEntry} (hx : x.toNat < entries.length) :
    codeAt (setCode entries x e) y = if x = y then e else codeAt entries y := by
  simp only [codeAt, setCode, List.getD_eq_getElem?_getD, List.getElem?_set, hx]
  by_cases h : x = y
  · subst h; simp
  · have : x.toNat ≠ y.toNat := fun e => h (BitVec.eq_of_toNat_eq e)
    simp [h, this]

@[simp] theorem setCode_length (entries : List CodeEntry) (x : Sym) (e : CodeEntry) :
    (setCode entries x e).length = entries.length := by simp [setCode]

/-- Write one record for each symbol of a list of leaves with their codes. -/
def writeCodes (nodes : List Node) (l : List (Nat × Bits)) (entries : List CodeEntry) : List CodeEntry :=
  l.foldl (fun e ip => setCode e (nodeAt nodes ip.1).sym (entryOfPath ip.2)) entries

@[simp] theorem writeCodes_length (nodes : List Node) (l : List (Nat × Bits)) (entries : List CodeEntry) :
    (writeCodes nodes l entries).length = entries.length := by
  induction l generalizing entries with
  | nil => rfl
  | cons ip l ih => simp [writeCodes] at *; simp [ih]

theorem codeAt_writeCodes_other {nodes : List Node} {l : List (Nat × Bits)} {entries : List CodeEntry} {y : Sym}
    (h : ∀ ip ∈ l, (nodeAt nodes ip.1).sym ≠ y) (hlt : ∀ ip ∈ l, (nodeAt nodes ip.1).sym.toNat < entries.length) :
    codeAt (writeCodes nodes l entries) y = codeAt entries y := by
  induction l generalizing entries with
  | nil => rfl
  | cons ip l ih =>
    have := ih (entries := setCode entries (nodeAt nodes ip.1).sym (entryOfPath ip.2))
      (fun x hx => h x (by simp [hx])) (fun x hx => by simpa using hlt x (by simp [hx]))
    rw [codeAt_setCode (hlt ip (by simp)), if_neg (h ip (by simp))] at this
    exact this

theorem codeAt_writeCodes_mem {nodes : List Node} {l : List (Nat × Bits)} {entries : List CodeEntry}
    (hd : l.Pairwise fun a b => (nodeAt nodes a.1).sym ≠ (nodeAt nodes b.1).sym)
    (hlt : ∀ ip ∈ l, (nodeAt nodes ip.1).sym.toNat < entries.length) {ip : Nat × Bits} (hm : ip ∈ l) :
    codeAt (writeCodes nodes l entries) (nodeAt nodes ip.1).sym = entryOfPath ip.2 := by
  induction l generalizing entries with
  | nil => simp at hm
  | cons a l ih =>
    obtain ⟨hd1, hd2⟩ := List.pairwise_cons.1 hd
    change codeAt (writeCodes nodes l (setCode entries (nodeAt nodes a.1).sym (entryOfPath a.2))) _ = _
    rcases List.mem_cons.1 hm with rfl | hm
    · rw [codeAt_writeCodes_other (fun x hx => (hd1 x hx).symm) (fun x hx => by simpa using hlt x (by simp [hx])),
        codeAt_setCode (hlt _ (by simp)), if_pos rfl]
    · exact ih hd2 (fun x hx => by simpa using hlt x (by simp [hx])) hm

/-- The leaves with their codes: the path, or "0" for a tree of one leaf (R100, R102). -/
def HTree.codes : HTree → List (Nat × Bits)
  | .leaf i => [(i, [false])]
  | .node i l r => (HTree.node i l r).paths []

theorem HTree.codes_fst (t : HTree) : t.codes.map Prod.fst = t.leaves := by
  cases t with
  | leaf i => rfl
  | node i l r => exact HTree.paths_fst _ _

/-- Every code is 1 to 255 bits long (R101 (b)). -/
theorem HTree.codes_length {nodes : List Node} {t : HTree} (h : t.Rep nodes) {ip : Nat × Bits} (hm : ip ∈ t.codes) :
    1 ≤ ip.2.length ∧ ip.2.length ≤ max 1 (t.leaves.length - 1) := by
  cases t with
  | leaf i => simp [codes] at hm; simp [hm, leaves]
  | node i l r =>
    obtain ⟨q, h1, h2, h3, h4⟩ := HTree.pathTo_of_mem_paths h hm
    have hh := (HTree.node i l r).height_lt_leaves
    have : q ≠ [] := by
      rintro rfl
      have := h2.1
      simp only [HTree.root] at this
      rw [← this, h.2.1] at h3
      simp at h3
    have := List.length_pos_iff.2 this
    simp at h1; rw [h1]; omega

end Sys2Proof.Machine
end

