-- ==== Sys2Proof/Laws/CodeTable.lean ====
section
/-! SUPPORT. The table ASSIGN_CODES leaves for the tree BUILD_TREE built (R99 to R102). -/

namespace Sys2Proof.Machine

theorem IsCodeTree.leaves_length {counts : List Word} {t : HTree} (h : IsCodeTree counts t) :
    t.leaves.length = counts.countP (· ≠ 0) := by
  have h1 := h.size
  have h2 := h.covers.length_eq
  have h3 := t.indices_length
  simp at h2; omega

theorem IsCodeTree.leaves_nodup {counts : List Word} {t : HTree} (h : IsCodeTree counts t) : t.leaves.Nodup :=
  t.leaves_sublist_indices.nodup (h.covers.nodup_iff.2 List.nodup_range)

/-- The leaves of the tree are the records of step 1 (R95 (b)). -/
theorem IsCodeTree.mem_leaves {counts : List Word} {t : HTree} (h : IsCodeTree counts t) {i : Nat} :
    i ∈ t.leaves ↔ i < (leavesFrom 0 counts).length := by
  rw [HTree.mem_leaves_iff h.rep, h.covers.mem_iff, List.mem_range]
  obtain ⟨internal, h1, h2⟩ := h.split
  constructor
  · rintro ⟨h3, h4⟩
    by_contra hc
    rw [nodeAt_eq h3] at h4
    have := (h2 ((huffman counts).1[i]) (by
      rw [List.getElem_of_eq h1 h3, List.getElem_append_right (by omega)]
      exact List.getElem_mem _)).1
    simp [this] at h4
  · intro h3
    refine ⟨by rw [h1]; simp; omega, ?_⟩
    rw [h1, nodeAt_append _ h3, nodeAt_eq h3]
    exact leaf_of_mem_leavesFrom (List.getElem_mem h3)

theorem IsCodeTree.nodeAt_leaf {counts : List Word} {t : HTree} (h : IsCodeTree counts t) {i : Nat}
    (hi : i < (leavesFrom 0 counts).length) : nodeAt (huffman counts).1 i = (leavesFrom 0 counts)[i] := by
  obtain ⟨internal, h1, -⟩ := h.split
  rw [h1, nodeAt_append _ hi, nodeAt_eq hi]

/-- The records after the leaves are internal nodes, with SYM 0 (R94 step 2, R95 (b)). -/
theorem IsCodeTree.nodeAt_internal {counts : List Word} {t : HTree} (h : IsCodeTree counts t) {i : Nat}
    (h1 : counts.countP (· ≠ 0) ≤ i) (h2 : i < (huffman counts).1.length) :
    (nodeAt (huffman counts).1 i).leaf = false ∧ (nodeAt (huffman counts).1 i).sym = 0 := by
  obtain ⟨internal, h3, h4⟩ := h.split
  have hl := leavesFrom_length 0 counts
  rw [nodeAt_eq h2, List.getElem_of_eq h3 h2, List.getElem_append_right (by omega)]
  exact h4 _ (List.getElem_mem _)

/-- Two leaves carry different symbols (R95 (b)). -/
theorem IsCodeTree.sym_ne {counts : List Word} {t : HTree} (h : IsCodeTree counts t) (hl : counts.length ≤ 256)
    {i j : Nat} (hi : i ∈ t.leaves) (hj : j ∈ t.leaves) (hij : i ≠ j) :
    (nodeAt (huffman counts).1 i).sym ≠ (nodeAt (huffman counts).1 j).sym := by
  rw [h.mem_leaves] at hi hj
  rw [h.nodeAt_leaf hi, h.nodeAt_leaf hj]
  have hp := List.pairwise_iff_getElem.1 (leavesFrom_pairwise 0 counts (by omega))
  intro e
  rcases Nat.lt_or_gt_of_ne hij with hlt | hlt
  · have := hp i j hi hj hlt; rw [e] at this; omega
  · have := hp j i hj hi hlt; rw [e] at this; omega

/-- A leaf carries a counted symbol with its count (R94 step 1). -/
theorem IsCodeTree.leaf_counted {counts : List Word} {t : HTree} (h : IsCodeTree counts t) (hl : counts.length ≤ 256)
    {i : Nat} (hi : i ∈ t.leaves) : (nodeAt (huffman counts).1 i).sym.toNat < counts.length ∧
      counts.getD (nodeAt (huffman counts).1 i).sym.toNat 0 ≠ 0 ∧
      (nodeAt (huffman counts).1 i).freq = counts.getD (nodeAt (huffman counts).1 i).sym.toNat 0 := by
  rw [h.mem_leaves] at hi
  rw [h.nodeAt_leaf hi]
  obtain ⟨k, h1, h2, h3⟩ := mem_leavesFrom (List.getElem_mem hi)
  rw [h3]
  have : (BitVec.ofNat 8 (0 + k)).toNat = k := by simp; omega
  simp only [leafNode, this]
  exact ⟨h1, h2, trivial⟩

/-- Every counted symbol has its leaf (R94 step 1). -/
theorem IsCodeTree.exists_leaf {counts : List Word} {t : HTree} (h : IsCodeTree counts t)
    {x : Sym} (hx : counts.getD x.toNat 0 ≠ 0) : ∃ i ∈ t.leaves, (nodeAt (huffman counts).1 i).sym = x := by
  obtain ⟨i, hi, e⟩ := List.getElem_of_mem (leaf_mem_leavesFrom (sym := 0) hx)
  refine ⟨i, h.mem_leaves.2 hi, ?_⟩
  rw [h.nodeAt_leaf hi, e]
  simp [leafNode]

/-- The table ASSIGN_CODES writes, as the leaves with their codes (R99, R100, R102). -/
theorem codesOf_eq {counts : List Word} {t : HTree} (h : IsCodeTree counts t) (hl : counts.length ≤ 256) (c : Config) :
    (codesOf c (treeOf counts)).entries = writeCodes (huffman counts).1 t.codes (CodeTable.empty c).entries := by
  obtain ⟨h1, h2, h3, -⟩ := treeOf_shape h hl
  have hlen : t.indices.length = (treeOf counts).nnodes.toNat := by
    rw [← h3, h.covers.length_eq]; simp [treeOf]
  simp only [codesOf, h2, ← hlen]
  change (if (nodeAt (huffman counts).1 t.root).leaf = true then _ else walk (huffman counts).1 _ _ _) = _
  cases t with
  | leaf i =>
    rw [if_pos (by simpa [HTree.root] using h.rep.2)]; rfl
  | node i l r =>
    rw [if_neg (by simp [HTree.root, h.rep.2.1]), HTree.walk_eq_assign h.rep, HTree.assign_eq_foldl]; rfl

theorem IsCodeTree.codes_pairwise {counts : List Word} {t : HTree} (h : IsCodeTree counts t) (hl : counts.length ≤ 256) :
    t.codes.Pairwise fun a b => (nodeAt (huffman counts).1 a.1).sym ≠ (nodeAt (huffman counts).1 b.1).sym := by
  have hn : (t.codes.map Prod.fst).Nodup := by rw [t.codes_fst]; exact h.leaves_nodup
  rw [List.Nodup, List.pairwise_map] at hn
  refine hn.imp_of_mem ?_
  intro a b ha hb hab
  have hmem : ∀ {x}, x ∈ t.codes → x.1 ∈ t.leaves := fun hx => by
    rw [← t.codes_fst]; exact List.mem_map_of_mem hx
  exact h.sym_ne hl (hmem ha) (hmem hb) hab

/-- The code of every leaf's symbol is the leaf's path (R99 to R102). -/
theorem codeAt_codesOf_leaf {c : Config} {counts : List Word} {t : HTree} (h : IsCodeTree counts t)
    (hlen : counts.length = c.nsymMax) (hl : counts.length ≤ 256) {ip : Nat × Bits} (hm : ip ∈ t.codes) :
    codeAt (codesOf c (treeOf counts)).entries (nodeAt (huffman counts).1 ip.1).sym = entryOfPath ip.2 := by
  rw [codesOf_eq h hl]
  refine codeAt_writeCodes_mem (h.codes_pairwise hl) ?_ hm
  intro x hx
  have := (h.leaf_counted hl (i := x.1) (by rw [← t.codes_fst]; exact List.mem_map_of_mem hx)).1
  simpa [CodeTable.empty, ← hlen] using this

/-- A counted symbol has a valid code, the path of its leaf (R101 (a)). -/
theorem exists_code_of_counted {c : Config} {counts : List Word} {t : HTree} (h : IsCodeTree counts t)
    (hlen : counts.length = c.nsymMax) (hl : counts.length ≤ 256) {x : Sym} (hx : counts.getD x.toNat 0 ≠ 0) :
    ∃ ip ∈ t.codes, (nodeAt (huffman counts).1 ip.1).sym = x ∧
      codeAt (codesOf c (treeOf counts)).entries x = entryOfPath ip.2 := by
  obtain ⟨i, hi, hs⟩ := h.exists_leaf hx
  rw [← t.codes_fst] at hi
  obtain ⟨ip, hm, rfl⟩ := List.mem_map.1 hi
  exact ⟨ip, hm, hs, hs ▸ codeAt_codesOf_leaf h hlen hl hm⟩

/-- A symbol that is not in the text has no code (R37, R100). -/
theorem codeAt_codesOf_absent {c : Config} {counts : List Word} {t : HTree} (h : IsCodeTree counts t)
    (hlen : counts.length = c.nsymMax) (hl : counts.length ≤ 256) {x : Sym} (hx : counts.getD x.toNat 0 = 0) :
    codeAt (codesOf c (treeOf counts)).entries x = CodeEntry.none := by
  have hmem : ∀ {y}, y ∈ t.codes → y.1 ∈ t.leaves := fun hy => by
    rw [← t.codes_fst]; exact List.mem_map_of_mem hy
  rw [codesOf_eq h hl, codeAt_writeCodes_other]
  · simp [codeAt, CodeTable.empty, List.getElem?_replicate]
    split <;> rfl
  · intro y hy e
    exact (h.leaf_counted hl (hmem hy)).2.1 (e ▸ hx)
  · intro y hy
    simpa [CodeTable.empty, ← hlen] using (h.leaf_counted hl (hmem hy)).1

theorem nsymMax_le {c : Config} (h : c.wf) : c.nsymMax ≤ 256 := by
  have : 2 ^ c.symBits ≤ 2 ^ 8 := Nat.pow_le_pow_right (by decide) h.2.1
  simpa [Config.nsymMax] using this

/-- Every code of the table fits CODE_LEN_MAX (R8 (c), R101 (b)). -/
theorem code_length_le {c : Config} {counts : List Word} {t : HTree} (h : IsCodeTree counts t)
    (hlen : counts.length = c.nsymMax) {ip : Nat × Bits} (hm : ip ∈ t.codes) :
    1 ≤ ip.2.length ∧ ip.2.length ≤ c.codeLenMax := by
  have h1 := HTree.codes_length h.rep hm
  have h2 := h.leaves_length
  have h3 : counts.countP (· ≠ 0) ≤ counts.length := List.countP_le_length
  refine ⟨h1.1, h1.2.trans ?_⟩
  unfold Config.codeLenMax
  omega

/-- Every record of the table is as R37 allows. -/
theorem codesOf_ok {c : Config} (hc : c.wf) {counts : List Word} {t : HTree} (h : IsCodeTree counts t)
    (hlen : counts.length = c.nsymMax) : ∀ e ∈ (codesOf c (treeOf counts)).entries, CodeOk c e := by
  have hl : counts.length ≤ 256 := hlen ▸ nsymMax_le hc
  have key : ∀ l : List (Nat × Bits), (∀ ip ∈ l, 1 ≤ ip.2.length ∧ ip.2.length ≤ c.codeLenMax) →
      ∀ entries, (∀ e ∈ entries, CodeOk c e) → ∀ e ∈ writeCodes (huffman counts).1 l entries, CodeOk c e := by
    intro l
    induction l with
    | nil => intro _ entries he; exact he
    | cons ip l ih =>
      intro hl' entries he
      refine ih (fun x hx => hl' x (by simp [hx])) _ ?_
      intro e hm
      rcases List.mem_or_eq_of_mem_set hm with hm | rfl
      · exact he e hm
      · obtain ⟨h1, h2⟩ := hl' ip (by simp)
        have h3 : c.codeLenMax ≤ 255 := by
          have := nsymMax_le hc; unfold Config.codeLenMax; omega
        have h4 := valueOf_lt ip.2
        have h5 : 2 ^ ip.2.length ≤ 2 ^ 255 := Nat.pow_le_pow_right (by decide) (by omega)
        refine ⟨fun hv => by simp [entryOfPath] at hv, fun _ => ?_⟩
        simp only [entryOfPath, BitVec.toNat_ofNat]
        rw [Nat.mod_eq_of_lt (by omega : ip.2.length < 2 ^ 8), Nat.mod_eq_of_lt (by omega : valueOf ip.2 < 2 ^ 255)]
        exact ⟨h1, h2, h4⟩
  rw [codesOf_eq h hl]
  refine key _ (fun ip hm => code_length_le h hlen hm) _ ?_
  intro e he
  rw [List.eq_of_mem_replicate he]
  exact ⟨fun _ => rfl, fun hv => by simp [CodeEntry.none] at hv⟩

end Sys2Proof.Machine
end

