-- ==== Sys2Proof/Laws/State.lean ====
section
/-! SUPPORT. One lemma per field per update of the state, so that no proof unfolds a record update. -/

namespace Sys2Proof.Machine

variable (s : State)

/-! ### `invalFreq`: `inval_freq()` (R40) -/

@[simp] theorem invalFreq_cfg : (invalFreq s).cfg = s.cfg := rfl
@[simp] theorem invalFreq_phase : (invalFreq s).phase = s.phase := rfl
@[simp] theorem invalFreq_report : (invalFreq s).report = s.report := rfl
@[simp] theorem invalFreq_irq : (invalFreq s).irq = s.irq := rfl
@[simp] theorem invalFreq_text : (invalFreq s).text = s.text := rfl
@[simp] theorem invalFreq_freq : (invalFreq s).freq = .empty s.cfg := rfl
@[simp] theorem invalFreq_tree : (invalFreq s).tree = s.tree := rfl
@[simp] theorem invalFreq_queue : (invalFreq s).queue = s.queue := rfl
@[simp] theorem invalFreq_codes : (invalFreq s).codes = s.codes := rfl
@[simp] theorem invalFreq_out : (invalFreq s).out = s.out := rfl
@[simp] theorem invalFreq_data : (invalFreq s).data = s.data := rfl
@[simp] theorem invalFreq_env : (invalFreq s).env = s.env := rfl

/-! ### `invalTree`: `inval_tree()` (R40) -/

@[simp] theorem invalTree_cfg : (invalTree s).cfg = s.cfg := rfl
@[simp] theorem invalTree_phase : (invalTree s).phase = s.phase := rfl
@[simp] theorem invalTree_report : (invalTree s).report = s.report := rfl
@[simp] theorem invalTree_irq : (invalTree s).irq = s.irq := rfl
@[simp] theorem invalTree_text : (invalTree s).text = s.text := rfl
@[simp] theorem invalTree_freq : (invalTree s).freq = s.freq := rfl
@[simp] theorem invalTree_tree : (invalTree s).tree = .empty := rfl
@[simp] theorem invalTree_queue : (invalTree s).queue = s.queue := rfl
@[simp] theorem invalTree_codes : (invalTree s).codes = s.codes := rfl
@[simp] theorem invalTree_out : (invalTree s).out = s.out := rfl
@[simp] theorem invalTree_data : (invalTree s).data = s.data := rfl
@[simp] theorem invalTree_env : (invalTree s).env = s.env := rfl

/-! ### `invalCodes`: `inval_codes()` (R40) -/

@[simp] theorem invalCodes_cfg : (invalCodes s).cfg = s.cfg := rfl
@[simp] theorem invalCodes_phase : (invalCodes s).phase = s.phase := rfl
@[simp] theorem invalCodes_report : (invalCodes s).report = s.report := rfl
@[simp] theorem invalCodes_irq : (invalCodes s).irq = s.irq := rfl
@[simp] theorem invalCodes_text : (invalCodes s).text = s.text := rfl
@[simp] theorem invalCodes_freq : (invalCodes s).freq = s.freq := rfl
@[simp] theorem invalCodes_tree : (invalCodes s).tree = s.tree := rfl
@[simp] theorem invalCodes_queue : (invalCodes s).queue = s.queue := rfl
@[simp] theorem invalCodes_codes : (invalCodes s).codes = .empty s.cfg := rfl
@[simp] theorem invalCodes_out : (invalCodes s).out = s.out := rfl
@[simp] theorem invalCodes_data : (invalCodes s).data = s.data := rfl
@[simp] theorem invalCodes_env : (invalCodes s).env = s.env := rfl

/-! ### `invalOut`: `inval_out()` (R40) -/

@[simp] theorem invalOut_cfg : (invalOut s).cfg = s.cfg := rfl
@[simp] theorem invalOut_phase : (invalOut s).phase = s.phase := rfl
@[simp] theorem invalOut_report : (invalOut s).report = s.report := rfl
@[simp] theorem invalOut_irq : (invalOut s).irq = s.irq := rfl
@[simp] theorem invalOut_text : (invalOut s).text = s.text := rfl
@[simp] theorem invalOut_freq : (invalOut s).freq = s.freq := rfl
@[simp] theorem invalOut_tree : (invalOut s).tree = s.tree := rfl
@[simp] theorem invalOut_queue : (invalOut s).queue = s.queue := rfl
@[simp] theorem invalOut_codes : (invalOut s).codes = s.codes := rfl
@[simp] theorem invalOut_out : (invalOut s).out = .empty := rfl
@[simp] theorem invalOut_data : (invalOut s).data = s.data := rfl
@[simp] theorem invalOut_env : (invalOut s).env = s.env := rfl

/-! ### `issue`: issue (R77) -/

@[simp] theorem issue_cfg (w : Word) : (issue w s).cfg = s.cfg := rfl
@[simp] theorem issue_phase (w : Word) : (issue w s).phase = .busy w := rfl
@[simp] theorem issue_report (w : Word) : (issue w s).report = { s.report with lastCmd := w, err := false, errCode := 0 } := rfl
@[simp] theorem issue_irq (w : Word) : (issue w s).irq = s.irq := rfl
@[simp] theorem issue_text (w : Word) : (issue w s).text = s.text := rfl
@[simp] theorem issue_freq (w : Word) : (issue w s).freq = s.freq := rfl
@[simp] theorem issue_tree (w : Word) : (issue w s).tree = s.tree := rfl
@[simp] theorem issue_queue (w : Word) : (issue w s).queue = s.queue := rfl
@[simp] theorem issue_codes (w : Word) : (issue w s).codes = s.codes := rfl
@[simp] theorem issue_out (w : Word) : (issue w s).out = s.out := rfl
@[simp] theorem issue_data (w : Word) : (issue w s).data = s.data := rfl
@[simp] theorem issue_env (w : Word) : (issue w s).env = s.env := rfl

/-! ### `reportOk`: the report of a success (R80) -/

@[simp] theorem reportOk_cfg : (reportOk s).cfg = s.cfg := rfl
@[simp] theorem reportOk_phase : (reportOk s).phase = .idle := rfl
@[simp] theorem reportOk_report : (reportOk s).report = { s.report with err := false, errCode := 0, errInfo := 0 } := rfl
@[simp] theorem reportOk_irq : (reportOk s).irq = s.irq.raise irqDone := rfl
@[simp] theorem reportOk_text : (reportOk s).text = s.text := rfl
@[simp] theorem reportOk_freq : (reportOk s).freq = s.freq := rfl
@[simp] theorem reportOk_tree : (reportOk s).tree = s.tree := rfl
@[simp] theorem reportOk_queue : (reportOk s).queue = s.queue := rfl
@[simp] theorem reportOk_codes : (reportOk s).codes = s.codes := rfl
@[simp] theorem reportOk_out : (reportOk s).out = s.out := rfl
@[simp] theorem reportOk_data : (reportOk s).data = s.data := rfl
@[simp] theorem reportOk_env : (reportOk s).env = s.env := rfl

/-! ### `reportFail`: the report of a failure (R80, R82) -/

@[simp] theorem reportFail_cfg (e : ErrCode) (info : Word) : (reportFail e info s).cfg = s.cfg := rfl
@[simp] theorem reportFail_phase (e : ErrCode) (info : Word) : (reportFail e info s).phase = .idle := rfl
@[simp] theorem reportFail_report (e : ErrCode) (info : Word) : (reportFail e info s).report = { s.report with err := true, errCode := e.code, errInfo := info } := rfl
@[simp] theorem reportFail_irq (e : ErrCode) (info : Word) : (reportFail e info s).irq = s.irq.raise (irqDone ||| irqError) := rfl
@[simp] theorem reportFail_text (e : ErrCode) (info : Word) : (reportFail e info s).text = s.text := rfl
@[simp] theorem reportFail_freq (e : ErrCode) (info : Word) : (reportFail e info s).freq = s.freq := rfl
@[simp] theorem reportFail_tree (e : ErrCode) (info : Word) : (reportFail e info s).tree = s.tree := rfl
@[simp] theorem reportFail_queue (e : ErrCode) (info : Word) : (reportFail e info s).queue = s.queue := rfl
@[simp] theorem reportFail_codes (e : ErrCode) (info : Word) : (reportFail e info s).codes = s.codes := rfl
@[simp] theorem reportFail_out (e : ErrCode) (info : Word) : (reportFail e info s).out = s.out := rfl
@[simp] theorem reportFail_data (e : ErrCode) (info : Word) : (reportFail e info s).data = s.data := rfl
@[simp] theorem reportFail_env (e : ErrCode) (info : Word) : (reportFail e info s).env = s.env := rfl

/-! ### `acknowledge`: a host write to IRQ_STATUS (R27) -/

@[simp] theorem acknowledge_cfg (v : Word) : (acknowledge v s).cfg = s.cfg := rfl
@[simp] theorem acknowledge_phase (v : Word) : (acknowledge v s).phase = s.phase := rfl
@[simp] theorem acknowledge_report (v : Word) : (acknowledge v s).report = s.report := rfl
@[simp] theorem acknowledge_irq (v : Word) : (acknowledge v s).irq = s.irq.clear v := rfl
@[simp] theorem acknowledge_text (v : Word) : (acknowledge v s).text = s.text := rfl
@[simp] theorem acknowledge_freq (v : Word) : (acknowledge v s).freq = s.freq := rfl
@[simp] theorem acknowledge_tree (v : Word) : (acknowledge v s).tree = s.tree := rfl
@[simp] theorem acknowledge_queue (v : Word) : (acknowledge v s).queue = s.queue := rfl
@[simp] theorem acknowledge_codes (v : Word) : (acknowledge v s).codes = s.codes := rfl
@[simp] theorem acknowledge_out (v : Word) : (acknowledge v s).out = s.out := rfl
@[simp] theorem acknowledge_data (v : Word) : (acknowledge v s).data = s.data := rfl
@[simp] theorem acknowledge_env (v : Word) : (acknowledge v s).env = s.env := rfl

/-! ### `setResults`: the RESULT registers (R121) -/

@[simp] theorem setResults_cfg (r₀ r₁ r₂ : Word) : (setResults r₀ r₁ r₂ s).cfg = s.cfg := rfl
@[simp] theorem setResults_phase (r₀ r₁ r₂ : Word) : (setResults r₀ r₁ r₂ s).phase = s.phase := rfl
@[simp] theorem setResults_report (r₀ r₁ r₂ : Word) : (setResults r₀ r₁ r₂ s).report = s.report := rfl
@[simp] theorem setResults_irq (r₀ r₁ r₂ : Word) : (setResults r₀ r₁ r₂ s).irq = s.irq := rfl
@[simp] theorem setResults_text (r₀ r₁ r₂ : Word) : (setResults r₀ r₁ r₂ s).text = s.text := rfl
@[simp] theorem setResults_freq (r₀ r₁ r₂ : Word) : (setResults r₀ r₁ r₂ s).freq = s.freq := rfl
@[simp] theorem setResults_tree (r₀ r₁ r₂ : Word) : (setResults r₀ r₁ r₂ s).tree = s.tree := rfl
@[simp] theorem setResults_queue (r₀ r₁ r₂ : Word) : (setResults r₀ r₁ r₂ s).queue = s.queue := rfl
@[simp] theorem setResults_codes (r₀ r₁ r₂ : Word) : (setResults r₀ r₁ r₂ s).codes = s.codes := rfl
@[simp] theorem setResults_out (r₀ r₁ r₂ : Word) : (setResults r₀ r₁ r₂ s).out = s.out := rfl
@[simp] theorem setResults_data (r₀ r₁ r₂ : Word) : (setResults r₀ r₁ r₂ s).data = { s.data with result0 := r₀, result1 := r₁, result2 := r₂ } := rfl
@[simp] theorem setResults_env (r₀ r₁ r₂ : Word) : (setResults r₀ r₁ r₂ s).env = s.env := rfl

/-! ### `setCw`: CW (R119) -/

@[simp] theorem setCw_cfg (v : BitVec 256) : (setCw v s).cfg = s.cfg := rfl
@[simp] theorem setCw_phase (v : BitVec 256) : (setCw v s).phase = s.phase := rfl
@[simp] theorem setCw_report (v : BitVec 256) : (setCw v s).report = s.report := rfl
@[simp] theorem setCw_irq (v : BitVec 256) : (setCw v s).irq = s.irq := rfl
@[simp] theorem setCw_text (v : BitVec 256) : (setCw v s).text = s.text := rfl
@[simp] theorem setCw_freq (v : BitVec 256) : (setCw v s).freq = s.freq := rfl
@[simp] theorem setCw_tree (v : BitVec 256) : (setCw v s).tree = s.tree := rfl
@[simp] theorem setCw_queue (v : BitVec 256) : (setCw v s).queue = s.queue := rfl
@[simp] theorem setCw_codes (v : BitVec 256) : (setCw v s).codes = s.codes := rfl
@[simp] theorem setCw_out (v : BitVec 256) : (setCw v s).out = s.out := rfl
@[simp] theorem setCw_data (v : BitVec 256) : (setCw v s).data = { s.data with codeW := codeWords v } := rfl
@[simp] theorem setCw_env (v : BitVec 256) : (setCw v s).env = s.env := rfl

/-! ### `setCodeW`: one CODE_W register (R32) -/

@[simp] theorem setCodeW_cfg (k : Fin 8) (v : Word) : (setCodeW k v s).cfg = s.cfg := rfl
@[simp] theorem setCodeW_phase (k : Fin 8) (v : Word) : (setCodeW k v s).phase = s.phase := rfl
@[simp] theorem setCodeW_report (k : Fin 8) (v : Word) : (setCodeW k v s).report = s.report := rfl
@[simp] theorem setCodeW_irq (k : Fin 8) (v : Word) : (setCodeW k v s).irq = s.irq := rfl
@[simp] theorem setCodeW_text (k : Fin 8) (v : Word) : (setCodeW k v s).text = s.text := rfl
@[simp] theorem setCodeW_freq (k : Fin 8) (v : Word) : (setCodeW k v s).freq = s.freq := rfl
@[simp] theorem setCodeW_tree (k : Fin 8) (v : Word) : (setCodeW k v s).tree = s.tree := rfl
@[simp] theorem setCodeW_queue (k : Fin 8) (v : Word) : (setCodeW k v s).queue = s.queue := rfl
@[simp] theorem setCodeW_codes (k : Fin 8) (v : Word) : (setCodeW k v s).codes = s.codes := rfl
@[simp] theorem setCodeW_out (k : Fin 8) (v : Word) : (setCodeW k v s).out = s.out := rfl
@[simp] theorem setCodeW_data (k : Fin 8) (v : Word) : (setCodeW k v s).data = { s.data with codeW := s.data.codeW.set k.val v } := rfl
@[simp] theorem setCodeW_env (k : Fin 8) (v : Word) : (setCodeW k v s).env = s.env := rfl

/-! ### `dropWrite`: a dropped write (R87) -/

@[simp] theorem dropWrite_cfg : (dropWrite s).cfg = s.cfg := rfl
@[simp] theorem dropWrite_phase : (dropWrite s).phase = s.phase := rfl
@[simp] theorem dropWrite_report : (dropWrite s).report = s.report := rfl
@[simp] theorem dropWrite_irq : (dropWrite s).irq = s.irq.raise irqOverrun := rfl
@[simp] theorem dropWrite_text : (dropWrite s).text = s.text := rfl
@[simp] theorem dropWrite_freq : (dropWrite s).freq = s.freq := rfl
@[simp] theorem dropWrite_tree : (dropWrite s).tree = s.tree := rfl
@[simp] theorem dropWrite_queue : (dropWrite s).queue = s.queue := rfl
@[simp] theorem dropWrite_codes : (dropWrite s).codes = s.codes := rfl
@[simp] theorem dropWrite_out : (dropWrite s).out = s.out := rfl
@[simp] theorem dropWrite_data : (dropWrite s).data = s.data := rfl
@[simp] theorem dropWrite_env : (dropWrite s).env = s.env := rfl

/-! ### `hardReset`: hardware reset (R141) -/

@[simp] theorem hardReset_cfg : (hardReset s).cfg = s.cfg := rfl
@[simp] theorem hardReset_phase : (hardReset s).phase = .idle := rfl
@[simp] theorem hardReset_report : (hardReset s).report = { lastCmd := 0, err := false, errCode := 0, errInfo := 0 } := rfl
@[simp] theorem hardReset_irq : (hardReset s).irq = { status := 0, enable := 0 } := rfl
@[simp] theorem hardReset_text : (hardReset s).text = .empty := rfl
@[simp] theorem hardReset_freq : (hardReset s).freq = .empty s.cfg := rfl
@[simp] theorem hardReset_tree : (hardReset s).tree = .empty := rfl
@[simp] theorem hardReset_queue : (hardReset s).queue = [] := rfl
@[simp] theorem hardReset_codes : (hardReset s).codes = .empty s.cfg := rfl
@[simp] theorem hardReset_out : (hardReset s).out = .empty := rfl
@[simp] theorem hardReset_data : (hardReset s).data = { result0 := 0, result1 := 0, result2 := 0, codeW := #v[0, 0, 0, 0, 0, 0, 0, 0] } := rfl
@[simp] theorem hardReset_env : (hardReset s).env = s.env := rfl

/-! ### `clearRun`: CLEAR's effects (R85) -/

@[simp] theorem clearRun_cfg : (clearRun s).cfg = s.cfg := rfl
@[simp] theorem clearRun_phase : (clearRun s).phase = s.phase := rfl
@[simp] theorem clearRun_report : (clearRun s).report = s.report := rfl
@[simp] theorem clearRun_irq : (clearRun s).irq = s.irq := rfl
@[simp] theorem clearRun_text : (clearRun s).text = .empty := rfl
@[simp] theorem clearRun_freq : (clearRun s).freq = .empty s.cfg := rfl
@[simp] theorem clearRun_tree : (clearRun s).tree = .empty := rfl
@[simp] theorem clearRun_queue : (clearRun s).queue = s.queue := rfl
@[simp] theorem clearRun_codes : (clearRun s).codes = .empty s.cfg := rfl
@[simp] theorem clearRun_out : (clearRun s).out = .empty := rfl
@[simp] theorem clearRun_data : (clearRun s).data = s.data := rfl
@[simp] theorem clearRun_env : (clearRun s).env = s.env := rfl

/-! ### `appendText`: the append of TEXT_PUSH (R88) -/

@[simp] theorem appendText_cfg (x : Sym) : (appendText x s).cfg = s.cfg := rfl
@[simp] theorem appendText_phase (x : Sym) : (appendText x s).phase = s.phase := rfl
@[simp] theorem appendText_report (x : Sym) : (appendText x s).report = s.report := rfl
@[simp] theorem appendText_irq (x : Sym) : (appendText x s).irq = s.irq := rfl
@[simp] theorem appendText_text (x : Sym) : (appendText x s).text = { entries := s.input ++ [x], len := s.text.len + 1 } := rfl
@[simp] theorem appendText_freq (x : Sym) : (appendText x s).freq = s.freq := rfl
@[simp] theorem appendText_tree (x : Sym) : (appendText x s).tree = s.tree := rfl
@[simp] theorem appendText_queue (x : Sym) : (appendText x s).queue = s.queue := rfl
@[simp] theorem appendText_codes (x : Sym) : (appendText x s).codes = s.codes := rfl
@[simp] theorem appendText_out (x : Sym) : (appendText x s).out = s.out := rfl
@[simp] theorem appendText_data (x : Sym) : (appendText x s).data = s.data := rfl
@[simp] theorem appendText_env (x : Sym) : (appendText x s).env = s.env := rfl

/-! ### `setPending`: the events still to come -/

@[simp] theorem setPending_cfg (es : List Event) : (setPending es s).cfg = s.cfg := rfl
@[simp] theorem setPending_phase (es : List Event) : (setPending es s).phase = s.phase := rfl
@[simp] theorem setPending_report (es : List Event) : (setPending es s).report = s.report := rfl
@[simp] theorem setPending_irq (es : List Event) : (setPending es s).irq = s.irq := rfl
@[simp] theorem setPending_text (es : List Event) : (setPending es s).text = s.text := rfl
@[simp] theorem setPending_freq (es : List Event) : (setPending es s).freq = s.freq := rfl
@[simp] theorem setPending_tree (es : List Event) : (setPending es s).tree = s.tree := rfl
@[simp] theorem setPending_queue (es : List Event) : (setPending es s).queue = s.queue := rfl
@[simp] theorem setPending_codes (es : List Event) : (setPending es s).codes = s.codes := rfl
@[simp] theorem setPending_out (es : List Event) : (setPending es s).out = s.out := rfl
@[simp] theorem setPending_data (es : List Event) : (setPending es s).data = s.data := rfl
@[simp] theorem setPending_env (es : List Event) : (setPending es s).env = { s.env with pending := es } := rfl

/-! ### `readReg`: a host read (R55) -/

@[simp] theorem readReg_cfg (r : Reg) : (readReg r s).cfg = s.cfg := rfl
@[simp] theorem readReg_phase (r : Reg) : (readReg r s).phase = s.phase := rfl
@[simp] theorem readReg_report (r : Reg) : (readReg r s).report = s.report := rfl
@[simp] theorem readReg_irq (r : Reg) : (readReg r s).irq = s.irq := rfl
@[simp] theorem readReg_text (r : Reg) : (readReg r s).text = s.text := rfl
@[simp] theorem readReg_freq (r : Reg) : (readReg r s).freq = s.freq := rfl
@[simp] theorem readReg_tree (r : Reg) : (readReg r s).tree = s.tree := rfl
@[simp] theorem readReg_queue (r : Reg) : (readReg r s).queue = s.queue := rfl
@[simp] theorem readReg_codes (r : Reg) : (readReg r s).codes = s.codes := rfl
@[simp] theorem readReg_out (r : Reg) : (readReg r s).out = s.out := rfl
@[simp] theorem readReg_data (r : Reg) : (readReg r s).data = s.data := rfl
@[simp] theorem readReg_env (r : Reg) : (readReg r s).env = { s.env with readData := readValue s r, freeIndex := if s.isBusy then s.env.freeIndex + 1 else s.env.freeIndex } := rfl

end Sys2Proof.Machine
end

