-- ==== Sys2Proof/Laws/Commands.lean ====
section
/-! SUPPORT. What a command can do, said once: every completion is `finish` of the command's rule, so a next state is
either the report of a success over the rule's effects, or the report of a failure over the state before. -/

namespace Sys2Proof.Machine

/-- The rule of each command, its operand checks first (R81). -/
def ruleOf : Instr → State → CmdOutcome
  | .nop, s => .ok s
  | .clear, s => .ok (clearRun s)
  | .textPush sym, s => withSym sym s (textPushBody sym s)
  | .freqCount, s => freqCountBody s
  | .buildTree, s => buildTreeBody s
  | .assignCodes, s => assignCodesBody s
  | .codeLoad sym len, s => withSym sym s (withLen len s (codeLoadBody sym len s))
  | .pack, s => packBody s
  | .compress, s => compressBody s
  | .textRead index, s => withIndex index s.text.len (.ok (setResults ((textAt s index.toNat).setWidth 32) 0 0 s))
  | .freqRead sym, s => withSym sym s (.ok (setResults (freqAt s sym) 0 0 s))
  | .nodeRead index, s => withIndex index s.tree.nnodes
      (.ok (setResults (nodeAt s.tree.nodes index.toNat).freq (nodeResult1 (nodeAt s.tree.nodes index.toNat))
        (nodeResult2 (nodeAt s.tree.nodes index.toNat)) s))
  | .codeRead sym, s => withSym sym s
      (.ok (setCw ((codeAt s.codes.entries sym).bits.setWidth 256)
        (setResults (codeResult0 (codeAt s.codes.entries sym)) 0 0 s)))
  | .outRead index, s => withIndex index s.out.len (.ok (setResults ((outAt s index.toNat).setWidth 32) 0 0 s))

/-- Every command completes (R79, R122): `exec` always answers a next state. -/
theorem exec_eq (i : Instr) (s : State) : exec i s = .next (finish s (ruleOf i s)) := by cases i <;> rfl

/-- How the completion of a word ends: the decoded command's rule, or ILLEGAL_COMMAND (R81). -/
def outcomeOf (w : Word) (s : State) : CmdOutcome :=
  match decode w with
  | .ok i => ruleOf i s
  | .error r => illegal r

theorem outcomeOf_ok {w : Word} {i : Instr} (h : decode w = .ok i) (s : State) : outcomeOf w s = ruleOf i s := by
  simp [outcomeOf, h]

theorem outcomeOf_error {w : Word} {r : Illegal} (h : decode w = .error r) (s : State) :
    outcomeOf w s = .fail .illegalCommand r.info := by simp [outcomeOf, h, illegal]

/-- A word completes with success only as the command it decodes to. -/
theorem outcomeOf_eq_ok {w : Word} {s t : State} (h : outcomeOf w s = .ok t) :
    ∃ i, decode w = .ok i ∧ ruleOf i s = .ok t := by
  unfold outcomeOf at h
  split at h
  · exact ⟨_, ‹_›, h⟩
  · cases h

/-- The completion of any word (R79, R81). -/
theorem complete_eq (w : Word) (s : State) : complete w s = .next (finish s (outcomeOf w s)) := by
  unfold complete outcomeOf
  split <;> simp_all [exec_eq, completeWith]

theorem exec_next_iff {i : Instr} {s t : State} : exec i s = .next t ↔ t = finish s (ruleOf i s) := by
  rw [exec_eq]; exact ⟨fun h => by injection h with h; exact h.symm, fun h => by rw [h]⟩

@[simp] theorem finish_ok (s s' : State) : finish s (.ok s') = reportOk s' := rfl
@[simp] theorem finish_fail (s : State) (e : ErrCode) (info : Word) : finish s (.fail e info) = reportFail e info s := rfl

theorem finish_phase (s : State) (r : CmdOutcome) : (finish s r).phase = .idle := by cases r <;> rfl

theorem withSym_legal {sym : Sym} {s : State} (k : CmdOutcome) (h : sym.toNat < s.cfg.nsymMax) :
    withSym sym s k = k := by simp [withSym, symLegal, h]

theorem withSym_illegal {sym : Sym} {s : State} (k : CmdOutcome) (h : s.cfg.nsymMax ≤ sym.toNat) :
    withSym sym s k = .fail .illegalCommand 2 := by
  simp [withSym, symLegal, Nat.not_lt.2 h, illegal, Illegal.info]

theorem withLen_legal {len : BitVec 8} {s : State} (k : CmdOutcome)
    (h : 1 ≤ len.toNat ∧ len.toNat ≤ s.cfg.codeLenMax) : withLen len s k = k := by
  simp [withLen, lenLegal, h]

theorem withLen_illegal {len : BitVec 8} {s : State} (k : CmdOutcome)
    (h : len.toNat = 0 ∨ s.cfg.codeLenMax < len.toNat) : withLen len s k = .fail .illegalCommand 3 := by
  have : ¬ (1 ≤ len.toNat ∧ len.toNat ≤ s.cfg.codeLenMax) := by omega
  simp [withLen, lenLegal, this, illegal, Illegal.info]

theorem withIndex_in {index : Index} {len : Word} (k : CmdOutcome) (h : index.toNat < len.toNat) :
    withIndex index len k = k := by simp [withIndex, h]

theorem withIndex_out {index : Index} {len : Word} (k : CmdOutcome) (h : len.toNat ≤ index.toNat) :
    withIndex index len k = .fail .rangeError (indexWord index) := by simp [withIndex, Nat.not_lt.2 h]

/-- A legal-operand check passes or fails the command. -/
theorem withSym_cases (sym : Sym) (s : State) (k : CmdOutcome) :
    (sym.toNat < s.cfg.nsymMax ∧ withSym sym s k = k) ∨ withSym sym s k = .fail .illegalCommand 2 := by
  by_cases h : sym.toNat < s.cfg.nsymMax
  · exact .inl ⟨h, withSym_legal k h⟩
  · exact .inr (withSym_illegal k (by omega))

theorem withLen_cases (len : BitVec 8) (s : State) (k : CmdOutcome) :
    ((1 ≤ len.toNat ∧ len.toNat ≤ s.cfg.codeLenMax) ∧ withLen len s k = k) ∨
      withLen len s k = .fail .illegalCommand 3 := by
  by_cases h : 1 ≤ len.toNat ∧ len.toNat ≤ s.cfg.codeLenMax
  · exact .inl ⟨h, withLen_legal k h⟩
  · exact .inr (withLen_illegal k (by omega))

theorem withIndex_cases (index : Index) (len : Word) (k : CmdOutcome) :
    (index.toNat < len.toNat ∧ withIndex index len k = k) ∨
      withIndex index len k = .fail .rangeError (indexWord index) := by
  by_cases h : index.toNat < len.toNat
  · exact .inl ⟨h, withIndex_in k h⟩
  · exact .inr (withIndex_out k (by omega))

/-- Stages in turn: the whole succeeds when each does (R113). -/
@[simp] theorem andThen_ok (s : State) (k : State → CmdOutcome) : (CmdOutcome.ok s).andThen k = k s := rfl
@[simp] theorem andThen_fail (e : ErrCode) (info : Word) (k : State → CmdOutcome) :
    (CmdOutcome.fail e info).andThen k = .fail e info := rfl

/-- The report of a failure is the failed state of R82. -/
theorem failed_reportFail (e : ErrCode) (info : Word) (s : State) : Failed e.code info s (reportFail e info s) :=
  ⟨rfl, rfl, rfl, rfl, rfl, ⟨rfl, rfl, rfl, rfl, rfl, rfl, rfl, rfl, rfl, rfl, rfl⟩⟩

/-- A command whose rule fails ends in the failed state of R82. -/
theorem failsWith_of_rule {i : Instr} {s : State} {e : ErrCode} {info : Word} (h : ruleOf i s = .fail e info) :
    FailsWith i s e.code info := ⟨_, by rw [exec_eq, h, finish_fail], failed_reportFail e info s⟩

/-- The report of a success (R80), over effects that leave the parameters, the report, the interrupts and the world. -/
theorem succeeded_reportOk {s s' : State} (hc : s'.cfg = s.cfg) (hr : s'.report = s.report) (hi : s'.irq = s.irq)
    (he : s'.env = s.env) : Succeeded s (reportOk s') := by
  constructor <;> simp [hc, hr, hi, he, Irq.raise, irqDone]

/-! ## What no command's rule touches -/

/-- A stage of the pipeline leaves these as they are: only its products change. -/
structure StageFrame (s t : State) : Prop where
  cfg    : t.cfg = s.cfg
  phase  : t.phase = s.phase
  report : t.report = s.report
  irq    : t.irq = s.irq
  env    : t.env = s.env
  text   : t.text = s.text
  data   : t.data = s.data

theorem StageFrame.trans {s t u : State} (h : StageFrame s t) (h' : StageFrame t u) : StageFrame s u where
  cfg    := h'.cfg.trans h.cfg
  phase  := h'.phase.trans h.phase
  report := h'.report.trans h.report
  irq    := h'.irq.trans h.irq
  env    := h'.env.trans h.env
  text   := h'.text.trans h.text
  data   := h'.data.trans h.data

/-- Two stages succeed together exactly when each does. -/
theorem andThen_eq_ok {r : CmdOutcome} {k : State → CmdOutcome} {t : State} (h : r.andThen k = .ok t) :
    ∃ s, r = .ok s ∧ k s = .ok t := by
  cases r with
  | ok s => exact ⟨s, rfl, h⟩
  | fail e info => cases h

theorem stage_frame_freqCount {s t : State} (h : freqCountBody s = .ok t) : StageFrame s t := by
  cases h; exact ⟨rfl, rfl, rfl, rfl, rfl, rfl, rfl⟩

theorem stage_frame_buildTree {s t : State} (h : buildTreeBody s = .ok t) : StageFrame s t := by
  unfold buildTreeBody at h
  split at h
  · cases h
  · split at h <;> cases h
    exact ⟨rfl, rfl, rfl, rfl, rfl, rfl, rfl⟩

theorem stage_frame_assignCodes {s t : State} (h : assignCodesBody s = .ok t) : StageFrame s t := by
  unfold assignCodesBody at h
  split at h <;> cases h
  exact ⟨rfl, rfl, rfl, rfl, rfl, rfl, rfl⟩

theorem stage_frame_pack {s t : State} (h : packBody s = .ok t) : StageFrame s t := by
  unfold packBody at h
  split at h
  · cases h
  · split at h
    · cases h
    · split at h <;> cases h
      exact ⟨rfl, rfl, rfl, rfl, rfl, rfl, rfl⟩

theorem stage_frame_compress {s t : State} (h : compressBody s = .ok t) : StageFrame s t := by
  unfold compressBody at h
  split at h
  · cases h
  · obtain ⟨c, h, h4⟩ := andThen_eq_ok h
    obtain ⟨b, h, h3⟩ := andThen_eq_ok h
    obtain ⟨a, h1, h2⟩ := andThen_eq_ok h
    exact (((stage_frame_freqCount h1).trans (stage_frame_buildTree h2)).trans (stage_frame_assignCodes h3)).trans
      (stage_frame_pack h4)

/-- No command's rule touches the parameters, PHASE, the report, the interrupts or the world outside: the report is
`finish`'s (R79, R80). -/
theorem ruleOf_frame {i : Instr} {s t : State} (h : ruleOf i s = .ok t) :
    t.cfg = s.cfg ∧ t.phase = s.phase ∧ t.report = s.report ∧ t.irq = s.irq ∧ t.env = s.env := by
  have stage : ∀ {u}, StageFrame s u →
      u.cfg = s.cfg ∧ u.phase = s.phase ∧ u.report = s.report ∧ u.irq = s.irq ∧ u.env = s.env :=
    fun f => ⟨f.cfg, f.phase, f.report, f.irq, f.env⟩
  cases i with
  | nop | clear => cases h; exact ⟨rfl, rfl, rfl, rfl, rfl⟩
  | textPush sym =>
    simp only [ruleOf, withSym, textPushBody] at h
    split at h
    · split at h <;> cases h
      exact ⟨rfl, rfl, rfl, rfl, rfl⟩
    · cases h
  | freqCount => exact stage (stage_frame_freqCount h)
  | buildTree => exact stage (stage_frame_buildTree h)
  | assignCodes => exact stage (stage_frame_assignCodes h)
  | codeLoad sym len =>
    simp only [ruleOf, withSym, withLen, codeLoadBody] at h
    split at h
    · split at h <;> cases h
      exact ⟨rfl, rfl, rfl, rfl, rfl⟩
    · cases h
  | pack => exact stage (stage_frame_pack h)
  | compress => exact stage (stage_frame_compress h)
  | textRead index | nodeRead index | outRead index =>
    simp only [ruleOf, withIndex] at h
    split at h <;> cases h
    exact ⟨rfl, rfl, rfl, rfl, rfl⟩
  | freqRead sym | codeRead sym =>
    simp only [ruleOf, withSym] at h
    split at h <;> cases h
    exact ⟨rfl, rfl, rfl, rfl, rfl⟩

/-- BUILD_TREE's effects on a table it accepts (R94). -/
theorem ruleOf_buildTree {s : State} (h : FreqReady s) : ruleOf .buildTree s =
    .ok { invalOut (invalCodes s) with tree := treeOf s.freq.counts, queue := queueAfter s.freq.counts } := by
  obtain ⟨-, hv, -, hn, hp, -⟩ := h
  have : ¬ s.freq.nsym = 0 := by intro e; rw [e] at hn; change 0 = _ at hn; omega
  simp only [ruleOf, buildTreeBody, hv, this, if_false, Bool.true_eq_false]

/-- ASSIGN_CODES's effects on a valid tree (R100). -/
theorem ruleOf_assignCodes {s : State} (h : s.tree.valid = true) : ruleOf .assignCodes s =
    .ok { invalOut s with codes := codesOf s.cfg s.tree } := by simp [ruleOf, assignCodesBody, h]

/-- A command that succeeds ends in the report of R80 over its effects. -/
theorem succeeded_of_rule {i : Instr} {s t : State} (h : ruleOf i s = .ok t) :
    exec i s = .next (reportOk t) ∧ Succeeded s (reportOk t) := by
  obtain ⟨h1, -, h3, h4, h5⟩ := ruleOf_frame h
  exact ⟨by rw [exec_eq, h, finish_ok], succeeded_reportOk h1 h3 h4 h5⟩

end Sys2Proof.Machine
end

