-- ==== Sys2Proof/Laws/Frequency.lean ====
section
/-! SUPPORT. What the scan of FREQ_COUNT leaves in FREQ (R89, R90). -/

namespace Sys2Proof.Machine

theorem countOne_length (counts : List Word) (x : Sym) : (countOne counts x).length = counts.length := by
  simp [countOne]

theorem countOne_getD (counts : List Word) (x : Sym) (v : Nat) (hv : v < counts.length) :
    (countOne counts x).getD v 0 = if x.toNat = v then counts.getD v 0 + 1 else counts.getD v 0 := by
  simp only [countOne, List.getD_eq_getElem?_getD, List.getElem?_modify]
  split <;> simp_all

theorem foldl_countOne_length (text : List Sym) (counts : List Word) :
    (text.foldl countOne counts).length = counts.length := by
  induction text generalizing counts with
  | nil => rfl
  | cons x rest ih => simp [ih, countOne_length]

theorem foldl_countOne_getD (text : List Sym) (counts : List Word) (y : Sym) (hy : y.toNat < counts.length) :
    (text.foldl countOne counts).getD y.toNat 0 = counts.getD y.toNat 0 + BitVec.ofNat 32 (text.count y) := by
  induction text generalizing counts with
  | nil => simp
  | cons x rest ih =>
    rw [List.foldl_cons, ih _ (by simpa [countOne_length] using hy), countOne_getD _ _ _ hy, List.count_cons]
    by_cases h : x = y
    · subst h; simp [BitVec.ofNat_add]; ac_rfl
    · have : x.toNat ≠ y.toNat := fun e => h (BitVec.eq_of_toNat_eq e)
      simp [h, this]

/-- FREQ has NSYM_MAX entries (R34). -/
@[simp] theorem countSymbols_length (n : Nat) (text : List Sym) : (countSymbols n text).length = n := by
  simp [countSymbols, foldl_countOne_length]

/-- FREQ[s] is the number of occurrences of s (R45 (c)). -/
theorem countSymbols_getD (n : Nat) (text : List Sym) (y : Sym) (hy : y.toNat < n) :
    (countSymbols n text).getD y.toNat 0 = BitVec.ofNat 32 (text.count y) := by
  rw [countSymbols, foldl_countOne_getD text _ y (by simpa using hy)]
  simp [hy]

/-- FREQ as a list: the count of each symbol in turn (R89). -/
theorem countSymbols_eq_map {n : Nat} (hn : n ≤ 256) (text : List Sym) :
    countSymbols n text = (List.range n).map fun v => BitVec.ofNat 32 (text.count (BitVec.ofNat 8 v)) := by
  apply List.ext_getElem
  · simp
  · intro v h1 h2
    have hv : v < n := by simpa using h1
    have hs : (BitVec.ofNat 8 v).toNat = v := by simp; omega
    have h := countSymbols_getD n text (BitVec.ofNat 8 v) (by omega)
    rw [hs, List.getD_eq_getElem?_getD, List.getElem?_eq_getElem h1] at h
    simpa using h

/-- A count as a number: no count wraps, since a text is shorter than 2^32 (R8 (a)). -/
theorem countSymbols_toNat {n : Nat} {text : List Sym} (ht : text.length < 2 ^ 32) {y : Sym} (hy : y.toNat < n) :
    ((countSymbols n text).getD y.toNat 0).toNat = text.count y := by
  have : text.count y ≤ text.length := List.count_le_length
  rw [countSymbols_getD n text y hy, BitVec.toNat_ofNat]; omega

/-- A symbol has a non-zero count exactly when it stands in the text (R90). -/
theorem countSymbols_ne_zero {n : Nat} {text : List Sym} (ht : text.length < 2 ^ 32) {y : Sym} (hy : y.toNat < n) :
    (countSymbols n text).getD y.toNat 0 ≠ 0 ↔ y ∈ text := by
  rw [← List.count_pos_iff, ← countSymbols_toNat ht hy, ← BitVec.toNat_inj.ne]
  exact Nat.pos_iff_ne_zero.symm

theorem sum_indicator (n k : Nat) :
    ((List.range n).map fun v => if v = k then 1 else 0).sum = if k < n then 1 else 0 := by
  induction n with
  | zero => simp
  | succ n ih =>
    rw [List.range_succ, List.map_append, List.sum_append, ih]
    simp only [List.map_cons, List.map_nil, List.sum_singleton]
    split <;> split <;> split <;> omega

/-- The counts add up to the length of the text (R90). -/
theorem countSymbols_sum {n : Nat} (hn : n ≤ 256) {text : List Sym} (ht : text.length < 2 ^ 32)
    (hs : ∀ x ∈ text, x.toNat < n) : ((countSymbols n text).map BitVec.toNat).sum = text.length := by
  have h1 : (countSymbols n text).map BitVec.toNat = (List.range n).map fun v => text.count (BitVec.ofNat 8 v) := by
    rw [countSymbols_eq_map hn, List.map_map]
    apply List.map_congr_left
    intro v _
    have : text.count (BitVec.ofNat 8 v) ≤ text.length := List.count_le_length
    simp only [Function.comp, BitVec.toNat_ofNat]; omega
  rw [h1]
  clear h1 ht
  induction text with
  | nil => simp
  | cons x rest ih =>
    have hx := hs x (by simp)
    have ih := ih (fun y hy => hs y (by simp [hy]))
    simp only [List.count_cons, List.length_cons, ← ih]
    rw [List.sum_map_add]
    congr 1
    have : ∀ v ∈ List.range n, (if (x == BitVec.ofNat 8 v) = true then 1 else 0) = if v = x.toNat then 1 else 0 := by
      intro v hv
      have hv : v < n := by simpa using hv
      have : x = BitVec.ofNat 8 v ↔ v = x.toNat := by
        rw [← BitVec.toNat_inj]; simp; omega
      simp [this]
    rw [List.map_congr_left this]
    rw [sum_indicator, if_pos hx]

/-- NSYM counts the distinct symbols of the text (R89, R90). -/
theorem distinctCount_countSymbols {n : Nat} (hn : n ≤ 256) {text : List Sym} (ht : text.length < 2 ^ 32)
    (hs : ∀ x ∈ text, x.toNat < n) :
    distinctCount (countSymbols n text) = (List.range n).countP (fun v => BitVec.ofNat 8 v ∈ text) ∧
      distinctCount (countSymbols n text) = text.dedup.length := by
  have h1 : distinctCount (countSymbols n text) = (List.range n).countP (fun v => BitVec.ofNat 8 v ∈ text) := by
    rw [distinctCount, countSymbols_eq_map hn, List.countP_map]
    apply List.countP_congr
    intro v hv
    have hv : v < n := by simpa using hv
    have hb : (BitVec.ofNat 8 v).toNat = v := by simp; omega
    have h := countSymbols_ne_zero (n := n) ht (y := BitVec.ofNat 8 v) (by omega)
    rw [countSymbols_getD _ _ _ (by omega)] at h
    simpa using h
  refine ⟨h1, h1.trans ?_⟩
  rw [List.countP_eq_length_filter]
  have : ((List.range n).filter fun v => decide (BitVec.ofNat 8 v ∈ text)).map (BitVec.ofNat 8) |>.Perm text.dedup := by
    apply (List.perm_ext_iff_of_nodup ?_ (List.nodup_dedup _)).2
    · intro y
      simp only [List.mem_map, List.mem_filter, List.mem_range, decide_eq_true_eq, List.mem_dedup]
      constructor
      · rintro ⟨v, ⟨_, h⟩, rfl⟩; exact h
      · intro h; exact ⟨y.toNat, ⟨hs y h, by simpa using h⟩, by simp⟩
    · refine (List.nodup_range.filter _).map_on ?_
      intro a ha b hb e
      simp only [List.mem_filter, List.mem_range] at ha hb
      have := congrArg BitVec.toNat e
      simp at this; omega
  simpa using this.length_eq

end Sys2Proof.Machine
end

