-- ==== Sys2Proof/Laws/Pack.lean ====
section
/-! SUPPORT. Assembly, padding and packing (R105 to R109), and replay of one code (R112). -/

namespace Sys2Proof.Machine

/-! ## Assembly (R105) -/

/-- The code strings of a text, one after another (R105). -/
def codedText (entries : List CodeEntry) (text : List Sym) : Bits := text.flatMap fun x => codestr (codeAt entries x)

/-- `assemble()` succeeds exactly when every symbol has a code, and gives their codes in input order (R105). -/
theorem assembleFrom_ok_iff (entries : List CodeEntry) (i : Nat) (text : List Sym) (bits : Bits) :
    assembleFrom entries i text = .ok bits ↔
      (∀ x ∈ text, (codeAt entries x).valid = true) ∧ bits = codedText entries text := by
  induction text generalizing i bits with
  | nil =>
    simp only [assembleFrom, codedText, List.flatMap_nil, Except.ok.injEq, List.not_mem_nil, false_imp_iff, implies_true,
      true_and]
    exact eq_comm
  | cons x rest ih =>
    simp only [assembleFrom]
    split
    · rename_i hv
      split
      · rename_i b hb
        obtain ⟨h1, rfl⟩ := (ih (i + 1) b).1 hb
        simp only [Except.ok.injEq, List.mem_cons, forall_eq_or_imp, hv, true_and]
        exact ⟨fun h => ⟨h1, h ▸ rfl⟩, fun h => h.2 ▸ rfl⟩
      · rename_i e he
        simp only [reduceCtorEq, false_iff, not_and]
        intro h
        have := (ih (i + 1) _).2 ⟨fun y hy => h y (by simp [hy]), rfl⟩
        simp [he] at this
    · rename_i hv
      simp [hv]

/-- `assemble()` fails with the first symbol that has no code, and its index (R105). -/
theorem assembleFrom_error {entries : List CodeEntry} {i : Nat} {text : List Sym} {x : Sym} {k : Nat}
    (h : assembleFrom entries i text = .error (x, k)) :
    ∃ j, k = i + j ∧ text[j]? = some x ∧ (codeAt entries x).valid = false ∧
      ∀ m < j, ∀ y, text[m]? = some y → (codeAt entries y).valid = true := by
  induction text generalizing i with
  | nil => simp [assembleFrom] at h
  | cons y rest ih =>
    simp only [assembleFrom] at h
    split at h
    · rename_i hv
      split at h
      · simp at h
      · rename_i e he
        simp only [Except.error.injEq] at h
        subst h
        obtain ⟨j, h1, h2, h3, h4⟩ := ih he
        refine ⟨j + 1, by omega, by simpa using h2, h3, ?_⟩
        intro m hm z hz
        cases m with
        | zero => simp at hz; exact hz ▸ hv
        | succ m => exact h4 m (by omega) z (by simpa using hz)
    · rename_i hv
      simp only [Except.error.injEq, Prod.mk.injEq] at h
      obtain ⟨rfl, rfl⟩ := h
      exact ⟨0, rfl, rfl, by simpa using hv, by simp⟩

/-- Codes are at most `n` bits long, so is each symbol's share of the coded text (R8 (d)). -/
theorem codedText_length_le {entries : List CodeEntry} {text : List Sym} {n : Nat}
    (h : ∀ x, (codeAt entries x).len.toNat ≤ n) : (codedText entries text).length ≤ text.length * n := by
  induction text with
  | nil => simp [codedText]
  | cons x rest ih =>
    have := h x
    simp only [codedText, List.flatMap_cons, List.length_append, codestr_length, List.length_cons, Nat.succ_mul] at *
    omega

/-! ## Padding and packing (R106, R107) -/

theorem extraOf_range (bits : Bits) : 1 ≤ extraOf bits ∧ extraOf bits ≤ 8 := by
  unfold extraOf; omega

theorem padded_length (bits : Bits) : (padded bits).length = 8 * (bits.length / 8 + 2) := by
  simp [padded, extraOf]; omega

@[simp] theorem bytesOf_length (n : Nat) (bits : Bits) : (bytesOf n bits).length = n := by
  induction n generalizing bits with
  | zero => rfl
  | succ n ih => simp [bytesOf, ih]

/-- A byte made of 8 bits shows them again, most significant first (R52). -/
theorem byteBits_valueOf {p : Bits} (h : p.length = 8) : byteBits (BitVec.ofNat 8 (valueOf p)) = p := by
  match p, h with
  | [a, b, c, d, e, f, g, k], _ => revert a b c d e f g k; decide

/-- The bytes carry exactly the bits they were made from (R107). -/
theorem flatMap_byteBits_bytesOf {n : Nat} {bits : Bits} (h : bits.length = 8 * n) :
    (bytesOf n bits).flatMap byteBits = bits := by
  induction n generalizing bits with
  | zero => simp at h; simp [bytesOf, h]
  | succ n ih =>
    rw [bytesOf, List.flatMap_cons, byteBits_valueOf (by simp; omega), ih (by simp; omega), List.take_append_drop]

/-- The header byte is the padding count (R107). -/
theorem outOf_bytes (bits : Bits) : (outOf bits).bytes =
    BitVec.ofNat 8 (extraOf bits) :: bytesOf (bits.length / 8 + 1) (bits ++ List.replicate (extraOf bits) false) := by
  have hr := extraOf_range bits
  have hn : (padded bits).length / 8 = (bits.length / 8 + 1) + 1 := by rw [padded_length]; omega
  have hh : (bitsOf 8 (extraOf bits)).length = 8 := bitsOf_length _ _
  simp only [outOf, hn]
  rw [bytesOf]
  congr 2
  · rw [padded, List.append_assoc, List.take_left' hh, valueOf_bitsOf (by omega)]

/-- OUT_LEN, BIT_LEN and PAD (R109 (a) to (c)), for a bit sequence that fits the registers (R8 (d)). -/
theorem outOf_registers {bits : Bits} (h : bits.length < 2 ^ 32 - 16) :
    (outOf bits).len.toNat = bits.length / 8 + 2 ∧ (outOf bits).bitLen.toNat = bits.length ∧
      (outOf bits).pad.toNat = extraOf bits ∧ (outOf bits).bytes.length = (outOf bits).len.toNat := by
  have hr := extraOf_range bits
  have hn : (padded bits).length / 8 = bits.length / 8 + 2 := by rw [padded_length]; omega
  simp only [outOf, hn, BitVec.toNat_ofNat, bytesOf_length]
  refine ⟨by omega, by omega, by omega, by omega⟩

/-- The payload is the bit sequence followed by its padding (R111). -/
theorem outOf_payload (bits : Bits) :
    ((outOf bits).bytes.drop 1).flatMap byteBits = bits ++ List.replicate (extraOf bits) false := by
  rw [outOf_bytes, List.drop_one, List.tail_cons, flatMap_byteBits_bytesOf]
  simp [extraOf]; omega

/-! ## Replay (R112) -/

/-- Replaying one code from an internal node emits its leaf's symbol and returns to the root. -/
theorem replay_path {nodes : List Node} {root i j : Nat} {q : Bits} (h : PathTo nodes i q j)
    (hl : (nodeAt nodes j).leaf = true) (hq : q ≠ []) (rest : Bits) :
    replay nodes root i (q ++ rest) = (nodeAt nodes j).sym :: replay nodes root root rest := by
  induction q generalizing i with
  | nil => simp at hq
  | cons b q ih =>
    simp only [List.cons_append, replay]
    cases q with
    | nil => 
      have := h.2.2.1
      rw [this, if_pos hl]; rfl
    | cons b' q =>
      have h2 := h.2.2
      rw [if_neg (by simp [h2.2.1]), ih h2 (by simp)]

end Sys2Proof.Machine
end

