-- ==== Sys2Proof/Laws/Memory.lean ====
section
/-! SUPPORT. Every operation on the internal memories keeps their canonical form, and reset has it. -/

namespace Sys2Proof.Machine

/-! ## The empty memories (R40, R44) -/

theorem textBuffer_wf_empty (c : Config) : TextBuffer.empty.wf c := by simp [TextBuffer.wf, TextBuffer.empty]

theorem freqTable_wf_empty (c : Config) : (FreqTable.empty c).wf c := by simp [FreqTable.wf, FreqTable.empty]

theorem tree_wf_empty : Tree.empty.wf := rfl

theorem codeTable_wf_empty (c : Config) : (CodeTable.empty c).wf c := by simp [CodeTable.wf, CodeTable.empty]

theorem outBuffer_wf_empty : OutBuffer.empty.wf := rfl

/-- Reset has the canonical form. -/
theorem memory_wf_resetIn (c : Config) (e : Env) : Memory.wf (State.resetIn c e) :=
  ⟨textBuffer_wf_empty c, freqTable_wf_empty c, tree_wf_empty, codeTable_wf_empty c, outBuffer_wf_empty⟩

/-! ## TEXT (R33, R88) -/

/-- The canonical TEXT is its whole list. -/
theorem input_eq {s : State} (h : s.text.wf s.cfg) : s.input = s.text.entries := by
  rw [State.input, ← h.1, List.take_length]

theorem input_length {s : State} (h : s.text.wf s.cfg) : s.input.length = s.text.len.toNat := by rw [input_eq h, h.1]

theorem input_legal {s : State} (h : s.text.wf s.cfg) : ∀ x ∈ s.input, x.toNat < s.cfg.nsymMax := by
  rw [input_eq h]; exact h.2.2

/-- A text fits 24 bits (R7). -/
theorem text_len_le {s : State} (hc : s.cfg.wf) (h : s.text.wf s.cfg) : s.text.len.toNat ≤ 2 ^ 24 :=
  h.2.1.trans hc.2.2.2.1

/-- TEXT_LEN counts one more symbol without wrapping (R8 (b)). -/
theorem text_len_succ {s : State} (hc : s.cfg.wf) (h : s.text.wf s.cfg) :
    (s.text.len + 1).toNat = s.text.len.toNat + 1 := by
  have := text_len_le hc h
  rw [BitVec.toNat_add]; simp; omega

/-- TEXT_PUSH's append keeps the form. -/
theorem textBuffer_wf_appendText {s : State} {sym : Sym} (hc : s.cfg.wf) (h : s.text.wf s.cfg)
    (hs : sym.toNat < s.cfg.nsymMax) (hn : s.text.len.toNat ≠ s.cfg.textMax) :
    (appendText sym s).text.wf s.cfg := by
  have hl := text_len_succ hc h
  have hi := input_eq h
  obtain ⟨h1, h2, h3⟩ := h
  refine ⟨?_, ?_, ?_⟩
  · simp only [appendText, hi, hl, List.length_append, List.length_singleton, h1]
  · simp only [appendText, hl]; omega
  · intro x hx
    simp only [appendText, hi, List.mem_append, List.mem_singleton] at hx
    rcases hx with hx | rfl
    · exact h3 x hx
    · exact hs

/-! ## FREQ, NODE, CODE and OUT -/

theorem freqTable_wf_freqOf (c : Config) (text : List Sym) : (freqOf c text).wf c := countSymbols_length _ _

/-- A merge adds one node. -/
theorem mergeLoop_length (fuel : Nat) (nodes : List Node) (q : List Nat) :
    (mergeLoop fuel nodes q).1.length ≤ nodes.length + fuel := by
  induction fuel generalizing nodes q with
  | zero => simp [mergeLoop]
  | succ n ih =>
    simp only [mergeLoop]
    split
    · exact Nat.le_add_right _ _
    · rename_i nodes' q' h
      obtain ⟨a, b, q₂, rfl, -⟩ := mergeOnce_some h
      have := ih (nodes ++ [mergeNode nodes a b]) q'
      simp at this; omega

theorem tree_wf_treeOf {counts : List Word} (hl : counts.length ≤ 256) : (treeOf counts).wf := by
  have h1 := mergeLoop_length (leavesFrom 0 counts).length (leavesFrom 0 counts)
    (List.range (leavesFrom 0 counts).length)
  have h2 := leavesFrom_length 0 counts
  have h3 : counts.countP (· ≠ 0) ≤ counts.length := List.countP_le_length
  simp only [Tree.wf, treeOf, BitVec.toNat_ofNat]
  change (huffman counts).1.length ≤ _ at h1
  omega

theorem codeTable_wf_setCode {c : Config} {t : CodeTable} (h : t.wf c) (x : Sym) (e : CodeEntry) :
    (setCode t.entries x e).length = c.nsymMax := by rw [setCode_length]; exact h

theorem walk_length (nodes : List Node) (fuel : Nat) (stack : List (Nat × Bits)) (entries : List CodeEntry) :
    (walk nodes fuel stack entries).length = entries.length := by
  induction fuel generalizing stack entries with
  | zero => simp [walk]
  | succ n ih =>
    cases stack with
    | nil => simp [walk]
    | cons ip stack => simp only [walk]; split <;> simp [ih]

theorem codeTable_wf_codesOf (c : Config) (t : Tree) : (codesOf c t).wf c := by
  have := codeTable_wf_empty c
  simp only [CodeTable.wf, codesOf]
  split
  · exact codeTable_wf_setCode this _ _
  · rw [walk_length]; exact this

/-- A coded text is at most 255 bits a symbol, since LEN has 8 bits (R35, R37). -/
theorem codedText_length_lt {s : State} (hc : s.cfg.wf) (h : s.text.wf s.cfg) (entries : List CodeEntry) :
    (codedText entries s.input).length < 2 ^ 32 - 16 := by
  have h1 := codedText_length_le (entries := entries) (text := s.input) (n := 255)
    (fun x => by have := (codeAt entries x).len.isLt; omega)
  rw [input_length h] at h1
  have := text_len_le hc h
  omega

theorem outBuffer_wf_outOf {bits : Bits} (h : bits.length < 2 ^ 32 - 16) : (outOf bits).wf := (outOf_registers h).2.2.2

/-! ## Every command -/

theorem memory_wf_appendText {s : State} {sym : Sym} (hc : s.cfg.wf) (h : Memory.wf s)
    (hs : sym.toNat < s.cfg.nsymMax) (hn : s.text.len.toNat ≠ s.cfg.textMax) :
    Memory.wf (invalOut (invalCodes (invalTree (invalFreq (appendText sym s))))) :=
  ⟨textBuffer_wf_appendText hc h.1 hs hn, freqTable_wf_empty _, tree_wf_empty, codeTable_wf_empty _, outBuffer_wf_empty⟩

theorem memory_wf_clearRun (s : State) : Memory.wf (clearRun s) :=
  ⟨textBuffer_wf_empty _, freqTable_wf_empty _, tree_wf_empty, codeTable_wf_empty _, outBuffer_wf_empty⟩

theorem memory_wf_freqCountBody {s t : State} (h : Memory.wf s) (he : freqCountBody s = .ok t) : Memory.wf t := by
  cases he
  exact ⟨h.1, freqTable_wf_freqOf _ _, tree_wf_empty, codeTable_wf_empty _, outBuffer_wf_empty⟩

theorem memory_wf_buildTreeBody {s t : State} (hc : s.cfg.wf) (h : Memory.wf s) (he : buildTreeBody s = .ok t) :
    Memory.wf t := by
  unfold buildTreeBody at he
  split at he
  · cases he
  · split at he
    · cases he
    · cases he
      have hl : s.freq.counts.length ≤ 256 := by rw [h.2.1]; exact nsymMax_le hc
      exact ⟨h.1, h.2.1, tree_wf_treeOf hl, codeTable_wf_empty _, outBuffer_wf_empty⟩

theorem memory_wf_assignCodesBody {s t : State} (h : Memory.wf s) (he : assignCodesBody s = .ok t) : Memory.wf t := by
  unfold assignCodesBody at he
  split at he
  · cases he
  · cases he
    exact ⟨h.1, h.2.1, h.2.2.1, codeTable_wf_codesOf _ _, outBuffer_wf_empty⟩

theorem memory_wf_codeLoadBody {s t : State} {sym : Sym} {len : BitVec 8} (h : Memory.wf s)
    (he : codeLoadBody sym len s = .ok t) : Memory.wf t := by
  cases he
  exact ⟨h.1, h.2.1, h.2.2.1, codeTable_wf_setCode h.2.2.2.1 _ _, outBuffer_wf_empty⟩

theorem memory_wf_packBody {s t : State} (hc : s.cfg.wf) (h : Memory.wf s) (he : packBody s = .ok t) :
    Memory.wf t := by
  unfold packBody at he
  split at he
  · cases he
  · split at he
    · cases he
    · rename_i bits hb
      split at he
      · cases he
      · cases he
        obtain ⟨-, rfl⟩ := (assembleFrom_ok_iff _ _ _ _).1 hb
        exact ⟨h.1, h.2.1, h.2.2.1, h.2.2.2.1, outBuffer_wf_outOf (codedText_length_lt hc h.1 _)⟩

theorem memory_wf_compressBody {s t : State} (hc : s.cfg.wf) (h : Memory.wf s) (he : compressBody s = .ok t) :
    Memory.wf t := by
  unfold compressBody at he
  split at he
  · cases he
  · obtain ⟨c, hc', hp⟩ := andThen_eq_ok he
    obtain ⟨b, hb, ha⟩ := andThen_eq_ok hc'
    obtain ⟨a, hf, hb⟩ := andThen_eq_ok hb
    have e1 := stage_frame_freqCount hf
    have e2 := stage_frame_buildTree hb
    have e3 := stage_frame_assignCodes ha
    have h1 := memory_wf_freqCountBody h hf
    have h2 := memory_wf_buildTreeBody (by rw [e1.cfg]; exact hc) h1 hb
    have h3 := memory_wf_assignCodesBody h2 ha
    exact memory_wf_packBody (by rw [e3.cfg, e2.cfg, e1.cfg]; exact hc) h3 hp

/-- EVERY COMMAND KEEPS THE CANONICAL FORM of the internal memories. -/
theorem memory_wf_ruleOf {i : Instr} {s t : State} (hc : s.cfg.wf) (h : Memory.wf s) (he : ruleOf i s = .ok t) :
    Memory.wf t := by
  cases i with
  | nop => cases he; exact h
  | clear => cases he; exact memory_wf_clearRun s
  | textPush sym =>
    rcases withSym_cases sym s (textPushBody sym s) with ⟨hs, e⟩ | e <;> simp only [ruleOf, e] at he
    · unfold textPushBody at he
      split at he
      · cases he
      · rename_i hn; cases he; exact memory_wf_appendText hc h hs hn
    · cases he
  | freqCount => exact memory_wf_freqCountBody h he
  | buildTree => exact memory_wf_buildTreeBody hc h he
  | assignCodes => exact memory_wf_assignCodesBody h he
  | codeLoad sym len =>
    simp only [ruleOf] at he
    rcases withSym_cases sym s (withLen len s (codeLoadBody sym len s)) with ⟨hs, e⟩ | e <;> rw [e] at he
    · rcases withLen_cases len s (codeLoadBody sym len s) with ⟨hs, e⟩ | e <;> rw [e] at he
      · exact memory_wf_codeLoadBody h he
      · cases he
    · cases he
  | pack => exact memory_wf_packBody hc h he
  | compress => exact memory_wf_compressBody hc h he
  | textRead index | nodeRead index | outRead index =>
    simp only [ruleOf, withIndex] at he
    split at he <;> cases he
    exact h
  | freqRead sym | codeRead sym =>
    simp only [ruleOf, withSym] at he
    split at he <;> cases he
    exact h

end Sys2Proof.Machine
end

