-- ==== Sys2Proof/Laws/Compress.lean ====
section
/-! SUPPORT. COMPRESS: its state after the four stages (R113, R114), and the replay of its output (R112). -/

namespace Sys2Proof.Machine

/-- FREQ_COUNT of a non-empty text leaves a table BUILD_TREE accepts (R89, R94). -/
theorem freqReady_freqOf {s : State} (hc : s.cfg.wf) (hm : Memory.wf s) (hn : s.text.len ≠ 0) {t : State}
    (ht : t.cfg = s.cfg) (hf : t.freq = freqOf s.cfg s.input) : FreqReady t := by
  have hl := nsymMax_le hc
  have hlen := input_length hm.1
  have hb := text_len_le hc hm.1
  have hleg := input_legal hm.1
  obtain ⟨d1, d2⟩ := distinctCount_countSymbols hl (by omega) hleg
  have hdl : s.input.dedup.length ≤ s.input.length := (List.dedup_sublist _).length_le
  have hne : s.input ≠ [] := by
    intro e; rw [e] at hlen; exact hn (BitVec.eq_of_toNat_eq (by simpa using hlen.symm))
  have hpos : 1 ≤ s.input.dedup.length := by
    obtain ⟨x, l, e⟩ := List.exists_cons_of_ne_nil hne
    exact List.length_pos_of_mem (List.mem_dedup.2 (e ▸ List.mem_cons_self : x ∈ s.input))
  have hcd : (freqOf s.cfg s.input).counts.countP (· ≠ 0) = s.input.dedup.length := d2
  refine ⟨ht ▸ hc, by rw [hf]; rfl, by rw [hf, ht]; exact countSymbols_length _ _, ?_, by rw [hf, hcd]; exact hpos, ?_⟩
  · rw [hf, hcd]
    simp only [freqOf, BitVec.toNat_ofNat, d2]; omega
  · rw [hf]
    show ((countSymbols s.cfg.nsymMax s.input).map BitVec.toNat).sum < _
    rw [countSymbols_sum hl (by omega) hleg]; omega

/-- Every symbol of the text has a code after the first three stages (R110, R114). -/
theorem codes_of_text {s : State} (hc : s.cfg.wf) (hm : Memory.wf s) {t : HTree}
    (ht : IsCodeTree (freqOf s.cfg s.input).counts t) : ∀ x ∈ s.input,
    (codeAt (codesOf s.cfg (treeOf (freqOf s.cfg s.input).counts)).entries x).valid = true := by
  intro x hx
  have hl := nsymMax_le hc
  have hlen := input_length hm.1
  have hb := text_len_le hc hm.1
  have hne := (countSymbols_ne_zero (n := s.cfg.nsymMax) (text := s.input) (by omega) (input_legal hm.1 x hx)).2 hx
  obtain ⟨ip, -, -, e⟩ := exists_code_of_counted (c := s.cfg) ht (countSymbols_length _ _)
    (by rw [show (freqOf s.cfg s.input).counts.length = _ from countSymbols_length _ _]; exact hl) hne
  rw [e]; rfl

/-- The check of R107 always passes (R106, R110). -/
theorem padded_whole (bits : Bits) : ¬ (padded bits).length % 8 ≠ 0 := by rw [padded_length]; omega

/-- PACK of a text whose symbols all have codes (R108). -/
theorem packBody_ok {s : State} (h : s.codes.valid = true)
    (hx : ∀ x ∈ s.input, (codeAt s.codes.entries x).valid = true) :
    packBody s = .ok { s with out := outOf (codedText s.codes.entries s.input) } := by
  have := (assembleFrom_ok_iff s.codes.entries 0 s.input (codedText s.codes.entries s.input)).2 ⟨hx, rfl⟩
  simp only [packBody, h, this, if_neg (padded_whole _), Bool.true_eq_false, if_false]

/-- The stages after the scan, on a text all of whose symbols get a code (R113). -/
theorem compressBody_stages {s : State} {f : FreqTable} (hn : s.text.len ≠ 0) (hf : freqOf s.cfg s.input = f)
    (hb : FreqReady { invalOut (invalCodes (invalTree s)) with freq := f }) (hq : queueAfter f.counts = [])
    (hv : ∀ x ∈ s.input, (codeAt (codesOf s.cfg (treeOf f.counts)).entries x).valid = true) :
    compressBody s = .ok { s with
      freq := f
      tree := treeOf f.counts
      queue := []
      codes := codesOf s.cfg (treeOf f.counts)
      out := outOf (codedText (codesOf s.cfg (treeOf f.counts)).entries s.input) } := by
  have h1 : freqCountBody s = .ok { invalOut (invalCodes (invalTree s)) with freq := f } := by rw [freqCountBody, hf]
  have h2 := ruleOf_buildTree hb
  have h3 := ruleOf_assignCodes (s := { invalOut (invalCodes { invalOut (invalCodes (invalTree s)) with freq := f }) with
    tree := treeOf f.counts, queue := queueAfter f.counts }) rfl
  simp only [ruleOf] at h2 h3
  rw [compressBody, if_neg hn, h1, andThen_ok, h2, andThen_ok, h3, andThen_ok, hq]
  have hi : ∀ u : State, u.text = s.text → u.input = s.input := fun u e => by rw [State.input, State.input, e]
  rw [packBody_ok, hi]
  · simp only [invalOut, invalCodes, invalTree]
  · simp only [invalOut_text, invalCodes_text, invalTree_text]
  · simp only [codesOf]
  · rw [hi]
    · exact hv
    · simp only [invalOut_text, invalCodes_text, invalTree_text]

/-- COMPRESS OF A NON-EMPTY TEXT, said once: its state after the four stages (R113, R114). -/
theorem compressBody_ok {s : State} (hc : s.cfg.wf) (hm : Memory.wf s) (hn : s.text.len ≠ 0) :
    ∃ t, IsCodeTree (freqOf s.cfg s.input).counts t ∧ compressBody s = .ok { s with
      freq := freqOf s.cfg s.input
      tree := treeOf (freqOf s.cfg s.input).counts
      queue := []
      codes := codesOf s.cfg (treeOf (freqOf s.cfg s.input).counts)
      out := outOf (codedText (codesOf s.cfg (treeOf (freqOf s.cfg s.input).counts)).entries s.input) } := by
  have hr : FreqReady { invalOut (invalCodes (invalTree s)) with freq := freqOf s.cfg s.input } :=
    freqReady_freqOf hc hm hn rfl rfl
  have hl : (freqOf s.cfg s.input).counts.length ≤ 256 := (freqTable_wf_freqOf s.cfg s.input).le.trans (nsymMax_le hc)
  obtain ⟨t, ht⟩ := huffman_isCodeTree hl hr.2.2.2.2.1
  exact ⟨t, ht, compressBody_stages hn rfl hr (treeOf_shape ht hl).2.2.2 (codes_of_text hc hm ht)⟩

/-- The code of a counted symbol leads from the root to its leaf, when there are two leaves or more (R99, R100). -/
theorem code_path {c : Config} (hc : c.wf) {counts : List Word} {t : HTree} (h : IsCodeTree counts t)
    (hlen : counts.length = c.nsymMax) (h2 : 2 ≤ counts.countP (· ≠ 0)) {x : Sym} (hx : counts.getD x.toNat 0 ≠ 0) :
    ∃ i, PathTo (huffman counts).1 t.root (codestr (codeAt (codesOf c (treeOf counts)).entries x)) i ∧
      (nodeAt (huffman counts).1 i).leaf = true ∧ (nodeAt (huffman counts).1 i).sym = x := by
  have hl : counts.length ≤ 256 := hlen ▸ nsymMax_le hc
  obtain ⟨ip, hm, hs, e⟩ := exists_code_of_counted (c := c) h hlen hl hx
  have hle := (code_length_le h hlen hm).2
  have h255 : ip.2.length ≤ 255 := by
    have := nsymMax_le hc; unfold Config.codeLenMax at hle; omega
  have hlv := h.leaves_length
  rw [e, codestr_entryOfPath h255]
  cases t with
  | leaf j => change 1 = _ at hlv; omega
  | node j l r =>
    obtain ⟨q, hq1, hq2, hq3, -⟩ := HTree.pathTo_of_mem_paths h.rep (j := ip.1) (p := ip.2) hm
    rw [List.nil_append] at hq1
    exact ⟨ip.1, hq1 ▸ hq2, hq3, hs⟩

/-- The coded text replays to the text (R112). -/
theorem replay_codedText {c : Config} (hc : c.wf) {counts : List Word} {t : HTree} (h : IsCodeTree counts t)
    (hlen : counts.length = c.nsymMax) (h2 : 2 ≤ counts.countP (· ≠ 0)) {text : List Sym}
    (hx : ∀ x ∈ text, counts.getD x.toNat 0 ≠ 0) :
    replay (huffman counts).1 t.root t.root (codedText (codesOf c (treeOf counts)).entries text) = text := by
  induction text with
  | nil => rfl
  | cons x rest ih =>
    obtain ⟨i, h3, h4, h5⟩ := code_path hc h hlen h2 (hx x (by simp))
    have hne : codestr (codeAt (codesOf c (treeOf counts)).entries x) ≠ [] := by
      intro e
      rw [e] at h3
      obtain rfl : t.root = i := h3.1
      have hlv := h.leaves_length
      cases t with
      | leaf j => change 1 = _ at hlv; omega
      | node j l r => rw [HTree.root, h.rep.2.1] at h4; cases h4
    rw [codedText, List.flatMap_cons, replay_path h3 h4 hne, h5]
    congr 1
    exact ih fun y hy => hx y (by simp [hy])

end Sys2Proof.Machine
end

