-- ==== Sys2Proof/Laws/Encoding.lean ====
section
/-! SUPPORT. The bits of an encoded command (R63 to R70). -/

namespace Sys2Proof

/-- Bits [7:0] are the OPCODE, bits [31:8] the operand bits (R64, R65). -/
theorem getLsbD_encode (i : Instr) (j : Nat) :
    (encode i).getLsbD j = if j < 8 then i.opcode.getLsbD j else i.operandBits.getLsbD (j - 8) := by
  rw [encode]; exact BitVec.getLsbD_append

theorem opcodeOf_encode (i : Instr) : opcodeOf (encode i) = i.opcode := by
  ext j hj; simp [opcodeOf, getLsbD_encode, hj]

/-- A field of the word above the OPCODE is that field of the operand bits. -/
theorem field_encode (i : Instr) (k n : Nat) :
    (encode i).extractLsb' (8 + k) n = i.operandBits.extractLsb' k n := by
  ext j hj
  have h : 8 + k + j - 8 = k + j := by omega
  simp [getLsbD_encode, h]; omega

theorem indexOf_encode (i : Instr) : indexOf (encode i) = i.operandBits := by
  rw [indexOf, field_encode i 0 24]
  ext j hj; simp

/-- SYM in the operand bits of formats S and SL (R65, R66). -/
theorem symOf_operandBits (hi : BitVec 16) (sym : Sym) : (hi ++ sym).extractLsb' 0 8 = sym := by
  ext j hj
  simp only [BitVec.getElem_extractLsb', Nat.zero_add]
  rw [BitVec.getLsbD_append]; simp [hj]

/-- The reserved bits of format S are 0 (R65, R69). -/
theorem reserved_operandBits (sym : Sym) : (0#16 ++ sym).extractLsb' 8 16 = 0 := by
  ext j hj
  simp only [BitVec.getElem_extractLsb']
  rw [BitVec.getLsbD_append]; simp

/-- LEN in the operand bits of format SL, and its reserved bits (R65, R67, R69). -/
theorem lenOf_operandBits (len : BitVec 8) (sym : Sym) :
    (0#8 ++ len ++ sym).extractLsb' 8 8 = len ∧ (0#8 ++ len ++ sym).extractLsb' 16 8 = 0 := by
  constructor
  all_goals
    ext j hj
    simp only [BitVec.getElem_extractLsb']
    rw [BitVec.getLsbD_append, if_neg (by omega), BitVec.getLsbD_append]
    simp
  · simp [hj]
  · intro h; omega

end Sys2Proof
end

