-- ==== Sys2Proof/Laws/Errors.lean ====
section
/-! SUPPORT. Which command can end with which error, and in what state: said once (R124 to R131). -/

namespace Sys2Proof.Machine

/-- What an error of a command says about the command and the state before it (R125 to R131). COMPRESS fails only on an
empty text where the parameters are legal and the memories are in their form (R114, `compressBody_ok`). -/
def ErrorCause (i : Instr) (s : State) : ErrCode → Prop
  | .invalidInput => i = .buildTree ∧ s.freq.valid = true ∧ s.freq.nsym = 0 ∨ i = .compress
  | .lookupError => i = .pack ∧ s.codes.valid = true ∨ i = .compress
  | .structuralError => False
  | .illegalCommand => i.wf s.cfg = false
  | .sequenceError => i = .buildTree ∧ s.freq.valid = false ∨ i = .assignCodes ∧ s.tree.valid = false ∨
      i = .pack ∧ s.codes.valid = false
  | .capacityError => ∃ sym, i = .textPush sym ∧ sym.toNat < s.cfg.nsymMax ∧ s.text.len.toNat = s.cfg.textMax
  | .rangeError => isReadCommand i = true

/-- A failed check of SYM or of what follows it. -/
theorem withSym_fail {sym : Sym} {s : State} {k : CmdOutcome} {e : ErrCode} {info : Word}
    (h : withSym sym s k = .fail e info) :
    (s.cfg.nsymMax ≤ sym.toNat ∧ e = .illegalCommand) ∨ (sym.toNat < s.cfg.nsymMax ∧ k = .fail e info) := by
  by_cases hs : sym.toNat < s.cfg.nsymMax
  · exact .inr ⟨hs, by rwa [withSym_legal k hs] at h⟩
  · rw [withSym_illegal k (by omega)] at h
    cases h; exact .inl ⟨by omega, rfl⟩

theorem withIndex_fail {index : Index} {len : Word} {s : State} {e : ErrCode} {info : Word}
    (h : withIndex index len (.ok s) = .fail e info) : e = .rangeError := by
  obtain ⟨-, hk⟩ | hk := withIndex_cases index len (.ok s) <;> rw [hk] at h <;> cases h
  rfl

theorem packBody_fail {s : State} {e : ErrCode} {info : Word} (h : packBody s = .fail e info) :
    e = .sequenceError ∧ s.codes.valid = false ∨ e = .lookupError ∧ s.codes.valid = true := by
  unfold packBody at h
  split at h
  · rename_i hv; cases h; exact .inl ⟨rfl, hv⟩
  · rename_i hv
    split at h
    · cases h; exact .inr ⟨rfl, by simpa using hv⟩
    · rw [if_neg (padded_whole _)] at h; cases h

theorem compressBody_fail {s : State} {e : ErrCode} {info : Word} (h : compressBody s = .fail e info) :
    e = .invalidInput ∨ e = .lookupError := by
  unfold compressBody at h
  split at h
  · cases h; exact .inl rfl
  · simp only [freqCountBody, andThen_ok, buildTreeBody, freqOf, Bool.true_eq_false, if_false] at h
    split at h
    · cases h; exact .inl rfl
    · simp only [andThen_ok, assignCodesBody, treeOf, Bool.true_eq_false, if_false] at h
      obtain ⟨-, hv⟩ | ⟨he, -⟩ := packBody_fail h
      · cases hv
      · exact .inr he

/-- THE INVERSION OF A FAILURE: a command's rule fails only for the cause of its error. -/
theorem ruleOf_fail {i : Instr} {s : State} {e : ErrCode} {info : Word} (h : ruleOf i s = .fail e info) :
    ErrorCause i s e := by
  cases i with
  | nop | clear | freqCount => cases h
  | textPush sym =>
    obtain ⟨hs, rfl⟩ | ⟨hs, h⟩ := withSym_fail h
    · simp [ErrorCause, Instr.wf, hs]
    · unfold textPushBody at h
      split at h <;> cases h
      exact ⟨sym, rfl, hs, ‹_›⟩
  | codeLoad sym len =>
    obtain ⟨hs, rfl⟩ | ⟨hs, h⟩ := withSym_fail h
    · simp [ErrorCause, Instr.wf, Nat.not_lt.2 hs]
    · by_cases hl : 1 ≤ len.toNat ∧ len.toNat ≤ s.cfg.codeLenMax
      · rw [withLen_legal _ hl] at h; cases h
      · rw [withLen_illegal _ (by omega)] at h
        cases h
        simp only [ErrorCause, Instr.wf, decide_eq_false_iff_not]
        exact fun h => hl h.2
  | buildTree =>
    simp only [ruleOf, buildTreeBody] at h
    split at h
    · cases h; exact .inl ⟨rfl, ‹_›⟩
    · split at h <;> cases h
      exact .inl ⟨rfl, by simpa using ‹¬ s.freq.valid = false›, ‹_›⟩
  | assignCodes =>
    simp only [ruleOf, assignCodesBody] at h
    split at h <;> cases h
    exact .inr (.inl ⟨rfl, ‹_›⟩)
  | pack =>
    obtain ⟨rfl, hv⟩ | ⟨rfl, hv⟩ := packBody_fail h
    · exact .inr (.inr ⟨rfl, hv⟩)
    · exact .inl ⟨rfl, hv⟩
  | compress =>
    obtain rfl | rfl := compressBody_fail h
    · exact .inr rfl
    · exact .inr rfl
  | textRead index | nodeRead index | outRead index =>
    obtain rfl := withIndex_fail h
    rfl
  | freqRead sym | codeRead sym =>
    obtain ⟨hs, rfl⟩ | ⟨-, h⟩ := withSym_fail h
    · simp [ErrorCause, Instr.wf, hs]
    · cases h

/-- The codes of R124 name their errors. -/
theorem ErrCode.code_injective : Function.Injective ErrCode.code := by
  intro a b h; cases a <;> cases b <;> first | rfl | (revert h; decide)

/-- A command that ends with an error's code did so for the cause of that error. -/
theorem exec_errCode {i : Instr} {s t : State} {e : ErrCode} (h : exec i s = .next t)
    (he : t.report.errCode = e.code) : ErrorCause i s e := by
  rw [exec_next_iff] at h
  subst h
  cases hr : ruleOf i s with
  | ok u =>
    rw [hr, finish_ok] at he
    cases e <;> revert he <;> simp [ErrCode.code]
  | fail e' info =>
    rw [hr, finish_fail] at he
    obtain rfl : e' = e := ErrCode.code_injective he
    exact ruleOf_fail hr

end Sys2Proof.Machine
end

