-- ==== Sys2Proof/Laws/Greedy.lean ====
section
/-! SUPPORT. The greedy merge of BUILD_TREE (R92 to R94) and what it makes of the tree: the choices, the weights, the
parents and the paths (R95). -/

namespace Sys2Proof.Machine

/-! ## Waiting nodes -/

/-- Appending a node changes no record below. -/
theorem waiting_append {nodes : List Node} {j i : Nat} (n : Node) (h : j ≤ nodes.length) :
    Waiting (nodes ++ [n]) j i ↔ Waiting nodes j i := by
  unfold Waiting
  refine and_congr_right fun _ => forall_congr' fun k => ?_
  constructor <;> intro h1 h2 <;> have := h1 h2 <;> rw [nodeAt_append [n] (by omega)] at * <;> exact this

theorem greedyAt_append {nodes : List Node} {j : Nat} (n : Node) (h : j < nodes.length) (hg : GreedyAt nodes j) :
    GreedyAt (nodes ++ [n]) j := by
  obtain ⟨h1, h2, h3, h4, h5, h6⟩ := hg
  have hl := h1.1
  have hr := h2.1
  have hk : ∀ a b, a < j → b < j → KeyBefore nodes a b → KeyBefore (nodes ++ [n]) a b := by
    intro a b ha hb hk
    simpa only [KeyBefore, nodeAt_append [n] (by omega : a < nodes.length),
      nodeAt_append [n] (by omega : b < nodes.length)] using hk
  unfold GreedyAt
  rw [nodeAt_append [n] h, nodeAt_append [n] (by omega : (nodeAt nodes j).left.toNat < nodes.length),
    nodeAt_append [n] (by omega : (nodeAt nodes j).right.toNat < nodes.length)]
  simp only [waiting_append n (Nat.le_of_lt h)]
  exact ⟨h1, h2, h3, h4, fun i hi hne => hk _ _ hl hi.1 (h5 i hi hne),
    fun i hi hne hne' => hk _ _ hr hi.1 (h6 i hi hne hne')⟩

/-- Keys are total on distinct nodes (R93). -/
theorem keyBefore_of_not_keyLt {nodes : List Node} {i a : Nat} (h : ¬ keyLt nodes i a = true) (hne : i ≠ a) :
    KeyBefore nodes a i := by
  rw [keyLt_iff] at h
  unfold KeyBefore
  omega

/-- What holds of NODE and QUEUE before and after every merge, beside `MergeInv`. -/
structure GreedyInv (leaves nodes : List Node) (q : List Nat) : Prop where
  merge   : MergeInv leaves nodes q
  nodup   : q.Nodup
  waiting : ∀ i, i ∈ q ↔ Waiting nodes nodes.length i
  greedy  : ∀ j, leaves.length ≤ j → j < nodes.length → GreedyAt nodes j

/-- The records of step 1 are the leaves, the rest are internal (R95 (b)). -/
theorem MergeInv.leaf_iff {leaves nodes : List Node} {q : List Nat} (hl : ∀ n ∈ leaves, n.leaf = true)
    (h : MergeInv leaves nodes q) {i : Nat} (hi : i < nodes.length) :
    (nodeAt nodes i).leaf = true ↔ i < leaves.length := by
  obtain ⟨internal, rfl, h2⟩ := h.split
  constructor
  · intro h3
    by_contra hc
    rw [nodeAt_eq hi, List.getElem_append_right (by omega)] at h3
    simp [(h2 _ (List.getElem_mem _)).1] at h3
  · intro h3
    rw [nodeAt_append _ h3, nodeAt_eq h3]
    exact hl _ (List.getElem_mem h3)

theorem greedyInv_leaves {leaves : List Node} (hl : ∀ n ∈ leaves, n.leaf = true) (hpos : 1 ≤ leaves.length) :
    GreedyInv leaves leaves (List.range leaves.length) where
  merge := mergeInv_leaves hl hpos
  nodup := List.nodup_range
  waiting i := by
    rw [List.mem_range]
    refine ⟨fun h => ⟨h, fun k hk hf => ?_⟩, fun h => h.1⟩
    rw [nodeAt_eq hk, hl _ (List.getElem_mem hk)] at hf
    simp at hf
  greedy j h1 h2 := by omega

theorem greedyInv_mergeOnce {leaves nodes nodes' : List Node} {q q' : List Nat} (hlf : ∀ n ∈ leaves, n.leaf = true)
    (hl : leaves.length ≤ 256) (hi : GreedyInv leaves nodes q) (h : mergeOnce nodes q = some (nodes', q')) :
    GreedyInv leaves nodes' q' := by
  have hm := mergeInv_mergeOnce hl hi.merge h
  have hs := hi.merge.size
  obtain ⟨a, b, q₂, rfl, rfl, hq, ha, hb⟩ := mergeOnce_some h
  have hnd := hq.nodup_iff.1 hi.nodup
  simp only [List.nodup_cons, List.mem_cons, not_or] at hnd
  obtain ⟨⟨hab, ha2⟩, hb2, hq2⟩ := hnd
  have wa := (hi.waiting a).1 (hq.symm.subset (by simp))
  have wb := (hi.waiting b).1 (hq.symm.subset (by simp))
  have hself := nodeAt_append_self nodes (mergeNode nodes a b)
  have hleft : (mergeNode nodes a b).left.toNat = a := by have := wa.1; simp [mergeNode]; omega
  have hright : (mergeNode nodes a b).right.toNat = b := by have := wb.1; simp [mergeNode]; omega
  have hnew : GreedyAt (nodes ++ [mergeNode nodes a b]) nodes.length := by
    unfold GreedyAt
    rw [hself, hleft, hright, nodeAt_append _ wa.1, nodeAt_append _ wb.1]
    simp only [waiting_append _ (Nat.le_refl nodes.length)]
    have hk : ∀ x y, x < nodes.length → y < nodes.length → KeyBefore nodes x y →
        KeyBefore (nodes ++ [mergeNode nodes a b]) x y := by
      intro x y hx hy hk
      simpa only [KeyBefore, nodeAt_append _ hx, nodeAt_append _ hy] using hk
    refine ⟨wa, wb, hab, rfl, fun i hw hne => ?_, fun i hw hne hne' => ?_⟩
    · exact hk _ _ wa.1 hw.1 (keyBefore_of_not_keyLt (ha i ((hi.waiting i).2 hw)) hne)
    · have := (hb i ((hi.waiting i).2 hw)).resolve_left hne
      exact hk _ _ wb.1 hw.1 (keyBefore_of_not_keyLt this hne')
  have hgreedy : ∀ j, leaves.length ≤ j → j < (nodes ++ [mergeNode nodes a b]).length →
      GreedyAt (nodes ++ [mergeNode nodes a b]) j := by
    intro j h1 h2
    simp only [List.length_append, List.length_singleton] at h2
    rcases Nat.lt_or_ge j nodes.length with h3 | h3
    · exact greedyAt_append _ h3 (hi.greedy j h1 h3)
    · obtain rfl : j = nodes.length := by omega
      exact hnew
  refine ⟨hm, ?_, ?_, hgreedy⟩
  · refine List.nodup_append.2 ⟨hq2, by simp, ?_⟩
    intro x hx y hy
    have := ((hi.waiting x).1 (hq.symm.subset (by simp [hx]))).1
    simp at hy; omega
  · intro i
    simp only [List.mem_append, List.mem_singleton, List.length_append, List.length_singleton]
    constructor
    · rintro (h1 | rfl)
      · have hw := (hi.waiting i).1 (hq.symm.subset (by simp [h1]))
        refine ⟨by have := hw.1; omega, fun k hk hf => ?_⟩
        rcases Nat.lt_or_ge k nodes.length with h3 | h3
        · rw [nodeAt_append _ h3] at *
          exact hw.2 k h3 hf
        · obtain rfl : k = nodes.length := by omega
          rw [hself, hleft, hright]
          exact ⟨fun e => ha2 (e ▸ h1), fun e => hb2 (e ▸ h1)⟩
      · refine ⟨by omega, fun k hk hf => ?_⟩
        have hk' : leaves.length ≤ k := by
          by_contra hc
          have := (hm.leaf_iff hlf (i := k) (by simp; omega)).2 (by omega)
          simp [this] at hf
        have hg := hgreedy k hk' (by simp; omega)
        have h1 := hg.1.1
        have h2 := hg.2.1.1
        omega
    · intro hw
      by_cases hn : i = nodes.length
      · exact .inr hn
      · have hlt : i < nodes.length := by have := hw.1; omega
        have hwo : Waiting nodes nodes.length i :=
          (waiting_append (mergeNode nodes a b) (Nat.le_refl _)).1 ⟨hlt, fun k hk => hw.2 k (by omega)⟩
        have hne := hw.2 nodes.length (by omega) (by rw [hself]; rfl)
        rw [hself, hleft, hright] at hne
        have := hq.subset ((hi.waiting i).2 hwo)
        simp only [List.mem_cons] at this
        tauto

/-! ## Weights (R95 (c), (f)) -/

/-- The frequency of a node as a number. -/
def freqNat (nodes : List Node) (i : Nat) : Nat := (nodeAt nodes i).freq.toNat

theorem freqNat_append {nodes : List Node} {i : Nat} (n : Node) (h : i < nodes.length) :
    freqNat (nodes ++ [n]) i = freqNat nodes i := by rw [freqNat, nodeAt_append _ h, freqNat]

/-- What holds of the weights before and after every merge; `total` is the weight of the whole text. -/
structure WeightInv (total n : Nat) (nodes : List Node) (q : List Nat) : Prop where
  total  : (q.map (freqNat nodes)).sum = total
  sums   : ∀ j, n ≤ j → j < nodes.length →
    freqNat nodes j = freqNat nodes (nodeAt nodes j).left.toNat + freqNat nodes (nodeAt nodes j).right.toNat
  mono   : ∀ i j, n ≤ i → i < j → j < nodes.length → freqNat nodes i ≤ freqNat nodes j
  /-- The newest internal node weighs at most twice what any waiting node does: so the next one weighs no less. -/
  newest : ∀ j, n ≤ j → j < nodes.length → ∀ i ∈ q, freqNat nodes j ≤ 2 * freqNat nodes i

theorem weightInv_mergeOnce {leaves nodes nodes' : List Node} {total : Nat} {q q' : List Nat} (ht : total < 2 ^ 32)
    (hl : leaves.length ≤ 256) (hg : GreedyInv leaves nodes q) (hi : WeightInv total leaves.length nodes q)
    (h : mergeOnce nodes q = some (nodes', q')) : WeightInv total leaves.length nodes' q' := by
  have hs := hg.merge.size
  obtain ⟨a, b, q₂, rfl, rfl, hq, ha, hb⟩ := mergeOnce_some h
  have hnd := hq.nodup_iff.1 hg.nodup
  simp only [List.nodup_cons, List.mem_cons, not_or] at hnd
  have hin : ∀ i ∈ a :: b :: q₂, i ∈ q := fun i h => hq.symm.subset h
  have lt : ∀ i ∈ q, i < nodes.length := fun i h => ((hg.waiting i).1 h).1
  have la := lt a (hin a (by simp))
  have lb := lt b (hin b (by simp))
  have hself := nodeAt_append_self nodes (mergeNode nodes a b)
  have hleft : (mergeNode nodes a b).left.toNat = a := by simp [mergeNode]; omega
  have hright : (mergeNode nodes a b).right.toNat = b := by simp [mergeNode]; omega
  have hold : ∀ i, i < nodes.length → freqNat (nodes ++ [mergeNode nodes a b]) i = freqNat nodes i :=
    fun i h => freqNat_append _ h
  have hsum : freqNat nodes a + freqNat nodes b + (q₂.map (freqNat nodes)).sum = total := by
    rw [← hi.total, (hq.map (freqNat nodes)).sum_eq]; simp [Nat.add_assoc]
  have hnew : freqNat (nodes ++ [mergeNode nodes a b]) nodes.length = freqNat nodes a + freqNat nodes b := by
    simp only [freqNat] at *
    rw [hself]
    simp only [mergeNode, BitVec.toNat_add]
    omega
  have hab : freqNat nodes a ≤ freqNat nodes b := by
    have := ha b (hin b (by simp)); rw [keyLt_iff] at this; simp only [freqNat]; omega
  have hle : ∀ i ∈ q₂, freqNat nodes b ≤ freqNat nodes i := by
    intro i hm
    have := (hb i (hin i (by simp [hm]))).resolve_left (fun e => hnd.1.2 (e ▸ hm))
    rw [keyLt_iff] at this; simp only [freqNat]; omega
  have hlast : ∀ j, leaves.length ≤ j → j < nodes.length → freqNat nodes j ≤ freqNat nodes a + freqNat nodes b := by
    intro j h1 h2
    have := hi.newest j h1 h2 a (hin a (by simp))
    omega
  constructor
  · rw [List.map_append, List.sum_append, List.map_congr_left (fun i h => hold i (lt i (hin i (by simp [h]))))]
    simp only [List.map_cons, List.map_nil, List.sum_singleton, hnew]
    omega
  · intro j h1 h2
    simp only [List.length_append, List.length_singleton] at h2
    rcases Nat.lt_or_ge j nodes.length with h3 | h3
    · have hgj := hg.greedy j h1 h3
      have hl1 := hgj.1.1
      have hl2 := hgj.2.1.1
      rw [nodeAt_append _ h3, hold j h3, hold _ (by omega), hold _ (by omega)]
      exact hi.sums j h1 h3
    · obtain rfl : j = nodes.length := by omega
      rw [hnew, hself, hleft, hright, hold a la, hold b lb]
  · intro i j h1 h2 h3
    simp only [List.length_append, List.length_singleton] at h3
    rw [hold i (by omega)]
    rcases Nat.lt_or_ge j nodes.length with h4 | h4
    · rw [hold j h4]; exact hi.mono i j h1 h2 h4
    · obtain rfl : j = nodes.length := by omega
      rw [hnew]; exact hlast i h1 h2
  · intro j h1 h2 i hm
    simp only [List.length_append, List.length_singleton] at h2
    have hi' : freqNat nodes b ≤ freqNat (nodes ++ [mergeNode nodes a b]) i := by
      rcases List.mem_append.1 hm with hm | hm
      · rw [hold i (lt i (hin i (by simp [hm])))]; exact hle i hm
      · obtain rfl := List.mem_singleton.1 hm
        rw [hnew]; omega
    rcases Nat.lt_or_ge j nodes.length with h4 | h4
    · rw [hold j h4]; have := hlast j h1 h4; omega
    · obtain rfl : j = nodes.length := by omega
      rw [hnew]; omega

/-- The leaves' weights add up to the whole text's. -/
theorem leavesFrom_sum (sym : Nat) (counts : List Word) :
    ((leavesFrom sym counts).map fun n => n.freq.toNat).sum = (counts.map BitVec.toNat).sum := by
  induction counts generalizing sym with
  | nil => rfl
  | cons f rest ih =>
    simp only [leavesFrom]
    split
    · rename_i hf; simp [ih, hf]
    · simp [ih, leafNode]

theorem weightInv_leaves (counts : List Word) : WeightInv (counts.map BitVec.toNat).sum (leavesFrom 0 counts).length
    (leavesFrom 0 counts) (List.range (leavesFrom 0 counts).length) := by
  refine ⟨?_, fun j h1 h2 => by omega, fun i j h1 h2 h3 => by omega, fun j h1 h2 => by omega⟩
  rw [← leavesFrom_sum 0]
  congr 1
  apply List.ext_getElem
  · simp
  · intro i h1 h2
    have hi : i < (leavesFrom 0 counts).length := by simpa using h1
    simp [freqNat, nodeAt_eq hi]

/-! ## The finished tree -/

/-- BUILD_TREE'S MERGE, said once: the greedy choices and the weights of the finished node store (R94, R95). -/
theorem huffman_greedy {counts : List Word} (hl : counts.length ≤ 256) (hpos : 1 ≤ counts.countP (· ≠ 0))
    (ht : (counts.map BitVec.toNat).sum < 2 ^ 32) :
    GreedyInv (leavesFrom 0 counts) (huffman counts).1 (huffman counts).2 ∧
      WeightInv (counts.map BitVec.toNat).sum (leavesFrom 0 counts).length (huffman counts).1 (huffman counts).2 := by
  have hlen := leavesFrom_length 0 counts
  have hle : (leavesFrom 0 counts).length ≤ 256 := by
    rw [hlen]; exact List.countP_le_length.trans hl
  have hlf : ∀ n ∈ leavesFrom 0 counts, n.leaf = true := fun _ hn => leaf_of_mem_leavesFrom hn
  exact (mergeLoop_induct (P := fun nodes q => GreedyInv (leavesFrom 0 counts) nodes q ∧
      WeightInv (counts.map BitVec.toNat).sum (leavesFrom 0 counts).length nodes q)
    (fun _ _ _ _ hi h => ⟨greedyInv_mergeOnce hlf hle hi.1 h, weightInv_mergeOnce ht hle hi.1 hi.2 h⟩)
    (leavesFrom 0 counts).length (leavesFrom 0 counts) (List.range (leavesFrom 0 counts).length)
    ⟨greedyInv_leaves hlf (by omega), weightInv_leaves counts⟩ (by simp)).1

/-- Every node but the last has exactly one parent (R95 (d)). -/
theorem exists_unique_parent {leaves nodes : List Node} {r : Nat} (hlf : ∀ n ∈ leaves, n.leaf = true)
    (h : GreedyInv leaves nodes [r]) {i : Nat} (hi : i < nodes.length) (hr : i ≠ r) :
    ∃! j, j < nodes.length ∧ (nodeAt nodes j).leaf = false ∧
      ((nodeAt nodes j).left.toNat = i ∨ (nodeAt nodes j).right.toNat = i) := by
  have hnw : ¬ Waiting nodes nodes.length i := fun hw => hr (by simpa using (h.waiting i).2 hw)
  simp only [Waiting, hi, true_and, not_forall] at hnw
  obtain ⟨j, hj, hlj, hc⟩ := hnw
  refine ⟨j, ⟨hj, hlj, by by_contra hn; exact hc ⟨fun e => hn (.inl e.symm), fun e => hn (.inr e.symm)⟩⟩, ?_⟩
  rintro k ⟨hk, hlk, hck⟩
  have key : ∀ m n, m < n → n < nodes.length → (nodeAt nodes m).leaf = false → (nodeAt nodes n).leaf = false →
      ((nodeAt nodes m).left.toNat = i ∨ (nodeAt nodes m).right.toNat = i) →
      ((nodeAt nodes n).left.toNat = i ∨ (nodeAt nodes n).right.toNat = i) → False := by
    intro m n hmn hn hm hn' h1 h2
    have hge : leaves.length ≤ n := by
      by_contra hc
      have := (h.merge.leaf_iff hlf hn).2 (by omega)
      simp [this] at hn'
    have hg := h.greedy n hge hn
    rcases h2 with e | e
    · have := (e ▸ hg.1).2 m hmn hm; omega
    · have := (e ▸ hg.2.1).2 m hmn hm; omega
  have hcj : (nodeAt nodes j).left.toNat = i ∨ (nodeAt nodes j).right.toNat = i := by
    by_contra hn; exact hc ⟨fun e => hn (.inl e.symm), fun e => hn (.inr e.symm)⟩
  rcases Nat.lt_trichotomy j k with hlt | rfl | hlt
  · exact (key j k hlt hk hlj hlk hcj hck).elim
  · rfl
  · exact (key k j hlt hj hlk hlj hck hcj).elim

/-- Every node of the tree is reached from its top, and a path that ends in a leaf is no longer than the height
(R95 (d), (e)). -/
theorem HTree.exists_path {nodes : List Node} {t : HTree} (h : t.Rep nodes) {i : Nat} (hi : i ∈ t.indices) :
    ∃ p, PathTo nodes t.root p i := by
  induction t with
  | leaf j => obtain rfl := List.mem_singleton.1 hi; exact ⟨[], rfl, h.1⟩
  | node j l r ihl ihr =>
    obtain ⟨h1, h2, h3, h4, -, -, -, h8, h9⟩ := h
    simp only [indices, List.mem_cons, List.mem_append] at hi
    rcases hi with rfl | hi | hi
    · exact ⟨[], rfl, h1⟩
    · obtain ⟨p, hp⟩ := ihl h8 hi
      exact ⟨false :: p, h1, h2, by simpa [childOn, root, h3] using hp⟩
    · obtain ⟨p, hp⟩ := ihr h9 hi
      exact ⟨true :: p, h1, h2, by simpa [childOn, root, h4] using hp⟩

theorem HTree.path_length_le {nodes : List Node} {t : HTree} (h : t.Rep nodes) {i : Nat} {p : Bits}
    (hp : PathTo nodes t.root p i) : p.length ≤ t.height ∧ i ∈ t.indices := by
  induction t generalizing p with
  | leaf j =>
    obtain rfl := hp.of_leaf h.2
    exact ⟨by simp, by simp [indices, hp.1.symm, root]⟩
  | node j l r ihl ihr =>
    obtain ⟨h1, h2, h3, h4, -, -, -, h8, h9⟩ := h
    cases p with
    | nil => exact ⟨by simp, by simp [indices, hp.1.symm, root]⟩
    | cons b p =>
      have hp2 := hp.2.2
      simp only [root, childOn] at hp2
      simp only [height, List.length_cons, indices, List.mem_cons, List.mem_append]
      cases b
      · simp only [Bool.false_eq_true, if_false, h3] at hp2
        have := ihl h8 hp2
        exact ⟨by omega, .inr (.inl this.2)⟩
      · simp only [if_true, h4] at hp2
        have := ihr h9 hp2
        exact ⟨by omega, .inr (.inr this.2)⟩

/-- In a tree whose indices differ, only one path leads to each node (R95 (d), R99). -/
theorem HTree.path_unique {nodes : List Node} {t : HTree} (h : t.Rep nodes) (hn : t.indices.Nodup) {i : Nat}
    {p q : Bits} (hp : PathTo nodes t.root p i) (hq : PathTo nodes t.root q i) : p = q := by
  induction t generalizing p q with
  | leaf j => rw [hp.of_leaf h.2, hq.of_leaf h.2]
  | node j l r ihl ihr =>
    obtain ⟨h1, h2, h3, h4, -, -, -, h8, h9⟩ := h
    simp only [indices, List.nodup_cons, List.nodup_append, List.mem_append, not_or] at hn
    obtain ⟨⟨hjl, hjr⟩, hnl, hnr, hlr⟩ := hn
    have below : ∀ {b p}, PathTo nodes j (b :: p) i →
        (b = false ∧ PathTo nodes l.root p i ∧ i ∈ l.indices) ∨ (b = true ∧ PathTo nodes r.root p i ∧ i ∈ r.indices) := by
      intro b p hp
      have hp2 := hp.2.2
      cases b
      · simp only [childOn, Bool.false_eq_true, if_false, h3] at hp2
        exact .inl ⟨rfl, hp2, (path_length_le h8 hp2).2⟩
      · simp only [childOn, if_true, h4] at hp2
        exact .inr ⟨rfl, hp2, (path_length_le h9 hp2).2⟩
    cases p with
    | nil =>
      cases q with
      | nil => rfl
      | cons b q =>
        obtain rfl : j = i := hp.1
        rcases below hq with ⟨-, -, hm⟩ | ⟨-, -, hm⟩ <;> contradiction
    | cons b p =>
      cases q with
      | nil =>
        obtain rfl : j = i := hq.1
        rcases below hp with ⟨-, -, hm⟩ | ⟨-, -, hm⟩ <;> contradiction
      | cons b' q =>
        rcases below hp with ⟨rfl, hp', hm⟩ | ⟨rfl, hp', hm⟩ <;> rcases below hq with ⟨rfl, hq', hm'⟩ | ⟨rfl, hq', hm'⟩
        · rw [ihl h8 hnl hp' hq']
        · exact absurd rfl (hlr i hm i hm')
        · exact absurd rfl (hlr i hm' i hm)
        · rw [ihr h9 hnr hp' hq']

end Sys2Proof.Machine
end

