-- ==== Sys2Proof/Laws/Kraft.lean ====
section
/-! SUPPORT. The records in use after ASSIGN_CODES, and their Kraft sum (R101 (a), (d)). -/

namespace Sys2Proof.Machine

/-! ## The records in use -/

/-- Writing a record over one not in use puts it among those in use. -/
theorem filter_valid_setCode {entries : List CodeEntry} {x : Sym} {e : CodeEntry} (hx : x.toNat < entries.length)
    (hold : (codeAt entries x).valid = false) (he : e.valid = true) :
    ((setCode entries x e).filter (·.valid)).Perm (e :: entries.filter (·.valid)) := by
  have h1 : setCode entries x e = entries.take x.toNat ++ e :: entries.drop (x.toNat + 1) := by
    rw [setCode, List.set_eq_take_append_cons_drop, if_pos hx]
  have h2 : entries = entries.take x.toNat ++ entries[x.toNat] :: entries.drop (x.toNat + 1) := by
    rw [← List.drop_eq_getElem_cons hx, List.take_append_drop]
  have h3 : entries[x.toNat].valid = false := by simpa [codeAt, hx] using hold
  conv => rhs; rw [h2]
  rw [h1, List.filter_append, List.filter_append, List.filter_cons_of_pos (by simpa using he),
    List.filter_cons_of_neg (by simp [h3])]
  exact List.perm_middle

/-- Writing the codes of different symbols that had none puts exactly those records in use. -/
theorem filter_valid_writeCodes {nodes : List Node} {l : List (Nat × Bits)} {entries : List CodeEntry}
    (hd : l.Pairwise fun a b => (nodeAt nodes a.1).sym ≠ (nodeAt nodes b.1).sym)
    (hlt : ∀ ip ∈ l, (nodeAt nodes ip.1).sym.toNat < entries.length)
    (hold : ∀ ip ∈ l, (codeAt entries (nodeAt nodes ip.1).sym).valid = false) :
    ((writeCodes nodes l entries).filter (·.valid)).Perm
      (l.map (fun ip => entryOfPath ip.2) ++ entries.filter (·.valid)) := by
  induction l generalizing entries with
  | nil => exact .refl _
  | cons a l ih =>
    obtain ⟨hd1, hd2⟩ := List.pairwise_cons.1 hd
    have ha := hlt a (by simp)
    have h := ih (entries := setCode entries (nodeAt nodes a.1).sym (entryOfPath a.2)) hd2
      (fun x hx => by simpa using hlt x (by simp [hx]))
      (fun x hx => by rw [codeAt_setCode ha, if_neg (hd1 x hx)]; exact hold x (by simp [hx]))
    refine h.trans (((filter_valid_setCode ha (hold a (by simp)) rfl).append_left _).trans ?_)
    exact List.perm_middle

/-- The records in use after ASSIGN_CODES are the codes of the leaves (R101 (a)). -/
theorem filter_valid_codesOf {c : Config} {counts : List Word} {t : HTree} (h : IsCodeTree counts t)
    (hlen : counts.length = c.nsymMax) (hl : counts.length ≤ 256) :
    ((codesOf c (treeOf counts)).entries.filter (·.valid)).Perm (t.codes.map fun ip => entryOfPath ip.2) := by
  have hmem : ∀ {y}, y ∈ t.codes → y.1 ∈ t.leaves := fun hy => by
    rw [← t.codes_fst]; exact List.mem_map_of_mem hy
  have hempty : ∀ x : Sym, codeAt (CodeTable.empty c).entries x = CodeEntry.none := by
    intro x; simp only [codeAt, CodeTable.empty, List.getD_eq_getElem?_getD, List.getElem?_replicate]; split <;> rfl
  rw [codesOf_eq h hl]
  refine (filter_valid_writeCodes (h.codes_pairwise hl) ?_ ?_).trans ?_
  · intro y hy; simpa [CodeTable.empty, ← hlen] using (h.leaf_counted hl (hmem hy)).1
  · intro y _; rw [hempty]; rfl
  · have : (CodeTable.empty c).entries.filter (·.valid) = [] := by
      rw [List.filter_eq_nil_iff]
      intro e he
      rw [List.eq_of_mem_replicate he]
      simp [CodeEntry.none]
    rw [this, List.append_nil]

/-! ## The Kraft sum (R101 (d)) -/

/-- The leaves below a top with path `p` fill exactly the share of code space `p` has. -/
theorem HTree.kraft (t : HTree) (p : Bits) (n : Nat) (h : t.height + p.length ≤ n) :
    ((t.paths p).map fun ip => 2 ^ (n - ip.2.length)).sum = 2 ^ (n - p.length) := by
  induction t generalizing p with
  | leaf i => simp [paths]
  | node i l r ihl ihr =>
    simp only [height] at h
    have h1 := ihl (p ++ [false]) (by simp; omega)
    have h2 := ihr (p ++ [true]) (by simp; omega)
    rw [paths, List.map_append, List.sum_append, h1, h2]
    simp only [List.length_append, List.length_singleton]
    rw [show n - p.length = n - (p.length + 1) + 1 by omega, Nat.pow_succ]
    omega
end Sys2Proof.Machine
end

