-- ==== Sys2Proof/Laws/PerInstr.lean ====
section
/-! SUPPORT. Statements made for every instruction, one lemma per constructor. -/

namespace Sys2Proof.Laws.WordFields

/-- The command word carries the OPCODE of R70 in bits [7:0] and the operands of R65 in bits [31:8]. -/
def Statement (i : Instr) : Prop := opcodeOf (encode i) = i.opcode ∧ indexOf (encode i) = i.operandBits

theorem nop : Statement .nop := ⟨opcodeOf_encode _, indexOf_encode _⟩

theorem clear : Statement .clear := ⟨opcodeOf_encode _, indexOf_encode _⟩

theorem textPush (sym : Sym) : Statement (.textPush sym) := ⟨opcodeOf_encode _, indexOf_encode _⟩

theorem freqCount : Statement .freqCount := ⟨opcodeOf_encode _, indexOf_encode _⟩

theorem buildTree : Statement .buildTree := ⟨opcodeOf_encode _, indexOf_encode _⟩

theorem assignCodes : Statement .assignCodes := ⟨opcodeOf_encode _, indexOf_encode _⟩

theorem codeLoad (sym : Sym) (len : BitVec 8) : Statement (.codeLoad sym len) := ⟨opcodeOf_encode _, indexOf_encode _⟩

theorem pack : Statement .pack := ⟨opcodeOf_encode _, indexOf_encode _⟩

theorem compress : Statement .compress := ⟨opcodeOf_encode _, indexOf_encode _⟩

theorem textRead (index : Index) : Statement (.textRead index) := ⟨opcodeOf_encode _, indexOf_encode _⟩

theorem freqRead (sym : Sym) : Statement (.freqRead sym) := ⟨opcodeOf_encode _, indexOf_encode _⟩

theorem nodeRead (index : Index) : Statement (.nodeRead index) := ⟨opcodeOf_encode _, indexOf_encode _⟩

theorem codeRead (sym : Sym) : Statement (.codeRead sym) := ⟨opcodeOf_encode _, indexOf_encode _⟩

theorem outRead (index : Index) : Statement (.outRead index) := ⟨opcodeOf_encode _, indexOf_encode _⟩

end Sys2Proof.Laws.WordFields
end

