-- ==== Sys2Proof/Laws/Registers.lean ====
section
/-! SUPPORT. The registers the host sees: STATUS and its fields (R19, R26), and the code value in CODE_W (R32). -/

namespace Sys2Proof.Machine

theorem isBusy_idle {s : State} (h : s.phase = .idle) : s.isBusy = false := by simp [State.isBusy, h]

theorem isBusy_busy {s : State} {w : Word} (h : s.phase = .busy w) : s.isBusy = true := by simp [State.isBusy, h]

/-- STATUS as a number, field by field (R26). -/
theorem statusWord_toNat (valid errCode : BitVec 4) (err busy : Bool) : (statusWord valid errCode err busy).toNat =
    busy.toNat + 2 * err.toNat + 16 * errCode.toNat + 0x100 * valid.toNat := by
  revert valid errCode err busy; decide

/-- The four valid flags as a number (R26). -/
theorem validFlags_toNat (s : State) : s.validFlags.toNat =
    s.freq.valid.toNat + 2 * s.tree.valid.toNat + 4 * s.codes.valid.toNat + 8 * s.out.valid.toNat := by
  simp only [State.validFlags]
  generalize s.freq.valid = a; generalize s.tree.valid = b; generalize s.codes.valid = c; generalize s.out.valid = d
  revert a b c d; decide

/-- CFG as a number, field by field (R23). -/
theorem cfgWord_toNat {c : Config} (h : c.wf) : (cfgWord c).toNat = c.symBits + 256 * c.codeLenMax := by
  obtain ⟨b, t, base⟩ := c
  have : b ∈ [1, 2, 3, 4, 5, 6, 7, 8] := by have h1 := h.1; have h2 := h.2.1; simp at *; omega
  fin_cases this <;> simp [cfgWord, Config.codeLenMax, Config.nsymMax]

/-- The write of CODE_Wk as an in-bounds update. -/
theorem setCodeW_eq (k : Fin 8) (v : Word) (s : State) :
    setCodeW k v s = { s with data := { s.data with codeW := s.data.codeW.setIfInBounds k.val v } } := by
  have : s.data.codeW.set k.val v = s.data.codeW.setIfInBounds k.val v := by
    ext i hi
    simp [Vector.getElem_set, Vector.getElem_setIfInBounds]
  rw [← this]; rfl

/-! ## The code value CW (R32, R54) -/

theorem toNat_append_add {m n : Nat} (x : BitVec m) (y : BitVec n) : (x ++ y).toNat = x.toNat * 2 ^ n + y.toNat := by
  rw [BitVec.toNat_append, ← Nat.shiftLeft_add_eq_or_of_lt y.isLt, Nat.shiftLeft_eq]

theorem append8_toNat (a b c d e f g h : Word) : (h ++ g ++ f ++ e ++ d ++ c ++ b ++ a).toNat =
    a.toNat + b.toNat * 2 ^ 32 + c.toNat * 2 ^ 64 + d.toNat * 2 ^ 96 + e.toNat * 2 ^ 128 + f.toNat * 2 ^ 160 +
      g.toNat * 2 ^ 192 + h.toNat * 2 ^ 224 := by
  simp only [toNat_append_add]
  omega

/-- CW is the sum over k of CODE_Wk * 2^(32k) (R32). -/
theorem cw_toNat (d : DataRegs) : d.cw.toNat =
    d.codeW[0].toNat + d.codeW[1].toNat * 2 ^ 32 + d.codeW[2].toNat * 2 ^ 64 + d.codeW[3].toNat * 2 ^ 96 +
      d.codeW[4].toNat * 2 ^ 128 + d.codeW[5].toNat * 2 ^ 160 + d.codeW[6].toNat * 2 ^ 192 +
      d.codeW[7].toNat * 2 ^ 224 :=
  append8_toNat ..

/-- A loaded code is CW below LEN (R54, R103). -/
theorem loadedEntry_bits (cw : BitVec 256) (len : BitVec 8) :
    (loadedEntry cw len).bits.toNat = cw.toNat % 2 ^ len.toNat := by
  simp only [loadedEntry, BitVec.toNat_ofNat]
  have h1 : 2 ^ len.toNat ≤ 2 ^ 255 := Nat.pow_le_pow_right (by decide) (by have := len.isLt; omega)
  exact Nat.mod_eq_of_lt ((Nat.mod_lt _ (Nat.two_pow_pos _)).trans_le h1)

theorem append8_extract (v : BitVec 256) :
    (v.extractLsb' 224 32 ++ v.extractLsb' 192 32 ++ v.extractLsb' 160 32 ++ v.extractLsb' 128 32 ++
      v.extractLsb' 96 32 ++ v.extractLsb' 64 32 ++ v.extractLsb' 32 32 ++ v.extractLsb' 0 32).toNat = v.toNat := by
  have := v.isLt
  rw [append8_toNat]
  simp only [BitVec.extractLsb'_toNat, Nat.shiftRight_eq_div_pow]
  omega

/-- CODE_READ puts a value into CW whole (R119). -/
theorem setCw_cw (v : BitVec 256) (s : State) : (setCw v s).data.cw = v :=
  BitVec.eq_of_toNat_eq (append8_extract v)

end Sys2Proof.Machine
end

