-- ==== Sys2Proof/Laws/Steps.lean ====
section
/-! SUPPORT. What a step can do, said once (R150): each kind of event, and the inversion of `step`. -/

namespace Sys2Proof.Machine

/-- A defined access acts on the register at its offset (R48). -/
theorem access_defined {s : State} {b off : Nat} (hb : s.cfg.base = b) (h : off < 256) (h4 : off % 4 = 0)
    (act : Reg → State → State) : access (b + off) 4 s act = .next (act (regAt off) s) := by
  subst hb; simp [access, h4]; omega

/-- An access that is not refused acts on a register of the window. -/
theorem access_next {s t : State} {addr bytes : Nat} {act : Reg → State → State}
    (h : access addr bytes s act = .next t) :
    ∃ off, off < 256 ∧ off % 4 = 0 ∧ bytes = 4 ∧ addr = s.cfg.base + off ∧ t = act (regAt off) s := by
  unfold access at h
  split at h
  · simp at h
  · split at h
    · rename_i h1 h2
      simp only [Host.Outcome.next.injEq] at h
      exact ⟨addr - s.cfg.base, by omega, h2.2, h2.1, by omega, h.symm⟩
    · simp at h

theorem step_read {s : State} {off : Nat} {es : List Event} (h : off < 256) (h4 : off % 4 = 0)
    (hp : s.env.pending = .hostRead (s.cfg.base + off) 4 :: es) :
    step s = .next (readReg (regAt off) (setPending es s)) := by
  simp only [step, hp, runEvent, hostRead]
  exact access_defined (s := setPending es s) rfl h h4 _

theorem step_write {s : State} {off : Nat} {v : Word} {es : List Event} (h : off < 256) (h4 : off % 4 = 0)
    (hp : s.env.pending = .hostWrite (s.cfg.base + off) 4 v :: es) :
    step s = .next (writeReg (regAt off) v (setPending es s)) := by
  simp only [step, hp, runEvent, hostWrite]
  exact access_defined (s := setPending es s) rfl h h4 _

theorem step_reset {s : State} {es : List Event} (hp : s.env.pending = .reset :: es) :
    step s = .next (hardReset (setPending es s)) := by
  simp only [step, hp, runEvent]

/-- The sequencer's turn completes the command in progress (R79). -/
theorem step_sequencer {s : State} {w : Word} {es : List Event} (hw : s.phase = .busy w)
    (hp : s.env.pending = .sequencer :: es) :
    step s = .next (finish (setPending es s) (outcomeOf w (setPending es s))) := by
  simp only [step, hp, runEvent, sequencerStep, setPending_phase, hw, complete_eq]

/-- With no event pending the command in progress completes (R79, R152). -/
theorem step_nil {s : State} {w : Word} (hw : s.phase = .busy w) (hp : s.env.pending = []) :
    step s = .next (finish s (outcomeOf w s)) := by
  simp only [step, hp, sequencerStep, hw, complete_eq]

/-- The sequencer's turn runs on the state with its event taken off the list. -/
theorem SequencerTurn.eq {s u : State} (h : SequencerTurn s u) : u = setPending u.env.pending s := by
  obtain ⟨-, rfl⟩ | ⟨es, -, rfl⟩ := h <;> rfl

/-- The completion step, however the sequencer's turn comes (R79, R81). -/
theorem step_turn {s u : State} {w : Word} (h : SequencerTurn s u) (hw : s.phase = .busy w) :
    step s = .next (finish u (outcomeOf w u)) := by
  obtain ⟨hp, rfl⟩ | ⟨es, hp, rfl⟩ := h
  · exact step_nil hw hp
  · exact step_sequencer hw hp

/-- THE INVERSION OF A STEP: a read, a write, a reset, a completion, or an idle turn (R150).
`u` is the state with the event taken off the list. -/
theorem step_cases {s t : State} (h : step s = .next t) :
    ∃ u, (u = s ∧ s.env.pending = [] ∨ ∃ e es, s.env.pending = e :: es ∧ u = setPending es s) ∧
      ((∃ off es, off < 256 ∧ off % 4 = 0 ∧ s.env.pending = .hostRead (s.cfg.base + off) 4 :: es ∧
          t = readReg (regAt off) u) ∨
        (∃ off v es, off < 256 ∧ off % 4 = 0 ∧ s.env.pending = .hostWrite (s.cfg.base + off) 4 v :: es ∧
          t = writeReg (regAt off) v u) ∨
        (∃ es, s.env.pending = .reset :: es ∧ t = hardReset u) ∨
        (∃ w, SequencerTurn s u ∧ s.phase = .busy w ∧ t = finish u (outcomeOf w u)) ∨
        (SequencerTurn s u ∧ s.phase = .idle ∧ t = u)) := by
  have hseq : ∀ u : State, SequencerTurn s u → sequencerStep u = .next t →
      (∃ w, SequencerTurn s u ∧ s.phase = .busy w ∧ t = finish u (outcomeOf w u)) ∨
        (SequencerTurn s u ∧ s.phase = .idle ∧ t = u) := by
    intro u hturn hs
    have hu : u.phase = s.phase := by rw [hturn.eq, setPending_phase]
    unfold sequencerStep at hs
    split at hs
    · rename_i w hw
      rw [complete_eq] at hs
      exact .inl ⟨w, hturn, hu ▸ hw, by injection hs with hs; exact hs.symm⟩
    · rename_i hw
      exact .inr ⟨hturn, hu ▸ hw, by injection hs with hs; exact hs.symm⟩
  unfold step at h
  split at h
  · rename_i hp
    exact ⟨s, .inl ⟨rfl, hp⟩, .inr (.inr (.inr (hseq s (.inl ⟨hp, rfl⟩) h)))⟩
  · rename_i e es hp
    refine ⟨setPending es s, .inr ⟨e, es, hp, rfl⟩, ?_⟩
    cases e with
    | hostRead addr bytes =>
      obtain ⟨off, h1, h2, rfl, rfl, rfl⟩ := access_next (act := readReg) h
      exact .inl ⟨off, es, h1, h2, hp, rfl⟩
    | hostWrite addr bytes v =>
      obtain ⟨off, h1, h2, rfl, rfl, rfl⟩ := access_next (act := fun r => writeReg r v) h
      exact .inr (.inl ⟨off, v, es, h1, h2, hp, rfl⟩)
    | reset =>
      injection h with h
      exact .inr (.inr (.inl ⟨es, hp, h.symm⟩))
    | sequencer => exact .inr (.inr (.inr (hseq _ (.inr ⟨es, hp, rfl⟩) h)))

end Sys2Proof.Machine
end

