-- ==== Sys2Proof/Tests/Slice0.lean ====
section
/-! SUPPORT. Small tests: each is one step or one decoding, its expected value taken from the spec's encodings
(30_encoding.md) or vectors (95_test_vectors.md), letters renamed to the symbols 0, 1, ... of a small configuration;
and a witness for the hypotheses of each obligation. -/

namespace Sys2Proof.Tests

open Sys2Proof Sys2Proof.Machine

/-! ## Small states -/

/-- NSYM_MAX 4, CODE_LEN_MAX 3, TEXT_MAX 8, OUT_MAX 5 (V-CFG-6). -/
def small : Config := { symBits := 2, textMax := 8, base := 0x1000 }

/-- V-CFG-1's configuration: TEXT_MAX 3. -/
def three : Config := { small with textMax := 3 }

def fresh (c : Config) : State := State.resetIn c { pending := [], readData := 0, freeIndex := 0 }

/-- A state with a text. -/
def text (xs : List Sym) : State :=
  { fresh small with text := { entries := xs, len := BitVec.ofNat 32 xs.length } }

def leaf (sym : Sym) (freq : Word) : Node := { freq := freq, leaf := true, sym := sym, left := 0, right := 0 }

def inner (freq : Word) (left right : BitVec 16) : Node :=
  { freq := freq, leaf := false, sym := 0, left := left, right := right }

def code (len : BitVec 8) (bits : BitVec 255) : CodeEntry := { valid := true, len := len, bits := bits }

/-- "aab" after COMPRESS (V-COMP-1, V-TREE-1, V-CODE-2). -/
def aab : State :=
  { text [0, 0, 1] with
    freq := { counts := [2, 1, 0, 0], nsym := 2, valid := true }
    tree := { nodes := [leaf 0 2, leaf 1 1, inner 3 1 0], nnodes := 3, root := 2, valid := true }
    codes := { entries := [code 1 1, code 1 0, .none, .none], valid := true }
    out := { bytes := [0x05, 0xC0], len := 2, bitLen := 3, pad := 5, valid := true } }

/-- "aaaa" counted (V-SRC-2). -/
def aaaa : State := { text [0, 0, 0, 0] with freq := { counts := [4, 0, 0, 0], nsym := 1, valid := true } }

/-- "ab" with only a = "1" loaded (V-PACK-3). -/
def abLoaded : State :=
  { text [0, 1] with codes := { entries := [code 1 1, .none, .none, .none], valid := true } }

/-- What a command leaves, seen through `f`; nothing when it stops. -/
def after {α : Type} (i : Instr) (s : State) (f : State → α) : Option α :=
  match exec i s with
  | .next t => some (f t)
  | .fault _ => none
  | .refused _ => none

/-- What a step leaves, seen through `f`; nothing when it stops. -/
def afterStep {α : Type} (s : State) (f : State → α) : Option α :=
  match step s with
  | .next t => some (f t)
  | .fault _ => none
  | .refused _ => none

/-- STATUS and ERR_INFO. -/
def report (s : State) : Word × Word := (s.status, s.report.errInfo)

def results (s : State) : List Word := [s.data.result0, s.data.result1, s.data.result2]

/-- A state in a phase, with one event to come. -/
def bus (p : Phase) (e : Event) : State :=
  { fresh small with phase := p, env := { pending := [e], readData := 0, freeIndex := 0 } }

/-- A busy state with no event to come. -/
def busy (w : Word) (s : State) : State := { s with phase := .busy w, report := { s.report with lastCmd := w } }

/-! ## WellFormed refuses each ill-formed command (R66, R67; V-CFG-1, V-CFG-4, V-ENC-8) -/

theorem test_wf_textPush : (Instr.textPush 4).wf small = false ∧ (Instr.textPush 3).wf small = true := by decide
theorem test_wf_freqRead : (Instr.freqRead 4).wf small = false ∧ (Instr.freqRead 3).wf small = true := by decide
theorem test_wf_codeRead : (Instr.codeRead 4).wf small = false ∧ (Instr.codeRead 3).wf small = true := by decide
theorem test_wf_codeLoad_sym : (Instr.codeLoad 4 1).wf small = false ∧ (Instr.codeLoad 3 1).wf small = true := by decide
theorem test_wf_codeLoad_len : (Instr.codeLoad 1 0).wf small = false ∧ (Instr.codeLoad 1 4).wf small = false ∧
    (Instr.codeLoad 1 3).wf small = true ∧ (Instr.codeLoad 0x61 255).wf .reference = true := by decide

/-! ## Decoding: the words of 95_test_vectors.md's table of encodings (R65, R70, R76) -/

theorem test_decode_nop : decode 0x00000000 = .ok .nop := by decide
theorem test_decode_clear : decode 0x00000001 = .ok .clear := by decide
theorem test_decode_textPush : decode 0x00006102 = .ok (.textPush 0x61) := by decide
theorem test_decode_freqCount : decode 0x00000003 = .ok .freqCount := by decide
theorem test_decode_buildTree : decode 0x00000004 = .ok .buildTree := by decide
theorem test_decode_assignCodes : decode 0x00000005 = .ok .assignCodes := by decide
theorem test_decode_codeLoad : decode 0x00036306 = .ok (.codeLoad 0x63 3) := by decide
theorem test_decode_pack : decode 0x00000007 = .ok .pack := by decide
theorem test_decode_compress : decode 0x00000008 = .ok .compress := by decide
theorem test_decode_textRead : decode 0x00000210 = .ok (.textRead 2) := by decide
theorem test_decode_freqRead : decode 0x00006111 = .ok (.freqRead 0x61) := by decide
theorem test_decode_nodeRead : decode 0x00000412 = .ok (.nodeRead 4) := by decide
theorem test_decode_codeRead : decode 0x00007213 = .ok (.codeRead 0x72) := by decide
theorem test_decode_outRead : decode 0x00000114 = .ok (.outRead 1) := by decide

/-- Each field at the ends of its bits, written out bit by bit from R65's patterns. -/
theorem test_decode_field_ends :
    decode 0b00000000_00000000_10000000_00000010 = .ok (.textPush 0x80) ∧
    decode 0b00000000_00000000_00000001_00010001 = .ok (.freqRead 0x01) ∧
    decode 0b00000000_10000000_00000001_00000110 = .ok (.codeLoad 0x01 0x80) ∧
    decode 0b00000000_00000001_10000000_00000110 = .ok (.codeLoad 0x80 0x01) ∧
    decode 0b10000000_00000000_00000001_00010000 = .ok (.textRead 0x800001) ∧
    decode 0b11111111_11111111_11111111_00010100 = .ok (.outRead 0xFFFFFF) := by decide

/-- V-ENC-1 to V-ENC-4. -/
theorem test_decode_undefined_opcode :
    decode 0x00000009 = .error .undefinedOpcode ∧ decode 0x000000FF = .error .undefinedOpcode ∧
    decode 0x00000015 = .error .undefinedOpcode ∧ decode 0x0000000F = .error .undefinedOpcode := by decide

/-- V-ENC-5 to V-ENC-7, V-ENC-10, V-ENC-11 and V-ENC-13. -/
theorem test_decode_reserved_bit :
    decode 0x00000100 = .error .reservedBit ∧ decode 0x80000000 = .error .reservedBit ∧
    decode 0x00016102 = .error .reservedBit ∧ decode 0x01036106 = .error .reservedBit ∧
    decode 0x01006106 = .error .reservedBit ∧ decode 0x00000104 = .error .reservedBit := by decide

/-- The words of 30_encoding.md R76. -/
theorem test_encode : encode (.codeLoad 0x63 3) = 0x00036306 ∧ encode (.textPush 0x61) = 0x00006102 ∧
    encode (.nodeRead 4) = 0x00000412 := by decide

theorem test_decodeTableWord : decodeTableWord 32 0x00007213 = some (.codeRead 0x72) ∧
    decodeTableWord 32 0x00000009 = none := by decide

/-! ## Control -/

/-- V-CTL-2: NOP after an error clears it, and IRQ_STATUS keeps ERROR. -/
theorem test_nop :
    after .nop
      { fresh small with
        report := { lastCmd := 0, err := true, errCode := 4, errInfo := 1 }
        irq := { status := 3, enable := 0 } }
      (fun t => (report t, t.irq.status, t.irqLine)) = some ((0, 0), 3, false) := by decide

/-- V-CTL-3. -/
theorem test_clear : after .clear { aab with data := { aab.data with result0 := 0x80000001 } }
    (fun t => (report t, t.text, t.tree, t.out, t.data.result0)) =
    some ((0, 0), .empty, .empty, .empty, 0x80000001) := by decide

theorem test_clear_tables : after .clear aab (fun t => (t.freq.counts, t.freq.nsym, t.codes.entries)) =
    some ([0, 0, 0, 0], 0, [.none, .none, .none, .none]) := by decide

/-! ## Text input and frequencies -/

/-- V-FREQ-8. -/
theorem test_textPush : after (.textPush 2) aab (fun t => (t.text.len, textAt t 3, report t, t.tree.nnodes, t.out.len)) =
    some (4, 2, (0, 0), 0, 0) := by decide

/-- V-CFG-2 and V-CFG-3. -/
theorem test_textPush_full :
    after (.textPush 1) { text [0, 3, 1] with cfg := three } (fun t => (report t, t.text.len)) =
      some ((0x00000062, 3), 3) ∧
    after (.textPush 4) { text [0, 3, 1] with cfg := three } (fun t => (report t, t.text.len)) =
      some ((0x00000042, 2), 3) := by decide

/-- V-FREQ-2. -/
theorem test_freqCount : after .freqCount (text [0, 0, 1]) (fun t => (t.freq, t.status)) =
    some (aab.freq, 0x00000100) := by decide

/-- V-FREQ-3 and V-FREQ-4. -/
theorem test_freqCount_invalidates :
    after .freqCount aab (fun t => (t.status, t.tree.nnodes, t.out.len)) = some (0x00000100, 0, 0) ∧
    after .freqCount (text []) (fun t => (t.status, t.freq.nsym)) = some (0x00000100, 0) := by decide

/-! ## The tree -/

/-- V-TREE-4: a leaf pops before an internal node of equal frequency. -/
theorem test_buildTree : after .buildTree { text [0, 1, 2, 2] with
      freq := { counts := [1, 1, 2, 0], nsym := 3, valid := true } } (fun t => (t.tree, t.queue, t.status)) =
    some ({ nodes := [leaf 0 1, leaf 1 1, leaf 2 2, inner 2 0 1, inner 4 2 3], nnodes := 5, root := 4, valid := true },
      [], 0x00000300) := by decide

/-- V-TREE-11 and V-TREE-12. -/
theorem test_buildTree_errors :
    after .buildTree { fresh small with freq := { counts := [0, 0, 0, 0], nsym := 0, valid := true } } report =
      some (0x00000112, 0) ∧
    after .buildTree (fresh small) report = some (0x00000052, 0x00000100) := by decide

/-! ## The code table -/

/-- V-CFG-6's tree and codes. -/
theorem test_assignCodes : after .assignCodes { fresh small with tree :=
      { nodes := [leaf 0 1, leaf 1 1, leaf 2 2, leaf 3 4, inner 2 0 1, inner 4 2 4, inner 8 3 5], nnodes := 7, root := 6,
        valid := true } } (fun t => t.codes) =
    some { entries := [code 3 0b110, code 3 0b111, code 2 0b10, code 1 0], valid := true } := by decide

/-- V-CODE-4 and V-CODE-8. -/
theorem test_assignCodes_single :
    after .assignCodes { aaaa with tree := { nodes := [leaf 0 4], nnodes := 1, root := 0, valid := true } }
      (fun t => t.codes.entries) = some [code 1 0, .none, .none, .none] ∧
    after .assignCodes (fresh small) report = some (0x00000052, 0x00000200) := by decide

/-- V-CODE-10: bits of CW at LEN and above are ignored. -/
theorem test_codeLoad : after (.codeLoad 2 2) { fresh small with
      data := { (fresh small).data with codeW := #v[0xFFFFFFFF, 1, 0, 0, 0, 0, 0, 0] } }
    (fun t => (t.codes.entries, t.status)) = some ([.none, .none, code 2 3, .none], 0x00000400) := by decide

/-- V-CFG-4 and V-ENC-8. -/
theorem test_codeLoad_errors :
    after (.codeLoad 1 4) (fresh small) report = some (0x00000042, 3) ∧
    after (.codeLoad 1 0) (fresh small) report = some (0x00000042, 3) ∧
    after (.codeLoad 4 0) (fresh small) report = some (0x00000042, 2) := by decide

/-! ## The packer -/

/-- V-PACK-5's bits "01011", and V-PACK-2's empty text. -/
theorem test_pack :
    after .pack { text [0, 1, 2] with codes := { entries := [code 1 0, code 2 2, code 2 3, .none], valid := true } }
      (fun t => t.out) = some { bytes := [0x03, 0x58], len := 2, bitLen := 5, pad := 3, valid := true } ∧
    after .pack { text [] with codes := abLoaded.codes } (fun t => (t.out, t.status)) =
      some ({ bytes := [0x08, 0x00], len := 2, bitLen := 0, pad := 8, valid := true }, 0x00000C00) := by decide

/-- V-PACK-3's lookup failure (with symbol 1), and V-PACK-1. -/
theorem test_pack_errors :
    after .pack abLoaded (fun t => (report t, t.irq.status, t.out.len)) = some ((0x00000422, 0x01000001), 3, 0) ∧
    after .pack (text [0, 1]) report = some (0x00000052, 0x00000400) := by decide

/-- V-COMP-1: COMPRESS leaves every product of "aab". -/
theorem test_compress : after .compress (text [0, 0, 1]) (fun t => (t.freq, t.tree, t.codes, t.out, t.status)) =
    some (aab.freq, aab.tree, aab.codes, aab.out, 0x00000F00) := by decide

/-- V-SRC-3, and V-CFG-6's output. -/
theorem test_compress_ends :
    after .compress (fresh small) (fun t => (report t, t.irq.status)) = some ((0x00000012, 0), 3) ∧
    after .compress (text [0, 1, 2, 2, 3, 3, 3, 3]) (fun t => (t.out.bytes, t.out.bitLen, t.out.pad)) =
      some ([0x02, 0xDE, 0x80], 14, 2) := by decide

/-! ## Readback (V-RB-1 to V-RB-14) -/

theorem test_textRead : after (.textRead 2) aab results = some [1, 0, 0] ∧
    after (.textRead 3) aab report = some (0x00000F72, 3) := by decide

theorem test_freqRead : after (.freqRead 0) aab results = some [2, 0, 0] ∧
    after (.freqRead 3) aab results = some [0, 0, 0] := by decide

theorem test_nodeRead : after (.nodeRead 2) aab results = some [3, 0, 0x00000001] ∧
    after (.nodeRead 1) aab results = some [1, 0x80000001, 0] := by decide

theorem test_nodeRead_range : after (.nodeRead 3) aab report = some (0x00000F72, 3) := by decide

theorem test_codeRead : after (.codeRead 0) aab (fun t => (results t, t.data.codeW)) =
      some ([0x80000001, 0, 0], #v[1, 0, 0, 0, 0, 0, 0, 0]) ∧
    after (.codeRead 2) aab (fun t => (results t, t.data.cw)) = some ([0, 0, 0], 0) := by decide

/-- V-CODE-11's record, read back. -/
theorem test_codeRead_long : after (.codeRead 0) { fresh small with codes :=
      { entries := [code 255 (BitVec.allOnes 255), .none, .none, .none], valid := true } }
    (fun t => (t.data.result0, t.data.codeW)) = some (0x800000FF, #v[0xFFFFFFFF, 0xFFFFFFFF, 0xFFFFFFFF, 0xFFFFFFFF,
      0xFFFFFFFF, 0xFFFFFFFF, 0xFFFFFFFF, 0x7FFFFFFF]) := by decide

theorem test_outRead : after (.outRead 1) aab results = some [0xC0, 0, 0] ∧
    after (.outRead 2) aab report = some (0x00000F72, 2) := by decide

/-! ## Steps -/

/-- V-RST-1's four read-only values, in the reference implementation. -/
theorem test_reset_values : regValue .reset .id = 0x48554631 ∧ regValue .reset .cfg = 0x0000FF08 ∧
    regValue .reset .cfgTextMax = 0x00010000 ∧ regValue .reset .cfgOutMax = 0x001FE002 := by decide

/-- V-CTL-6: a command written while busy is dropped. -/
theorem test_step_dropped : afterStep (bus (.busy 0x00006102) (.hostWrite 0x1010 4 0x00006202))
    (fun t => (t.phase, t.irq.status)) = some (.busy 0x00006102, 4) := by decide

/-- V-CTL-8: a 1 clears its event bit; reserved bits do nothing. -/
theorem test_step_w1c :
    afterStep { bus .idle (.hostWrite 0x1018 4 2) with irq := { status := 7, enable := 0 } } (fun t => t.irq.status) =
      some 5 ∧
    afterStep { bus .idle (.hostWrite 0x1018 4 0xFFFFFFF8) with irq := { status := 7, enable := 0 } }
      (fun t => t.irq.status) = some 7 := by decide

/-- V-CTL-9: IRQ_ENABLE acts on the level in the same step. -/
theorem test_step_irq : afterStep { bus .idle (.hostWrite 0x101C 4 4) with irq := { status := 5, enable := 2 } }
    (fun t => t.irqLine) = some true := by decide

/-- V-RST-2: a write of a read-only or reserved offset is ignored. -/
theorem test_step_read_only : ∀ off ∈ [0x00, 0x14, 0x28, 0x80],
    afterStep (bus .idle (.hostWrite (0x1000 + off) 4 0xFFFFFFFF)) (fun t => t.env.pending) = some [] ∧
    afterStep (bus .idle (.hostWrite (0x1000 + off) 4 0xFFFFFFFF)) (fun t => { t with env := (fresh small).env }) =
      some (fresh small) := by decide

/-- V-RST-3: a reset in the middle of COMPRESS leaves the reset state. -/
theorem test_step_reset : afterStep { busy 8 (text [0, 0, 1]) with env := (bus .idle .reset).env } (fun t => t) =
    some (fresh small) := by decide

/-- V-ENC-1, V-ENC-5 and V-ENC-13, from the command word to the report. -/
theorem test_step_illegal : afterStep (busy 0x00000009 (fresh small)) report = some (0x00000042, 1) ∧
    afterStep (busy 0x00000100 (fresh small)) report = some (0x00000042, 2) ∧
    afterStep (busy 0x00000104 (fresh small)) report = some (0x00000042, 2) := by decide

/-- The very next step after `withFetchWord` runs the word: V-FREQ-1. -/
theorem test_withFetchWord : afterStep ((fresh .reference).withFetchWord 32 0x00006102)
    (fun t => (t.text.len, textAt t 0, t.report.lastCmd, t.status)) = some (1, 0x61, 0x00006102, 0) := by decide

/-! ## Witnesses: states and operands that meet the hypotheses of each obligation -/

/-- Offsets at the ends of each clause of the register map. -/
def offsets : List Nat := [0x00, 0x0C, 0x10, 0x14, 0x18, 0x1C, 0x20, 0x24, 0x40, 0x44, 0x4C, 0x50, 0x6C, 0x70, 0xFC]

theorem witness_ResetFromAnyState : ∃ (s : State) (es : List Event), s.phase = .busy 8 ∧ s.env.pending = .reset :: es :=
  ⟨bus (.busy 8) .reset, [], by decide⟩

theorem witness_HostWriteEffects : ∀ off ∈ offsets, off < 256 ∧ off % 4 = 0 ∧
    (bus .idle (.hostWrite (0x1000 + off) 4 5)).env.pending =
      .hostWrite ((bus .idle (.hostWrite (0x1000 + off) 4 5)).cfg.base + off) 4 5 :: [] ∧
    (bus (.busy 0) (.hostWrite (0x1000 + off) 4 5)).env.pending =
      .hostWrite ((bus (.busy 0) (.hostWrite (0x1000 + off) 4 5)).cfg.base + off) 4 5 :: [] := by decide

theorem witness_IdleReadReturnsRegister : ∀ off ∈ offsets, off < 256 ∧ off % 4 = 0 ∧
    (bus .idle (.hostRead (0x1000 + off) 4)).phase = .idle ∧ (bus .idle (.hostRead (0x1000 + off) 4)).cfg.wf ∧
    (bus .idle (.hostRead (0x1000 + off) 4)).env.pending =
      .hostRead ((bus .idle (.hostRead (0x1000 + off) 4)).cfg.base + off) 4 :: [] := by decide

theorem witness_BusyReadReturnsFixedBits : ∀ off ∈ offsets, off < 256 ∧ off % 4 = 0 ∧
    (busy 8 (bus .idle (.hostRead (0x1000 + off) 4))).phase = .busy 8 ∧
    (busy 8 (bus .idle (.hostRead (0x1000 + off) 4))).report.lastCmd = 8 ∧
    (busy 8 (bus .idle (.hostRead (0x1000 + off) 4))).cfg.wf ∧
    (busy 8 (bus .idle (.hostRead (0x1000 + off) 4))).env.pending =
      .hostRead ((busy 8 (bus .idle (.hostRead (0x1000 + off) 4))).cfg.base + off) 4 :: [] := by decide

/-- Each clause at its ends: a narrow access, a misaligned one, and the addresses just outside the window. -/
theorem witness_UndefinedAccessStops :
    (∀ p ∈ [(0x1000, 2), (0x1000, 8), (0x1001, 4), (0x10FF, 4)], small.base ≤ p.1 ∧ p.1 < small.base + 256 ∧
      (p.2 ≠ 4 ∨ (p.1 - small.base) % 4 ≠ 0)) ∧
    (∀ a ∈ [0, 0xFFF, 0x1100], a < small.base ∨ small.base + 256 ≤ a) ∧
    (bus .idle (.hostRead 0xFFF 4)).env.pending = .hostRead 0xFFF 4 :: [] ∧
    (bus .idle (.hostWrite 0x1001 4 0)).env.pending = .hostWrite 0x1001 4 0 :: [] := by decide

theorem definedAccess_small {off : Nat} (h : off < 256) (h4 : off % 4 = 0) :
    DefinedAccess small (0x1000 + off) 4 := ⟨rfl, off, h, h4, rfl⟩

theorem witness_DefinedEventHasNextStep : ∃ s : State, s.env.pending ≠ [] ∧
    ∀ e es, s.env.pending = e :: es → e.defined s.cfg :=
  ⟨bus .idle (.hostRead 0x10FC 4), by decide, fun e es h => by
    injection h with h1 h2; subst h1; exact definedAccess_small (off := 0xFC) (by decide) (by decide)⟩

theorem witness_BusyCommandCompletes : ∃ (s : State) (w : Word), s.phase = .busy w ∧ s.env.pending ≠ [] ∧
    ∀ e ∈ s.env.pending, e.defined s.cfg :=
  ⟨bus (.busy 0) (.hostWrite 0x1010 4 1), 0, rfl, by decide, fun e h => by
    obtain rfl := List.mem_singleton.1 h; exact definedAccess_small (off := 0x10) (by decide) (by decide)⟩

theorem witness_StepRunsDecodedCommand : (busy 0x0102 (text [])).phase = .busy 0x0102 ∧
    decode 0x0102 = .ok (.textPush 1) ∧ (busy 0x0102 (text [])).env.pending = [] ∧
    (busy 0x0102 (bus .idle .sequencer)).env.pending = .sequencer :: [] := by decide

/-- Each clause of `StepRejectsIllegalWord` at its ends. -/
theorem witness_StepRejectsIllegalWord :
    (busy 0x09 (text [])).phase = .busy 0x09 ∧ SequencerTurn (busy 0x09 (text [])) (busy 0x09 (text [])) ∧
    (busy 0x09 (bus .idle .sequencer)).phase = .busy 0x09 ∧
    SequencerTurn (busy 0x09 (bus .idle .sequencer)) (setPending [] (busy 0x09 (bus .idle .sequencer))) ∧
    (∀ k ∈ [0x09, 0x0F, 0x15, 0xFF, 0x109], (0x09 ≤ k % 256 ∧ k % 256 ≤ 0x0F) ∨ 0x15 ≤ k % 256) ∧
    (∀ k ∈ [0x00000100, 0x80000008], k % 256 ∈ [0x00, 0x01, 0x03, 0x04, 0x05, 0x07, 0x08] ∧ k / 256 ≠ 0) ∧
    (∀ k ∈ [0x00010002, 0x80000013], k % 256 ∈ [0x02, 0x11, 0x13] ∧ k / 65536 ≠ 0) ∧
    (∀ k ∈ [0x01000006, 0xFF000006], k % 256 = 0x06 ∧ k / 2 ^ 24 ≠ 0) :=
  ⟨rfl, .inl ⟨rfl, rfl⟩, rfl, .inr ⟨[], rfl, rfl⟩, by decide⟩

/-- SYM at NSYM_MAX and at its largest; LEN 0, CODE_LEN_MAX + 1 and 255. -/
theorem witness_IllegalOperandsFail : (∀ x ∈ [(4 : Sym), 255], (fresh small).cfg.nsymMax ≤ x.toNat) ∧
    (3 : Sym).toNat < (fresh small).cfg.nsymMax ∧
    (∀ l ∈ [(0 : BitVec 8), 4, 255], l.toNat = 0 ∨ (fresh small).cfg.codeLenMax < l.toNat) := by decide

theorem witness_CompletionAndCommandWriteRace : ∃ s : State, s.phase = .busy 0 ∧
    s.env.pending = .hostWrite (s.cfg.base + 0x10) 4 1 :: .sequencer :: [] :=
  ⟨{ bus (.busy 0) .sequencer with env := { (fresh small).env with pending := [.hostWrite 0x1010 4 1, .sequencer] } },
    by decide⟩

theorem witness_CompletionAndCommandWriteRace_after : ∃ s : State, s.phase = .busy 0 ∧
    s.env.pending = .sequencer :: .hostWrite (s.cfg.base + 0x10) 4 1 :: [] :=
  ⟨{ bus (.busy 0) .sequencer with env := { (fresh small).env with pending := [.sequencer, .hostWrite 0x1010 4 1] } },
    by decide⟩

theorem witness_EncodeOfDecode : decode 0x00036206 = .ok (.codeLoad 0x62 3) := by decide

theorem witness_ClearComparedWithReset : aab.phase = .idle ∧ aab.queue = [] := by decide

/-- The last symbol of the alphabet, into an empty text and into one with a single place left. -/
theorem witness_TextPushAppends : small.wf ∧ (∀ xs ∈ [([] : List Sym), [0, 1, 2, 3, 0, 1, 2]],
    Memory.wf (text xs) ∧ (3 : Sym).toNat < (text xs).cfg.nsymMax ∧ (text xs).text.len.toNat ≠ (text xs).cfg.textMax) := by
  decide

theorem witness_TextPushIntoFullBuffer :
    (3 : Sym).toNat < small.nsymMax ∧ (text [0, 1, 2, 3, 0, 1, 2, 3]).text.len.toNat = small.textMax ∧
    after (.textPush 3) (text [0, 1, 2, 3, 0, 1, 2, 3]) (fun t => t.report.errCode) = some 6 := by decide

theorem witness_FreqCountCountsSymbols : aab.cfg.wf ∧ Memory.wf aab := by decide

theorem witness_FreqTableProperties : (text [0, 0, 1]).cfg.wf ∧ Memory.wf (text [0, 0, 1]) ∧ Memory.wf (text [1, 0, 0]) ∧
    (text [1, 0, 0]).cfg = (text [0, 0, 1]).cfg ∧ (text [0, 0, 1]).input.Perm (text [1, 0, 0]).input := by decide

/-- The hypothesis of the BUILD_TREE and ASSIGN_CODES obligations: with two symbols, with one, and with all. -/
theorem witness_FreqReady : FreqReady aab ∧ FreqReady aaaa ∧
    FreqReady { fresh small with freq := { counts := [1, 1, 1, 1], nsym := 4, valid := true } } := by decide

theorem witness_SequenceErrors :
    (text [0]).freq.valid = false ∧ (text [0]).tree.valid = false ∧ (text [0]).codes.valid = false ∧
    after .pack (text [0]) (fun t => t.report.errCode) = some 5 := by decide

theorem witness_InvalidInputCases :
    { fresh small with freq := { counts := [0, 0, 0, 0], nsym := 0, valid := true } }.freq.valid = true ∧
    { fresh small with freq := { counts := [0, 0, 0, 0], nsym := 0, valid := true } }.freq.nsym = 0 ∧
    (fresh small).text.len = 0 ∧ (fresh small).cfg.wf ∧ Memory.wf (fresh small) ∧
    after .compress (fresh small) (fun t => t.report.errCode) = some 1 := by decide

theorem witness_SingleSymbolTreeAndCode : FreqReady aaaa ∧ aaaa.freq.nsym = 1 ∧ freqAt aaaa 0 ≠ 0 := by decide

theorem witness_AssignCodesCompletes : aab.tree.valid = true := by decide

theorem witness_AssignedCodesArePaths : FreqReady aab ∧ 2 ≤ aab.freq.nsym.toNat := by decide

/-- LEN at both ends. -/
theorem witness_CodeLoadWritesEntry : aab.codes.entries.length = aab.cfg.nsymMax ∧ (3 : Sym).toNat < aab.cfg.nsymMax ∧
    (∀ l ∈ [(1 : BitVec 8), 3], 1 ≤ l.toNat ∧ l.toNat ≤ aab.cfg.codeLenMax) := by decide

/-- With a text, and with an empty one. -/
theorem witness_PackEncodesText : (aab.cfg.wf ∧ Memory.wf aab ∧ aab.codes.valid = true ∧
      ∀ x ∈ aab.input, (codeAt aab.codes.entries x).valid = true) ∧
    (Memory.wf { text [] with codes := abLoaded.codes } ∧ { text [] with codes := abLoaded.codes }.codes.valid = true ∧
      { text [] with codes := abLoaded.codes }.input = []) := by decide

/-- The clause of `PackLengthLaws` on FREQ. -/
theorem witness_PackLengthLaws : ∀ v < aab.cfg.nsymMax,
    (freqAt aab (BitVec.ofNat 8 v)).toNat = aab.input.count (BitVec.ofNat 8 v) := by decide

theorem witness_PackReportsFirstMissingCode : abLoaded.cfg.wf ∧ Memory.wf abLoaded ∧ abLoaded.codes.valid = true ∧
    abLoaded.input[1]? = some 1 ∧ (codeAt abLoaded.codes.entries 1).valid = false ∧
    (∀ m < 1, ∀ y, abLoaded.input[m]? = some y → (codeAt abLoaded.codes.entries y).valid = true) := by
  refine ⟨by decide, by decide, by decide, by decide, by decide, fun m hm y hy => ?_⟩
  obtain rfl : m = 0 := by omega
  cases hy; decide

theorem witness_NeverStructuralOrReservedError : ∃ t, exec (.outRead 2) aab = .next t ∧ t.report.errCode = 7 :=
  ⟨_, rfl, by decide⟩

/-- The hypotheses of the COMPRESS obligations: with two symbols, and with one. -/
theorem witness_CompressSucceeds :
    (aab.cfg.wf ∧ Memory.wf aab ∧ aab.text.len ≠ 0) ∧ (aaaa.cfg.wf ∧ Memory.wf aaaa ∧ aaaa.text.len ≠ 0) := by decide

theorem witness_CompressedBitsReplayToText :
    after .compress aab (fun t => t.freq.nsym) = some 2 ∧ after .compress aaaa (fun t => t.freq.nsym) = some 1 := by decide

theorem witness_ClearedRunsAreIsolated : aab.cfg = (busy 9 abLoaded).cfg ∧ aab ≠ busy 9 abLoaded := by decide

/-- The last index below each length. -/
theorem witness_reads : (2 : Index).toNat < aab.text.len.toNat ∧ (3 : Sym).toNat < aab.cfg.nsymMax ∧
    (2 : Index).toNat < aab.tree.nnodes.toNat ∧ (1 : Index).toNat < aab.out.len.toNat := by decide

/-- The first index at each length, and the largest there is. -/
theorem witness_RangeErrors : aab.text.len.toNat ≤ (3 : Index).toNat ∧ aab.tree.nnodes.toNat ≤ (3 : Index).toNat ∧
    aab.out.len.toNat ≤ (2 : Index).toNat ∧ aab.out.len.toNat ≤ (0xFFFFFF : Index).toNat := by decide

/-- With no event pending, and with the sequencer's turn pending. -/
theorem witness_CompletionWritesReport : ((busy 8 aab).phase = .busy 8 ∧ SequencerTurn (busy 8 aab) (busy 8 aab)) ∧
    ((busy 8 (bus .idle .sequencer)).phase = .busy 8 ∧
      SequencerTurn (busy 8 (bus .idle .sequencer)) (setPending [] (busy 8 (bus .idle .sequencer)))) :=
  ⟨⟨rfl, .inl ⟨rfl, rfl⟩⟩, rfl, .inr ⟨[], rfl, rfl⟩⟩

/-- An undefined opcode, with no event pending and with the sequencer's turn pending. -/
theorem witness_FailureIsAtomic :
    (SequencerTurn (busy 9 aab) (busy 9 aab) ∧ ∃ t, step (busy 9 aab) = .next t ∧ t.report.err = true) ∧
    (SequencerTurn (busy 9 (bus .idle .sequencer)) (setPending [] (busy 9 (bus .idle .sequencer))) ∧
      ∃ t, step (busy 9 (bus .idle .sequencer)) = .next t ∧ t.report.err = true) :=
  ⟨⟨.inl ⟨rfl, rfl⟩, _, rfl, by decide⟩, .inr ⟨[], rfl, rfl⟩, _, rfl, by decide⟩

theorem witness_DataRegisterWritePolicy :
    afterStep (busy 0x00000212 aab) (fun t => decide (t.data.result0 = aab.data.result0)) = some false ∧
    afterStep (busy 0x00000013 aab) (fun t => decide (t.data.codeW = aab.data.codeW)) = some false ∧
    afterStep (bus .idle (.hostWrite 0x106C 4 5)) (fun t => decide (t.data.codeW = (fresh small).data.codeW)) =
      some false ∧
    afterStep { bus .idle .reset with data := { (fresh small).data with result1 := 5 } } (fun t => t.data.result1) =
      some 0 := by decide

theorem witness_EventBitsAreSticky :
    afterStep { bus .idle (.hostWrite 0x1018 4 2) with irq := { status := 7, enable := 0 } }
      (fun t => (t.irq.status.getLsbD 0, t.irq.status.getLsbD 1, t.irq.status.getLsbD 2)) = some (true, false, true) := by
  decide

theorem witness_ParametersNeverChange : ∃ s t : State, step s = .next t ∧ t ≠ s :=
  ⟨busy 1 aab, _, rfl, by decide⟩

theorem witness_ResetHasInv : small.wf ∧ Config.reference.wf := by decide

/-- Parameters at both ends of R7's ranges are legal; beyond them they are not. -/
theorem witness_config_ends : Config.wf { symBits := 1, textMax := 1, base := 0 } ∧
    Config.wf { symBits := 8, textMax := 526343, base := 0xFFFFFF00 } ∧
    ¬ Config.wf { symBits := 8, textMax := 526344, base := 0 } ∧
    ¬ Config.wf { symBits := 0, textMax := 1, base := 0 } ∧ ¬ Config.wf { symBits := 9, textMax := 1, base := 0 } ∧
    ¬ Config.wf { symBits := 1, textMax := 1, base := 4 } := by decide

/-- "aab" after COMPRESS meets the invariant, so its hypotheses are met by a state with every product valid. -/
theorem witness_Inv : Inv aab where
  params := by decide
  memory := by decide
  products := {
    freqValid := by decide
    freqInvalid := by decide
    treeValid := by decide
    treeInvalid := by decide
    codesInvalid := by decide
    outValid := fun _ => ⟨by decide, [true, true, false], by decide, by decide⟩
    outInvalid := by decide }
  queue := by decide
  codes := by unfold CodeOk; decide
  nodesFit := by decide
  outFits := by decide
  busy := fun w h => by cases h
  errCode := by decide

theorem witness_ReachableIdleStatesMeetR45 : ∃ (e : Env) (t : State), small.wf ∧ e.pending ≠ [] ∧
    Host.Core.run Sys2Proof.core 1 (State.resetIn small e) = .next t ∧ t.phase = .idle :=
  ⟨{ pending := [.sequencer], readData := 0, freeIndex := 0 }, _, by decide, by decide, rfl, rfl⟩

theorem witness_StepKeepsInv : ∃ s t : State, Inv s ∧ step s = .next t := ⟨aab, aab, witness_Inv, rfl⟩

end Sys2Proof.Tests
end

section
/-! The whole-machine rules: the interrupt output (R46), the parameters (R47), and the invariant `Inv` with R45. -/

namespace Sys2Proof.Machine

/-! ## What a host write and a completion can do -/

/-- A host write does nothing, is dropped, issues a command, sets a CODE_W register, acknowledges events, or stores
the enables (R21, R27, R28, R32, R77, R78, R87). -/
theorem writeReg_cases (r : Reg) (v : Word) (s : State) :
    writeReg r v s = s ∨ writeReg r v s = dropWrite s ∨ s.phase = .idle ∧ writeReg r v s = issue v s ∨
      s.phase = .idle ∧ (∃ k, writeReg r v s = setCodeW k v s) ∨ writeReg r v s = acknowledge v s ∨
      writeReg r v s = { s with irq := s.irq.setEnable v } := by
  cases r with
  | cmd => cases hp : s.phase <;> simp [writeReg, State.isBusy, hp]
  | codeW k =>
    cases hp : s.phase with
    | idle => simp only [writeReg, isBusy_idle hp]; exact .inr (.inr (.inr (.inl ⟨trivial, k, rfl⟩)))
    | busy w => simp only [writeReg, isBusy_busy hp]; exact .inr (.inl rfl)
  | irqStatus => exact .inr (.inr (.inr (.inr (.inl rfl))))
  | irqEnable => exact .inr (.inr (.inr (.inr (.inr rfl))))
  | _ => exact .inl rfl

theorem writeReg_cfg (r : Reg) (v : Word) (s : State) : (writeReg r v s).cfg = s.cfg := by
  obtain h | h | ⟨-, h⟩ | ⟨-, k, h⟩ | h | h := writeReg_cases r v s <;> rw [h] <;> rfl

theorem finish_outcomeOf_cfg (w : Word) (s : State) : (finish s (outcomeOf w s)).cfg = s.cfg := by
  cases h : outcomeOf w s with
  | ok t =>
    obtain ⟨i, -, hi⟩ := outcomeOf_eq_ok h
    exact (ruleOf_frame hi).1
  | fail e info => rfl

/-! ## The interrupt output (R46) -/

theorem ne_zero_iff_exists_getLsbD {n : Nat} (x : BitVec n) : x ≠ 0 ↔ ∃ k < n, x.getLsbD k = true := by
  constructor
  · intro hx
    by_contra hno
    exact hx (BitVec.eq_of_getLsbD_eq fun k hk => by
      have := fun e => hno ⟨k, hk, e⟩
      simpa using this)
  · rintro ⟨k, -, hk⟩ rfl
    simp at hk

/-! ## The parameters (R47) -/

/-- R47: a command, a host access and a reset leave the parameters as they are. -/
theorem step_cfg {s t : State} (h : step s = .next t) : t.cfg = s.cfg := by
  obtain ⟨u, hu, hcases⟩ := step_cases h
  have hcfg : u.cfg = s.cfg := by obtain ⟨rfl, -⟩ | ⟨e, es, -, rfl⟩ := hu <;> rfl
  rw [← hcfg]
  obtain ⟨off, es, -, -, -, rfl⟩ | ⟨off, v, es, -, -, -, rfl⟩ | ⟨es, -, rfl⟩ | ⟨w, -, -, rfl⟩ | ⟨-, -, rfl⟩ := hcases
  · exact readReg_cfg u _
  · exact writeReg_cfg _ v u
  · exact hardReset_cfg u
  · exact finish_outcomeOf_cfg w u
  · rfl

/-- The constant registers hold the parameters, and a read finds that value IDLE or BUSY (R22 to R24, R147). -/
theorem readValue_congr_cfg {s t : State} (h : t.cfg = s.cfg) {r : Reg}
    (hr : r ∈ [Reg.id, .cfg, .cfgTextMax, .cfgOutMax]) : readValue t r = readValue s r := by
  have hconst : ∀ u : State, readValue u r = regValue u r := by
    intro u
    fin_cases hr <;> simp [readValue, regValueBusy]
  rw [hconst, hconst]
  fin_cases hr <;> simp [regValue, h]

/-! ## The invariant: what does not touch the memories -/

section Invariant

variable {s : State}

/-- The invariant speaks of PHASE and the report only in its last two clauses, and not of the interrupts, the data
registers or the world outside. -/
theorem Inv.update (h : Inv s) (p : Phase) (r : Report) (q : Irq) (d : DataRegs) (e : Env)
    (hb : ∀ w, p = .busy w → r.lastCmd = w ∧ r.err = false ∧ r.errCode = 0) (hc : r.errCode.toNat ≤ 7) :
    Inv { s with phase := p, report := r, irq := q, data := d, env := e } where
  params := h.params
  memory := h.memory
  products := ⟨h.products.freqValid, h.products.freqInvalid, h.products.treeValid, h.products.treeInvalid,
    h.products.codesInvalid, h.products.outValid, h.products.outInvalid⟩
  queue := h.queue
  codes := h.codes
  nodesFit := h.nodesFit
  outFits := h.outFits
  busy := hb
  errCode := hc

/-- An update of the interrupts, the data registers and the world outside keeps the invariant. -/
theorem Inv.updateOutside (h : Inv s) (q : Irq) (d : DataRegs) (e : Env) :
    Inv { s with irq := q, data := d, env := e } :=
  h.update s.phase s.report q d e h.busy h.errCode

theorem Inv.setPending (h : Inv s) (es : List Event) : Inv (setPending es s) := h.updateOutside _ _ _

theorem Inv.readReg (h : Inv s) (r : Reg) : Inv (readReg r s) := h.updateOutside _ _ _

theorem Inv.issue (h : Inv s) (w : Word) : Inv (issue w s) :=
  h.update _ _ _ _ _ (by rintro _ ⟨⟩; exact ⟨rfl, rfl, rfl⟩) (by simp)

theorem Inv.writeReg (h : Inv s) (r : Reg) (v : Word) : Inv (writeReg r v s) := by
  obtain e | e | ⟨-, e⟩ | ⟨-, k, e⟩ | e | e := writeReg_cases r v s <;> rw [e]
  · exact h
  · exact h.updateOutside _ _ _
  · exact h.issue v
  · exact h.updateOutside _ _ _
  · exact h.updateOutside _ _ _
  · exact h.updateOutside _ _ _

theorem Inv.reportOk (h : Inv s) : Inv (reportOk s) :=
  h.update _ _ _ _ _ (by rintro _ ⟨⟩) (by simp)

theorem ErrCode.code_le (e : ErrCode) : e.code.toNat ≤ 7 := by cases e <;> decide

theorem Inv.reportFail (h : Inv s) (e : ErrCode) (info : Word) : Inv (reportFail e info s) :=
  h.update _ _ _ _ _ (by rintro _ ⟨⟩) e.code_le

/-! ## The invariant: states without products -/

theorem codeOk_empty {c : Config} : ∀ e ∈ (CodeTable.empty c).entries, CodeOk c e := by
  intro e hm
  obtain rfl := List.eq_of_mem_replicate hm
  exact ⟨fun _ => rfl, fun hv => by cases hv⟩

/-- With no product valid and no node waiting, only the text, PHASE and the report remain to be checked (R40). -/
theorem inv_of_no_products (hc : s.cfg.wf) (ht : s.text.wf s.cfg) (hfreq : s.freq = .empty s.cfg)
    (htree : s.tree = .empty) (hq : s.queue = []) (hcodes : s.codes = .empty s.cfg) (hout : s.out = .empty)
    (hb : ∀ w, s.phase = .busy w → s.report.lastCmd = w ∧ s.report.err = false ∧ s.report.errCode = 0)
    (he : s.report.errCode.toNat ≤ 7) : Inv s where
  params := hc
  memory := ⟨ht, hfreq ▸ freqTable_wf_empty _, htree ▸ tree_wf_empty, hcodes ▸ codeTable_wf_empty _,
    hout ▸ outBuffer_wf_empty⟩
  products := {
    freqValid := fun hv => by rw [hfreq] at hv; cases hv
    freqInvalid := fun _ => hfreq
    treeValid := fun hv => by rw [htree] at hv; cases hv
    treeInvalid := fun _ => htree
    codesInvalid := fun _ => hcodes
    outValid := fun hv => by rw [hout] at hv; cases hv
    outInvalid := fun _ => hout }
  queue := hq
  codes := hcodes ▸ codeOk_empty
  nodesFit := by rw [htree]; exact Nat.zero_le _
  outFits := by rw [hout]; exact Nat.zero_le _
  busy := hb
  errCode := he

theorem inv_resetIn {c : Config} (hc : c.wf) (e : Env) : Inv (State.resetIn c e) :=
  inv_of_no_products hc (textBuffer_wf_empty c) rfl rfl rfl rfl rfl (by rintro _ ⟨⟩) (by simp [State.resetIn])

theorem Inv.clearRun (h : Inv s) : Inv (clearRun s) :=
  inv_of_no_products h.params (textBuffer_wf_empty _) rfl rfl h.queue rfl rfl h.busy h.errCode

theorem Inv.of_textPushBody (h : Inv s) {sym : Sym} (hs : sym.toNat < s.cfg.nsymMax) {t : State}
    (ht : textPushBody sym s = .ok t) : Inv t := by
  unfold textPushBody at ht
  split at ht <;> cases ht
  exact inv_of_no_products h.params (textBuffer_wf_appendText h.params h.memory.1 hs ‹_›) rfl rfl h.queue rfl rfl
    h.busy h.errCode

/-! ## The invariant: what it says of the products -/

/-- NSYM of a valid FREQ table is its number of non-zero counts, without wrapping (R8, R89). -/
theorem Inv.nsym_toNat (h : Inv s) (hv : s.freq.valid = true) :
    s.freq.nsym.toNat = s.freq.counts.countP (· ≠ 0) := by
  have hle : s.freq.counts.countP (· ≠ 0) ≤ 256 :=
    List.countP_le_length.trans (h.memory.2.1.le.trans (nsymMax_le h.params))
  have hnsym : s.freq.nsym = BitVec.ofNat 32 (s.freq.counts.countP (· ≠ 0)) := by
    rw [h.products.freqValid hv]; rfl
  rw [hnsym, BitVec.toNat_ofNat]
  omega

/-- The tables BUILD_TREE accepts are the ones `FreqReady` describes (R94). -/
theorem Inv.freqReady (h : Inv s) (hv : s.freq.valid = true) (hn : s.freq.nsym ≠ 0) : FreqReady s := by
  have hnsym := h.nsym_toNat hv
  have hpos : s.freq.nsym.toNat ≠ 0 := fun e => hn (BitVec.eq_of_toNat_eq e)
  have hlen := input_length h.memory.1
  have hmax := text_len_le h.params h.memory.1
  refine ⟨h.params, hv, h.memory.2.1, hnsym, by omega, ?_⟩
  have hsum := countSymbols_sum (nsymMax_le h.params) (by omega) (input_legal h.memory.1)
  rw [h.products.freqValid hv]
  simp only [freqOf]
  omega

theorem FreqReady.counts_length_le (h : FreqReady s) : s.freq.counts.length ≤ 256 := by
  obtain ⟨hc, -, hl, -⟩ := h
  exact hl.le.trans (nsymMax_le hc)

theorem FreqReady.exists_isCodeTree (h : FreqReady s) : ∃ t, IsCodeTree s.freq.counts t := by
  have hl := h.counts_length_le
  obtain ⟨-, -, -, -, hpos, -⟩ := h
  exact huffman_isCodeTree hl hpos

/-- A valid tree is a code tree of its FREQ table (R39, R95). -/
theorem Inv.exists_isCodeTree (h : Inv s) (hv : s.tree.valid = true) :
    ∃ t, IsCodeTree s.freq.counts t ∧ FreqReady s ∧ s.tree = treeOf s.freq.counts := by
  obtain ⟨hfv, hn, htree⟩ := h.products.treeValid hv
  have hready := h.freqReady hfv hn
  obtain ⟨t, ht⟩ := hready.exists_isCodeTree
  exact ⟨t, ht, hready, htree⟩

/-- No code is longer than CODE_LEN_MAX; a symbol without a code has length 0 (R37). -/
theorem Inv.codeAt_len_le (h : Inv s) (x : Sym) : (codeAt s.codes.entries x).len.toNat ≤ s.cfg.codeLenMax := by
  by_cases hx : x.toNat < s.codes.entries.length
  · have he : codeAt s.codes.entries x = s.codes.entries[x.toNat] := by simp [codeAt, hx]
    rw [he]
    obtain ⟨hnone, hsome⟩ := h.codes _ (List.getElem_mem hx)
    cases hv : s.codes.entries[x.toNat].valid with
    | true => exact (hsome hv).2.1
    | false => rw [hnone hv]; exact Nat.zero_le _
  · have he : codeAt s.codes.entries x = CodeEntry.none := by simp [codeAt, Nat.le_of_not_lt hx]
    rw [he]; exact Nat.zero_le _

/-- The registers of an output that matches the text and the codes hold their values without wrapping (R8 (d)). -/
theorem Inv.assembled_registers (h : Inv s) {bits : Bits} (hb : assembleFrom s.codes.entries 0 s.input = .ok bits) :
    (outOf bits).len.toNat = bits.length / 8 + 2 ∧ (outOf bits).bitLen.toNat = bits.length ∧
      (outOf bits).pad.toNat = extraOf bits ∧ (outOf bits).bytes.length = (outOf bits).len.toNat := by
  obtain ⟨-, rfl⟩ := (assembleFrom_ok_iff _ _ _ _).1 hb
  exact outOf_registers (codedText_length_lt h.params h.memory.1 _)

/-- An output that matches the text and the codes fits OUT_MAX (R7, R8 (d)). -/
theorem Inv.assembled_len_le (h : Inv s) {bits : Bits} (hb : assembleFrom s.codes.entries 0 s.input = .ok bits) :
    (outOf bits).len.toNat ≤ s.cfg.outMax := by
  obtain ⟨hlen, -⟩ := h.assembled_registers hb
  obtain ⟨-, rfl⟩ := (assembleFrom_ok_iff _ _ _ _).1 hb
  have hle := codedText_length_le (text := s.input) h.codeAt_len_le
  obtain ⟨-, hmax, -⟩ := h.memory.1
  rw [input_length h.memory.1] at hle
  have hmul := Nat.mul_le_mul_right s.cfg.codeLenMax hmax
  have hdiv := Nat.div_le_div_right (c := 8) (hle.trans hmul)
  rw [hlen, Config.outMax]
  omega

/-! ## The invariant: invalidation, a product after those that depend on it (R39, R40) -/

theorem Inv.invalOut (h : Inv s) : Inv (invalOut s) := by
  obtain ⟨htext, hfreq, htree, hcodes, -⟩ := h.memory
  exact { h with
    memory := ⟨htext, hfreq, htree, hcodes, outBuffer_wf_empty⟩
    products := { h.products with outValid := by rintro ⟨⟩, outInvalid := fun _ => rfl }
    outFits := Nat.zero_le _ }

/-- A CODE table with legal records replaces the old one, once no output depends on that. -/
theorem Inv.setCodes (h : Inv s) (hout : s.out.valid = false) {c : CodeTable} (hwf : c.wf s.cfg)
    (hok : ∀ e ∈ c.entries, CodeOk s.cfg e) (hempty : c.valid = false → c = .empty s.cfg) :
    Inv { s with codes := c } := by
  obtain ⟨htext, hfreq, htree, -, hbuf⟩ := h.memory
  exact { h with
    memory := ⟨htext, hfreq, htree, hwf, hbuf⟩
    products := { h.products with
      codesInvalid := hempty
      outValid := fun hv => by rw [hout] at hv; cases hv }
    codes := hok }

theorem Inv.invalCodes (h : Inv s) (hout : s.out.valid = false) : Inv (invalCodes s) :=
  h.setCodes hout (codeTable_wf_empty _) codeOk_empty fun _ => rfl

theorem Inv.invalTree (h : Inv s) : Inv (invalTree s) := by
  obtain ⟨htext, hfreq, -, hcodes, hbuf⟩ := h.memory
  exact { h with
    memory := ⟨htext, hfreq, tree_wf_empty, hcodes, hbuf⟩
    products := { h.products with treeValid := by rintro ⟨⟩, treeInvalid := fun _ => rfl }
    nodesFit := Nat.zero_le _ }

/-! ## The invariant: the stages -/

theorem Inv.of_freqCountBody (h : Inv s) {t : State} (ht : freqCountBody s = .ok t) : Inv t := by
  cases ht
  have hclean := (h.invalTree.invalOut).invalCodes rfl
  obtain ⟨htext, -, htree, hcodes, hbuf⟩ := hclean.memory
  exact { hclean with
    memory := ⟨htext, freqTable_wf_freqOf _ _, htree, hcodes, hbuf⟩
    products := { hclean.products with
      freqValid := fun _ => rfl
      freqInvalid := by rintro ⟨⟩
      treeValid := by rintro ⟨⟩ } }

/-- The tree of a table that `FreqReady` describes fits NODE, and QUEUE is used up (R36, R95 (a)). -/
theorem FreqReady.tree_fits (h : FreqReady s) :
    (treeOf s.freq.counts).nnodes.toNat ≤ s.cfg.nodeMax ∧ queueAfter s.freq.counts = [] := by
  obtain ⟨t, ht⟩ := h.exists_isCodeTree
  obtain ⟨hnodes, -, -, hqueue⟩ := treeOf_shape ht h.counts_length_le
  obtain ⟨-, -, hl, -⟩ := h
  have hle : s.freq.counts.countP (· ≠ 0) ≤ s.freq.counts.length := List.countP_le_length
  refine ⟨?_, hqueue⟩
  rw [hnodes, Config.nodeMax]
  omega

theorem Inv.of_buildTreeBody (h : Inv s) {t : State} (ht : buildTreeBody s = .ok t) : Inv t := by
  unfold buildTreeBody at ht
  split at ht
  · cases ht
  · rename_i hv
    have hv : s.freq.valid = true := by simpa using hv
    split at ht <;> cases ht
    rename_i hn
    have hready := h.freqReady hv hn
    obtain ⟨hfit, hqueue⟩ := hready.tree_fits
    have hclean := h.invalOut.invalCodes rfl
    obtain ⟨htext, hfreq, -, hcodes, hbuf⟩ := hclean.memory
    exact { hclean with
      memory := ⟨htext, hfreq, tree_wf_treeOf hready.counts_length_le, hcodes, hbuf⟩
      products := { hclean.products with
        treeValid := fun _ => ⟨hv, hn, rfl⟩
        treeInvalid := by rintro ⟨⟩ }
      queue := hqueue
      nodesFit := hfit }

theorem Inv.of_assignCodesBody (h : Inv s) {t : State} (ht : assignCodesBody s = .ok t) : Inv t := by
  unfold assignCodesBody at ht
  split at ht <;> cases ht
  rename_i hv
  obtain ⟨tree, hcode, hready, htree⟩ := h.exists_isCodeTree (by simpa using hv)
  refine h.invalOut.setCodes rfl (codeTable_wf_codesOf _ _) ?_ (by rintro ⟨⟩)
  obtain ⟨-, -, hlen, -⟩ := hready
  rw [htree]
  exact codesOf_ok h.params hcode hlen

/-- The record CODE_LOAD writes is as R37 allows (R54, R103). -/
theorem codeOk_loadedEntry {c : Config} {len : BitVec 8} (h : 1 ≤ len.toNat ∧ len.toNat ≤ c.codeLenMax)
    (cw : BitVec 256) : CodeOk c (loadedEntry cw len) := by
  refine ⟨by rintro ⟨⟩, fun _ => ⟨h.1, h.2, ?_⟩⟩
  rw [loadedEntry_bits]
  exact Nat.mod_lt _ (Nat.two_pow_pos _)

theorem Inv.of_codeLoadBody (h : Inv s) {sym : Sym} {len : BitVec 8}
    (hlen : 1 ≤ len.toNat ∧ len.toNat ≤ s.cfg.codeLenMax) {t : State} (ht : codeLoadBody sym len s = .ok t) :
    Inv t := by
  cases ht
  obtain ⟨-, -, -, hcodes, -⟩ := h.memory
  refine h.invalOut.setCodes rfl (codeTable_wf_setCode hcodes _ _) ?_ (by rintro ⟨⟩)
  intro e hm
  rcases List.mem_or_eq_of_mem_set hm with hm | rfl
  · exact h.codes e hm
  · exact codeOk_loadedEntry hlen _

/-- PACK's one way to succeed (R108). -/
theorem packBody_eq_ok {t : State} (ht : packBody s = .ok t) : s.codes.valid = true ∧
    ∃ bits, assembleFrom s.codes.entries 0 s.input = .ok bits ∧ t = { s with out := outOf bits } := by
  unfold packBody at ht
  split at ht
  · cases ht
  · rename_i hv
    split at ht
    · cases ht
    · rename_i bits hb
      rw [if_neg (padded_whole _)] at ht
      cases ht
      exact ⟨by simpa using hv, bits, hb, rfl⟩

theorem Inv.of_packBody (h : Inv s) {t : State} (ht : packBody s = .ok t) : Inv t := by
  obtain ⟨hv, bits, hb, rfl⟩ := packBody_eq_ok ht
  obtain ⟨htext, hfreq, htree, hcodes, -⟩ := h.memory
  obtain ⟨-, -, -, hbuf⟩ := h.assembled_registers hb
  exact { h with
    memory := ⟨htext, hfreq, htree, hcodes, hbuf⟩
    products := { h.products with
      outValid := fun _ => ⟨hv, bits, hb, rfl⟩
      outInvalid := by rintro ⟨⟩ }
    outFits := h.assembled_len_le hb }

theorem Inv.of_compressBody (h : Inv s) {t : State} (ht : compressBody s = .ok t) : Inv t := by
  unfold compressBody at ht
  split at ht
  · cases ht
  · obtain ⟨c, ht, hpack⟩ := andThen_eq_ok ht
    obtain ⟨b, ht, hassign⟩ := andThen_eq_ok ht
    obtain ⟨a, hcount, hbuild⟩ := andThen_eq_ok ht
    exact (((h.of_freqCountBody hcount).of_buildTreeBody hbuild).of_assignCodesBody hassign).of_packBody hpack

/-! ## The invariant: every command and every step -/

/-- A command whose operand checks pass has its body's outcome. -/
theorem withSym_eq_ok {sym : Sym} {k : CmdOutcome} {t : State} (h : withSym sym s k = .ok t) :
    sym.toNat < s.cfg.nsymMax ∧ k = .ok t := by
  obtain ⟨hs, e⟩ | e := withSym_cases sym s k <;> rw [e] at h
  · exact ⟨hs, h⟩
  · cases h

theorem withLen_eq_ok {len : BitVec 8} {k : CmdOutcome} {t : State} (h : withLen len s k = .ok t) :
    (1 ≤ len.toNat ∧ len.toNat ≤ s.cfg.codeLenMax) ∧ k = .ok t := by
  obtain ⟨hl, e⟩ | e := withLen_cases len s k <;> rw [e] at h
  · exact ⟨hl, h⟩
  · cases h

theorem withIndex_eq_ok {index : Index} {len : Word} {k : CmdOutcome} {t : State} (h : withIndex index len k = .ok t) :
    index.toNat < len.toNat ∧ k = .ok t := by
  obtain ⟨hi, e⟩ | e := withIndex_cases index len k <;> rw [e] at h
  · exact ⟨hi, h⟩
  · cases h

/-- The effects of a successful command keep the invariant. -/
theorem Inv.of_ruleOf (h : Inv s) {i : Instr} {t : State} (ht : ruleOf i s = .ok t) : Inv t := by
  cases i with
  | nop => cases ht; exact h
  | clear => cases ht; exact h.clearRun
  | textPush sym =>
    obtain ⟨hs, ht⟩ := withSym_eq_ok ht
    exact h.of_textPushBody hs ht
  | freqCount => exact h.of_freqCountBody ht
  | buildTree => exact h.of_buildTreeBody ht
  | assignCodes => exact h.of_assignCodesBody ht
  | codeLoad sym len =>
    obtain ⟨-, ht⟩ := withSym_eq_ok ht
    obtain ⟨hlen, ht⟩ := withLen_eq_ok ht
    exact h.of_codeLoadBody hlen ht
  | pack => exact h.of_packBody ht
  | compress => exact h.of_compressBody ht
  | textRead index | nodeRead index | outRead index =>
    obtain ⟨-, ht⟩ := withIndex_eq_ok ht
    cases ht
    exact h.updateOutside _ _ _
  | freqRead sym | codeRead sym =>
    obtain ⟨-, ht⟩ := withSym_eq_ok ht
    cases ht
    exact h.updateOutside _ _ _

/-- The completion of any word keeps the invariant (R79). -/
theorem Inv.finish_outcomeOf (h : Inv s) (w : Word) : Inv (finish s (outcomeOf w s)) := by
  cases hr : outcomeOf w s with
  | ok t =>
    obtain ⟨i, -, hi⟩ := outcomeOf_eq_ok hr
    exact (h.of_ruleOf hi).reportOk
  | fail e info => exact h.reportFail e info

theorem Inv.of_step (h : Inv s) {t : State} (ht : step s = .next t) : Inv t := by
  obtain ⟨u, hu, hcases⟩ := step_cases ht
  have hinv : Inv u := by
    obtain ⟨rfl, -⟩ | ⟨e, es, -, rfl⟩ := hu
    · exact h
    · exact h.setPending es
  obtain ⟨off, es, -, -, -, rfl⟩ | ⟨off, v, es, -, -, -, rfl⟩ | ⟨es, -, rfl⟩ | ⟨w, -, -, rfl⟩ | ⟨-, -, rfl⟩ := hcases
  · exact hinv.readReg _
  · exact hinv.writeReg _ v
  · exact inv_resetIn hinv.params _
  · exact hinv.finish_outcomeOf w
  · exact hinv

/-- What every step keeps holds after every run. -/
theorem run_induct {P : State → Prop} (hstep : ∀ s t, P s → step s = .next t → P t) (n : Nat) {s t : State}
    (hs : P s) (hrun : Host.Core.run Sys2Proof.core n s = .next t) : P t := by
  induction n generalizing s with
  | zero => cases hrun; exact hs
  | succ n ih =>
    simp only [Host.Core.run] at hrun
    split at hrun
    · exact ih (hstep _ _ hs ‹_›) hrun
    · cases hrun
    · cases hrun

/-! ## R45 -/

/-- NSYM counts the symbols with a non-zero count (R45 (c)). -/
theorem Inv.nsym_eq_distinctSymbols (h : Inv s) (hv : s.freq.valid = true) :
    s.freq.nsym.toNat = distinctSymbols s := by
  have hn := nsymMax_le h.params
  have hcounts : s.freq.counts = (List.range s.cfg.nsymMax).map fun v => freqAt s (BitVec.ofNat 8 v) := by
    apply List.ext_getElem
    · simpa using h.memory.2.1
    · intro v hv1 hv2
      have hmod : v % 256 = v := Nat.mod_eq_of_lt (by simp at hv2; omega)
      simp [freqAt, hmod, hv1]
  rw [h.nsym_toNat hv, hcounts, List.countP_map]
  rfl

theorem Inv.freqAt_eq_occurrences (h : Inv s) (hv : s.freq.valid = true) {sym : Sym}
    (hs : sym.toNat < s.cfg.nsymMax) : (freqAt s sym).toNat = occurrences s sym := by
  have hlen := input_length h.memory.1
  have hmax := text_len_le h.params h.memory.1
  rw [freqAt, h.products.freqValid hv]
  exact countSymbols_toNat (by omega) hs

/-- NNODES and ROOT follow NSYM (R45 (d), R95 (a)). -/
theorem Inv.tree_shape (h : Inv s) (hv : s.tree.valid = true) :
    1 ≤ s.freq.nsym.toNat ∧ s.tree.nnodes.toNat = 2 * s.freq.nsym.toNat - 1 ∧
      s.tree.root.toNat = s.tree.nnodes.toNat - 1 := by
  obtain ⟨t, ht, hready, htree⟩ := h.exists_isCodeTree hv
  obtain ⟨hnodes, hroot, hlen, -⟩ := treeOf_shape ht hready.counts_length_le
  obtain ⟨-, -, -, hnsym, hpos, -⟩ := hready
  rw [htree, hnsym]
  refine ⟨hpos, hnodes, ?_⟩
  rw [hroot, ht.root, ← hlen]
  rfl

theorem ne_zero_of_toNat_pos {w : Word} (h : 1 ≤ w.toNat) : w ≠ 0 := by
  rintro rfl
  exact absurd h (by decide)

/-- PAD and OUT_LEN are 0 exactly without output (R45 (f), (g)). -/
theorem Inv.out_registers_zero_iff (h : Inv s) :
    (s.out.pad = 0 ↔ s.out.valid = false) ∧ (s.out.len = 0 ↔ s.out.valid = false) := by
  cases hv : s.out.valid with
  | false => rw [h.products.outInvalid hv]; decide
  | true =>
    obtain ⟨-, bits, hb, hout⟩ := h.products.outValid hv
    obtain ⟨hlen, -, hpad, -⟩ := h.assembled_registers hb
    have hrange := extraOf_range bits
    have hpad0 : s.out.pad ≠ 0 := ne_zero_of_toNat_pos (by rw [hout]; omega)
    have hlen0 : s.out.len ≠ 0 := ne_zero_of_toNat_pos (by rw [hout]; omega)
    exact ⟨iff_of_false hpad0 nofun, iff_of_false hlen0 nofun⟩

/-- The invariant gives every clause of R45. -/
theorem Inv.r45 (h : Inv s) : R45 s where
  treeNeedsFreq hv := (h.products.treeValid hv).1
  outNeedsCodes hv := (h.products.outValid hv).1
  freqIsCount hv _ hs := h.freqAt_eq_occurrences hv hs
  nsymIsDistinct := h.nsym_eq_distinctSymbols
  treeShape := h.tree_shape
  queueEmpty := h.queue
  padZero := h.out_registers_zero_iff.1
  outLenZero := h.out_registers_zero_iff.2

end Invariant

/-! ## The obligations -/

/-- Settles O60: the invariant holds after reset, every step keeps it, and it gives R45. -/
theorem reachableIdleStatesMeetR45 : Obligations.ReachableIdleStatesMeetR45 := by
  intro c e n t hc hrun _
  exact (run_induct (fun _ _ h ht => h.of_step ht) n (inv_resetIn hc e) hrun).r45

/-- Settles O56: a step keeps the parameters, and the constant registers read nothing else. -/
theorem parametersNeverChange : Obligations.ParametersNeverChange := by
  intro s t ht
  exact ⟨step_cfg ht, fun _ hr => readValue_congr_cfg (step_cfg ht) hr⟩

/-- Settles O6: a bit of the AND of IRQ_STATUS and IRQ_ENABLE is 1 exactly when it is 1 in both registers. -/
theorem irqOutputLevel : Obligations.IrqOutputLevel := by
  intro s
  have hbits : ∀ k < 3, (s.irq.status &&& s.irq.enable).getLsbD k = true ↔
      (regValue s .irqStatus).getLsbD k = true ∧ (regValue s .irqEnable).getLsbD k = true := by
    intro k hk
    have h32 : k < 32 := by omega
    simp [regValue, h32]
  rw [State.irqLine, bne_iff_ne, ne_zero_iff_exists_getLsbD]
  exact exists_congr fun k => and_congr_right (hbits k)

end Sys2Proof.Machine
end

section
/-! The encoding: a word as the OR of its fields (R76), and the words that are no command (R69, R71). -/

namespace Sys2Proof

/-! ## A word as the OR of its fields (R76) -/

/-- The OPCODE stands at bit 0, the operand bits at bit 8 (R65). -/
theorem encode_eq_or (i : Instr) : encode i = i.opcode.setWidth 32 ||| i.operandBits.setWidth 32 <<< 8 := by
  have h := BitVec.setWidth_append_eq_shiftLeft_setWidth_or (w'' := 32) (b := i.operandBits) (b' := i.opcode)
  rw [BitVec.setWidth_eq] at h
  rw [encode, h, BitVec.or_comm]

/-- Format N has no operand (R65). -/
theorem encode_formatN {i : Instr} (h : i.operandBits = 0) : encode i = i.opcode.setWidth 32 := by
  rw [encode_eq_or, h]
  simp

/-- Format S has SYM at bit 8 (R65, R66). -/
theorem encode_formatS {i : Instr} {sym : Sym} (h : i.operandBits = 0#16 ++ sym) :
    encode i = i.opcode.setWidth 32 ||| sym.setWidth 32 <<< 8 := by
  rw [encode_eq_or, h, BitVec.setWidth_append_eq_shiftLeft_setWidth_or]
  simp

/-- Format SL has SYM at bit 8 and LEN at bit 16 (R65 to R67). -/
theorem encode_formatSL {i : Instr} {sym : Sym} {len : BitVec 8} (h : i.operandBits = 0#8 ++ len ++ sym) :
    encode i = i.opcode.setWidth 32 ||| sym.setWidth 32 <<< 8 ||| len.setWidth 32 <<< 16 := by
  have hbits : (0#8 ++ len ++ sym).setWidth 32 <<< 8 = sym.setWidth 32 <<< 8 ||| len.setWidth 32 <<< 16 := by
    rw [BitVec.setWidth_append_append_eq_shiftLeft_setWidth_or, BitVec.shiftLeft_or_distrib, BitVec.or_comm]
    simp [← BitVec.shiftLeft_add]
  rw [encode_eq_or, h, hbits, BitVec.or_assoc]

/-! ## Words that are no command (R69, R71) -/

/-- OPCODE is the word's lowest byte (R64). -/
theorem opcodeOf_toNat (w : Word) : (opcodeOf w).toNat = w.toNat % 256 := by
  simp [opcodeOf]

/-- Reserved bits that run up to bit 31 are all 0 only where the word ends below them (R69). -/
theorem div_eq_zero_of_highBits {w : Word} {k n : Nat} (hkn : k + n = 32) (h : w.extractLsb' k n = 0) :
    w.toNat / 2 ^ k = 0 := by
  have hlt : w.toNat / 2 ^ k < 2 ^ n := Nat.div_lt_of_lt_mul (by rw [← pow_add, hkn]; exact w.isLt)
  have h0 := congrArg BitVec.toNat h
  rwa [BitVec.extractLsb'_toNat, Nat.shiftRight_eq_div_pow, Nat.mod_eq_of_lt hlt] at h0

theorem formatN_reserved {w : Word} (h : w.toNat / 2 ^ 8 ≠ 0) (i : Instr) : formatN w i = .error .reservedBit :=
  if_neg fun h0 => h (div_eq_zero_of_highBits rfl h0)

theorem formatS_reserved {w : Word} (h : w.toNat / 2 ^ 16 ≠ 0) (i : Sym → Instr) :
    formatS w i = .error .reservedBit :=
  if_neg fun h0 => h (div_eq_zero_of_highBits rfl h0)

theorem formatSL_reserved {w : Word} (h : w.toNat / 2 ^ 24 ≠ 0) (i : Sym → BitVec 8 → Instr) :
    formatSL w i = .error .reservedBit :=
  if_neg fun h0 => h (div_eq_zero_of_highBits rfl h0)

/-- The opcodes of format N (R70). -/
theorem decode_formatN {w : Word} (h : w.toNat % 256 ∈ [0x00, 0x01, 0x03, 0x04, 0x05, 0x07, 0x08]) :
    ∃ i, decode w = formatN w i := by
  simp only [List.mem_cons, List.not_mem_nil, or_false] at h
  obtain h | h | h | h | h | h | h := h <;> exact ⟨_, by rw [decode, opcodeOf_toNat, h]; rfl⟩

/-- The opcodes of format S (R70). -/
theorem decode_formatS {w : Word} (h : w.toNat % 256 ∈ [0x02, 0x11, 0x13]) : ∃ i, decode w = formatS w i := by
  simp only [List.mem_cons, List.not_mem_nil, or_false] at h
  obtain h | h | h := h <;> exact ⟨_, by rw [decode, opcodeOf_toNat, h]; rfl⟩

/-- The opcode of format SL (R70). -/
theorem decode_formatSL {w : Word} (h : w.toNat % 256 = 0x06) : decode w = formatSL w .codeLoad := by
  rw [decode, opcodeOf_toNat, h]; rfl

/-- An opcode outside the table of R70 is no command's (R71). -/
theorem decode_undefinedOpcode {w : Word}
    (h : (0x09 ≤ w.toNat % 256 ∧ w.toNat % 256 ≤ 0x0F) ∨ 0x15 ≤ w.toNat % 256) :
    decode w = .error .undefinedOpcode := by
  rw [decode, opcodeOf_toNat]
  split
  case h_15 => rfl
  all_goals omega

end Sys2Proof

namespace Sys2Proof.Machine

/-- The completion of a word that is no command is the failed state of R82, with ILLEGAL_COMMAND and the reason
(R71, R128). -/
theorem failed_of_decode_error {w : Word} {r : Illegal} (h : decode w = .error r) (u : State) :
    Failed 4 r.info u (finish u (outcomeOf w u)) := by
  rw [outcomeOf_error h, finish_fail]
  exact failed_reportFail .illegalCommand r.info u

/-- Settles O16: the formula of each format (R65), at the opcodes of R70; INDEX fills the operand bits of format X. -/
theorem encodingFormula : Obligations.EncodingFormula := by
  intro sym len index
  exact ⟨encode_formatN rfl, encode_formatN rfl, encode_formatN rfl, encode_formatN rfl, encode_formatN rfl,
    encode_formatN rfl, encode_formatN rfl, encode_formatS rfl, encode_formatS rfl, encode_formatS rfl,
    encode_formatSL rfl, encode_eq_or (.textRead index), encode_eq_or (.nodeRead index),
    encode_eq_or (.outRead index)⟩

/-- Settles O11: by the decoder's answer on each kind of word; the step completes whatever that is. -/
theorem stepRejectsIllegalWord : Obligations.StepRejectsIllegalWord := by
  intro s u w hturn hbusy
  have hstep := step_turn hturn hbusy
  refine ⟨_, fun h => ⟨hstep, ?_⟩, fun h hres => ⟨hstep, ?_⟩, fun h hres => ⟨hstep, ?_⟩, fun h hres => ⟨hstep, ?_⟩⟩
  · exact failed_of_decode_error (decode_undefinedOpcode h) u
  · obtain ⟨i, hi⟩ := decode_formatN h
    exact failed_of_decode_error (hi.trans (formatN_reserved hres i)) u
  · obtain ⟨i, hi⟩ := decode_formatS h
    exact failed_of_decode_error (hi.trans (formatS_reserved hres i)) u
  · exact failed_of_decode_error ((decode_formatSL h).trans (formatSL_reserved hres _)) u

end Sys2Proof.Machine
end

section
/-! The control of the block: what a host write does at each offset (R77, R78, R87, R132), and what a failed command
leaves unchanged (R82). -/

namespace Sys2Proof.Machine

/-! ## The register map (R20): each register a host write can act on stands at one offset -/

theorem regAt_codeW (k : Fin 8) : regAt (0x50 + 4 * k.val) = .codeW k := by fin_cases k <;> rfl

theorem eq_of_regAt_cmd {off : Nat} (h : regAt off = .cmd) : off = 0x10 := by
  unfold regAt at h; split at h <;> cases h; rfl

theorem eq_of_regAt_irqStatus {off : Nat} (h : regAt off = .irqStatus) : off = 0x18 := by
  unfold regAt at h; split at h <;> cases h; rfl

theorem eq_of_regAt_irqEnable {off : Nat} (h : regAt off = .irqEnable) : off = 0x1C := by
  unfold regAt at h; split at h <;> cases h; rfl

theorem eq_of_regAt_codeW {off : Nat} {k : Fin 8} (h : regAt off = .codeW k) : off = 0x50 + 4 * k.val := by
  unfold regAt at h; split at h <;> cases h <;> rfl

/-- A word-aligned offset from 0x50 below 0x70 is that of one CODE_W register (R20). -/
theorem exists_codeW_of_offset {off : Nat} (h4 : off % 4 = 0) (h : 0x50 ≤ off ∧ off < 0x70) :
    ∃ k : Fin 8, off = 0x50 + 4 * k.val :=
  ⟨⟨(off - 0x50) / 4, by omega⟩, by simp only; omega⟩

/-! ## A host write, register by register -/

section Write

variable {s : State} (v : Word)

theorem writeReg_cmd_idle (h : s.phase = .idle) : writeReg .cmd v s = issue v s := by
  simp [writeReg, isBusy_idle h]

theorem writeReg_cmd_busy {w : Word} (h : s.phase = .busy w) : writeReg .cmd v s = dropWrite s := by
  simp [writeReg, isBusy_busy h]

theorem writeReg_codeW_idle (k : Fin 8) (h : s.phase = .idle) : writeReg (.codeW k) v s = setCodeW k v s := by
  simp [writeReg, isBusy_idle h]

theorem writeReg_codeW_busy (k : Fin 8) {w : Word} (h : s.phase = .busy w) :
    writeReg (.codeW k) v s = dropWrite s := by
  simp [writeReg, isBusy_busy h]

/-- IRQ_STATUS takes 1s of the low three bits as acknowledgements, IDLE or BUSY (R27). -/
theorem writeReg_irqStatus :
    writeReg .irqStatus v s = { s with irq := { s.irq with status := s.irq.status &&& ~~~ (v.setWidth 3) } } := by
  rw [BitVec.setWidth_eq_extractLsb' (by decide)]; rfl

/-- IRQ_ENABLE takes the low three bits, IDLE or BUSY (R28). -/
theorem writeReg_irqEnable : writeReg .irqEnable v s = { s with irq := { s.irq with enable := v.setWidth 3 } } := by
  rw [BitVec.setWidth_eq_extractLsb' (by decide)]; rfl

/-- Every register but CMD, CODE_W, IRQ_STATUS and IRQ_ENABLE ignores a write, without OVERRUN (R21, R132). -/
theorem writeReg_of_readOnly {r : Reg} (hcmd : r ≠ .cmd) (hcode : ∀ k, r ≠ .codeW k) (hstatus : r ≠ .irqStatus)
    (henable : r ≠ .irqEnable) : writeReg r v s = s := by
  cases r with
  | cmd => exact absurd rfl hcmd
  | codeW k => exact absurd rfl (hcode k)
  | irqStatus => exact absurd rfl hstatus
  | irqEnable => exact absurd rfl henable
  | _ => rfl

end Write

/-! ## The obligations -/

/-- Settles O3: the offset decides the register and PHASE decides between the two effects of CMD and of CODE_Wk. -/
theorem hostWriteEffects : Obligations.HostWriteEffects := by
  intro s off v es h h4 hp
  refine ⟨setPending es s, rfl, ?_⟩
  rw [step_write h h4 hp]
  congr 1
  split_ifs with hcmd hcode hstatus henable
  · subst hcmd
    cases hph : s.phase with
    | idle => exact writeReg_cmd_idle v hph
    | busy w => exact writeReg_cmd_busy v hph
  · obtain ⟨k, rfl⟩ := exists_codeW_of_offset h4 hcode
    have hk : (0x50 + 4 * k.val - 0x50) / 4 = k.val := by omega
    rw [regAt_codeW, hk]
    cases hph : s.phase with
    | idle => exact (writeReg_codeW_idle (s := setPending es s) v k hph).trans (setCodeW_eq k v _)
    | busy w => exact writeReg_codeW_busy v k hph
  · subst hstatus
    exact writeReg_irqStatus v
  · subst henable
    exact writeReg_irqEnable v
  · refine writeReg_of_readOnly v (mt eq_of_regAt_cmd hcmd) (fun k hk => ?_) (mt eq_of_regAt_irqStatus hstatus)
      (mt eq_of_regAt_irqEnable henable)
    have := eq_of_regAt_codeW hk
    omega

/-- No error has the code of success (R124). -/
theorem ErrCode.code_ne_zero (e : ErrCode) : e.code ≠ 0 := by cases e <;> decide

/-- A completion that leaves ERR = 1 is the failed state of R82: a success reports ERR = 0. -/
theorem failed_of_err {s : State} {r : CmdOutcome} (h : (finish s r).report.err = true) :
    ∃ code info, code ≠ 0 ∧ Failed code info s (finish s r) := by
  cases r with
  | ok s' => cases h
  | fail e info => exact ⟨e.code, info, e.code_ne_zero, failed_reportFail e info s⟩

/-- Settles O53: the step is the completion of the word in progress, whatever the word. -/
theorem failureIsAtomic : Obligations.FailureIsAtomic := by
  intro s u t w hturn hbusy hstep herr
  rw [step_turn hturn hbusy] at hstep
  cases hstep
  exact failed_of_err herr

end Sys2Proof.Machine
end

section
/-! The FREQ table of a text (R89, R90): its counts, its NSYM, and its independence of the order of the symbols. -/

namespace Sys2Proof.Machine

/-- R90: the scan depends only on the multiset of symbols in the text. -/
theorem countSymbols_perm {n : Nat} (hn : n ≤ 256) {text text' : List Sym} (h : text.Perm text') :
    countSymbols n text = countSymbols n text' := by
  rw [countSymbols_eq_map hn, countSymbols_eq_map hn]
  simp only [h.count_eq]

/-- A symbol outside the alphabet has no entry in FREQ, and reads as 0 there (R34). -/
theorem countSymbols_getD_of_le {n : Nat} (text : List Sym) {y : Sym} (hy : n ≤ y.toNat) :
    (countSymbols n text).getD y.toNat 0 = 0 :=
  List.getD_eq_default _ _ (by rwa [countSymbols_length])

/-- FREQ_COUNT always completes, with the table of the text in FREQ (R89). -/
theorem exists_exec_freqCount (s : State) : ∃ t, exec .freqCount s = .next t ∧ t.freq = freqOf s.cfg s.input :=
  ⟨_, exec_eq .freqCount s, rfl⟩

section Table

variable {s : State}

theorem freqOf_counts_sum (hc : s.cfg.wf) (ht : s.text.wf s.cfg) :
    ((freqOf s.cfg s.input).counts.map BitVec.toNat).sum = s.text.len.toNat := by
  have hlen := input_length ht
  have hmax := text_len_le hc ht
  exact (countSymbols_sum (nsymMax_le hc) (by omega) (input_legal ht)).trans hlen

/-- A text holds legal symbols only, so a symbol outside the alphabet meets the equivalence too. -/
theorem freqOf_count_ne_zero_iff (hc : s.cfg.wf) (ht : s.text.wf s.cfg) (y : Sym) :
    (freqOf s.cfg s.input).counts.getD y.toNat 0 ≠ 0 ↔ y ∈ s.input := by
  have hlen := input_length ht
  have hmax := text_len_le hc ht
  rcases Nat.lt_or_ge y.toNat s.cfg.nsymMax with hy | hy
  · exact countSymbols_ne_zero (by omega) hy
  · exact iff_of_false (not_not_intro (countSymbols_getD_of_le _ hy)) fun h => hy.not_gt (input_legal ht y h)

/-- NSYM does not wrap: a text has at most 2^24 symbols (R7, R8). -/
theorem freqOf_nsym_toNat (hc : s.cfg.wf) (ht : s.text.wf s.cfg) :
    (freqOf s.cfg s.input).nsym.toNat = s.input.dedup.length := by
  have hlen := input_length ht
  have hmax := text_len_le hc ht
  have hdedup : s.input.dedup.length ≤ s.input.length := (List.dedup_sublist _).length_le
  obtain ⟨-, hdistinct⟩ := distinctCount_countSymbols (nsymMax_le hc) (by omega) (input_legal ht)
  rw [freqOf, hdistinct, BitVec.toNat_ofNat]
  omega

end Table

theorem freqOf_perm {c : Config} (hc : c.wf) {text text' : List Sym} (h : text.Perm text') :
    freqOf c text = freqOf c text' := by
  rw [freqOf, freqOf, countSymbols_perm (nsymMax_le hc) h]

/-- Settles O24: FREQ_COUNT leaves `freqOf` of the text, and each property is one of that table. -/
theorem freqTableProperties : Obligations.FreqTableProperties := by
  rintro s s' hc ⟨htext, -⟩ - hcfg hperm
  obtain ⟨t, hexec, hfreq⟩ := exists_exec_freqCount s
  obtain ⟨t', hexec', hfreq'⟩ := exists_exec_freqCount s'
  refine ⟨t, t', hexec, hexec', ?_, fun sym => ?_, ?_, ?_⟩
  · rw [hfreq, freqOf_counts_sum hc htext]
  · rw [freqAt, hfreq, freqOf_count_ne_zero_iff hc htext]
  · rw [hfreq, freqOf_nsym_toNat hc htext]
  · rw [hfreq, hfreq', hcfg, freqOf_perm hc hperm]

end Sys2Proof.Machine
end

section
/-! The tree and the code of a table with exactly one counted symbol (R96, R102). -/

namespace Sys2Proof.Machine

/-! ## What the two stages leave (R94, R100) -/

theorem exists_exec_buildTree {s : State} (h : FreqReady s) :
    ∃ t, exec .buildTree s = .next t ∧ Succeeded s t ∧ t.tree = treeOf s.freq.counts :=
  have ⟨hexec, hok⟩ := succeeded_of_rule (ruleOf_buildTree h)
  ⟨_, hexec, hok, rfl⟩

theorem exists_exec_assignCodes {s : State} (h : s.tree.valid = true) :
    ∃ t, exec .assignCodes s = .next t ∧ Succeeded s t ∧ t.codes = codesOf s.cfg s.tree :=
  have ⟨hexec, hok⟩ := succeeded_of_rule (ruleOf_assignCodes h)
  ⟨_, hexec, hok, rfl⟩

/-! ## The tree of one leaf and its code -/

section OneSymbol

variable {counts : List Word} {t : HTree} {x : Sym}

/-- Two leaves at least stand below an internal node, so one counted symbol leaves no merge (R96). -/
theorem IsCodeTree.eq_leaf_zero (h : IsCodeTree counts t) (hone : counts.countP (· ≠ 0) = 1) : t = .leaf 0 := by
  cases t with
  | leaf i =>
    have hroot : i = _ := h.root
    have hsize := h.size
    have hi : i = 0 := by omega
    rw [hi]
  | node i l r =>
    have htwo : l.leaves.length + r.leaves.length = 1 := by
      rw [← hone, ← h.leaves_length, HTree.leaves, List.length_append]
    have := l.leaves_pos
    have := r.leaves_pos
    omega

/-- The node store is as long as the list of leaves, and the symbol's leaf is in it (R94 step 1). -/
theorem IsCodeTree.nodes_of_one (h : IsCodeTree counts t) (hone : counts.countP (· ≠ 0) = 1)
    (hx : counts.getD x.toNat 0 ≠ 0) :
    (treeOf counts).nodes = [{ freq := counts.getD x.toNat 0, leaf := true, sym := x, left := 0, right := 0 }] := by
  have hsize := h.size
  obtain ⟨n, hn⟩ := List.length_eq_one_iff.1 (by omega : (huffman counts).1.length = 1)
  obtain ⟨internal, hsplit, -⟩ := h.split
  have hmem : leafNode (counts.getD x.toNat 0) (0 + x.toNat) ∈ (huffman counts).1 :=
    hsplit ▸ List.mem_append_left _ (leaf_mem_leavesFrom hx)
  rw [hn, List.mem_singleton] at hmem
  rw [treeOf, hn, ← hmem]
  simp [leafNode]

theorem IsCodeTree.root_of_one (h : IsCodeTree counts t) (hl : counts.length ≤ 256)
    (hone : counts.countP (· ≠ 0) = 1) : (treeOf counts).root = 0 := by
  obtain ⟨-, hroot, -⟩ := treeOf_shape h hl
  rw [h.eq_leaf_zero hone] at hroot
  exact BitVec.eq_of_toNat_eq hroot

theorem IsCodeTree.nnodes_of_one (h : IsCodeTree counts t) (hl : counts.length ≤ 256)
    (hone : counts.countP (· ≠ 0) = 1) : (treeOf counts).nnodes = 1 := by
  obtain ⟨hnodes, -⟩ := treeOf_shape h hl
  rw [hone] at hnodes
  exact BitVec.eq_of_toNat_eq hnodes

/-- R102: the code of a tree of one leaf is "0", not the empty path. -/
theorem IsCodeTree.code_of_one (h : IsCodeTree counts t) {c : Config} (hlen : counts.length = c.nsymMax)
    (hl : counts.length ≤ 256) (hone : counts.countP (· ≠ 0) = 1) (hx : counts.getD x.toNat 0 ≠ 0) :
    codeAt (codesOf c (treeOf counts)).entries x = entryOfPath [false] := by
  obtain ⟨ip, hip, -, hcode⟩ := exists_code_of_counted h hlen hl hx
  rw [h.eq_leaf_zero hone, HTree.codes, List.mem_singleton] at hip
  rw [hcode, hip]

end OneSymbol

/-- Settles O32: BUILD_TREE's tree has the one leaf, and ASSIGN_CODES writes "0" for it. -/
theorem singleSymbolTreeAndCode : Obligations.SingleSymbolTreeAndCode := by
  intro s x hready hnsym hx
  obtain ⟨tree, hcodeTree⟩ := hready.exists_isCodeTree
  have hl := hready.counts_length_le
  obtain ⟨t, hbuild, hbuilt, htree⟩ := exists_exec_buildTree hready
  obtain ⟨u, hassign, hassigned, hcodes⟩ := exists_exec_assignCodes (s := t) (by rw [htree]; rfl)
  obtain ⟨-, -, hlen, hcount, -⟩ := hready
  have hone : s.freq.counts.countP (· ≠ 0) = 1 := by rw [← hcount, hnsym]; rfl
  rw [htree, hbuilt.cfg] at hcodes
  refine ⟨t, u, hbuild, hassign, ?_⟩
  rw [htree, hcodes]
  exact ⟨hcodeTree.nodes_of_one hone hx, hcodeTree.root_of_one hl hone, hcodeTree.nnodes_of_one hl hone, rfl,
    hbuilt.noErr, hcodeTree.code_of_one hlen hl hone hx, hassigned.noErr⟩

end Sys2Proof.Machine
end

section
/-! The table ASSIGN_CODES leaves after BUILD_TREE is a complete prefix code (R101). -/

namespace Sys2Proof.Machine

theorem Config.codeLenMax_le {c : Config} (hc : c.wf) : c.codeLenMax ≤ 255 := by
  have := nsymMax_le hc
  unfold Config.codeLenMax
  omega

/-- LEN holds the length of any path that fits the table (R100). -/
theorem entryOfPath_len {p : Bits} (h : p.length ≤ 255) : (entryOfPath p).len.toNat = p.length := by
  rw [← codestr_length, codestr_entryOfPath h]

section

variable {c : Config} {counts : List Word} {t : HTree}

/-! ## The symbols with a code (R101 (a)) -/

theorem codeAt_codesOf_valid_iff (h : IsCodeTree counts t) (hlen : counts.length = c.nsymMax)
    (hl : counts.length ≤ 256) (x : Sym) :
    (codeAt (codesOf c (treeOf counts)).entries x).valid = true ↔ counts.getD x.toNat 0 ≠ 0 := by
  by_cases hx : counts.getD x.toNat 0 = 0
  · rw [codeAt_codesOf_absent h hlen hl hx]
    exact iff_of_false Bool.false_ne_true (not_not_intro hx)
  · obtain ⟨ip, -, -, hcode⟩ := exists_code_of_counted (c := c) h hlen hl hx
    rw [hcode]
    exact iff_of_true rfl hx

theorem countP_valid_codesOf (h : IsCodeTree counts t) (hlen : counts.length = c.nsymMax)
    (hl : counts.length ≤ 256) :
    (codesOf c (treeOf counts)).entries.countP (·.valid) = counts.countP (· ≠ 0) := by
  rw [List.countP_eq_length_filter, (filter_valid_codesOf h hlen hl).length_eq, List.length_map,
    ← h.leaves_length, ← t.codes_fst, List.length_map]

/-! ## The lengths of the codes (R101 (b)) -/

/-- FREQ has NSYM_MAX counts, so N - 1 fits CODE_LEN_MAX (R7, R8 (c)). -/
theorem counted_pred_le_codeLenMax (hlen : counts.length = c.nsymMax) :
    counts.countP (· ≠ 0) - 1 ≤ c.codeLenMax := by
  have : counts.countP (· ≠ 0) ≤ counts.length := List.countP_le_length
  unfold Config.codeLenMax
  omega

theorem codeAt_codesOf_len (hc : c.wf) (h : IsCodeTree counts t) (hlen : counts.length = c.nsymMax)
    {x : Sym} (hx : counts.getD x.toNat 0 ≠ 0) :
    1 ≤ (codeAt (codesOf c (treeOf counts)).entries x).len.toNat ∧
      (codeAt (codesOf c (treeOf counts)).entries x).len.toNat ≤ max 1 (counts.countP (· ≠ 0) - 1) ∧
      (codeAt (codesOf c (treeOf counts)).entries x).len.toNat ≤ c.codeLenMax := by
  obtain ⟨ip, hip, -, hcode⟩ := exists_code_of_counted (c := c) h hlen (hlen ▸ nsymMax_le hc) hx
  obtain ⟨hpos, hmax⟩ := HTree.codes_length h.rep hip
  have hfit := (code_length_le h hlen hip).2
  rw [hcode, entryOfPath_len (hfit.trans (Config.codeLenMax_le hc)), ← h.leaves_length]
  exact ⟨hpos, hmax, hfit⟩

/-! ## No code is a prefix of another (R101 (c)) -/

/-- Two counted symbols differ only when there are two leaves. -/
theorem IsCodeTree.counted_unique (h : IsCodeTree counts t) (hone : counts.countP (· ≠ 0) = 1) {x y : Sym}
    (hx : counts.getD x.toNat 0 ≠ 0) (hy : counts.getD y.toNat 0 ≠ 0) : x = y := by
  obtain ⟨i, hi, rfl⟩ := h.exists_leaf hx
  obtain ⟨j, hj, rfl⟩ := h.exists_leaf hy
  rw [h.eq_leaf_zero hone, HTree.leaves, List.mem_singleton] at hi hj
  rw [hi, hj]

/-- With two leaves or more the codes are paths to leaves, and no path goes on below a leaf. -/
theorem eq_of_codestr_prefix (hc : c.wf) (h : IsCodeTree counts t) (hlen : counts.length = c.nsymMax)
    {x y : Sym} (hx : counts.getD x.toNat 0 ≠ 0) (hy : counts.getD y.toNat 0 ≠ 0)
    (hp : codestr (codeAt (codesOf c (treeOf counts)).entries x) <+:
      codestr (codeAt (codesOf c (treeOf counts)).entries y)) : x = y := by
  have hpos : 1 ≤ counts.countP (· ≠ 0) := h.leaves_length ▸ t.leaves_pos
  rcases hpos.eq_or_lt with hone | htwo
  · exact h.counted_unique hone.symm hx hy
  · obtain ⟨i, hpath, hleaf, rfl⟩ := code_path hc h hlen htwo hx
    obtain ⟨j, hpath', -, rfl⟩ := code_path hc h hlen htwo hy
    rw [(hpath.prefix_leaf hleaf hpath' hp).2]

/-! ## The codes fill the code space (R101 (d)) -/

/-- The paths of a tree of two leaves or more fill the code space (R99). -/
theorem HTree.codes_kraft {n : Nat} (htwo : 2 ≤ t.leaves.length) (hn : t.leaves.length - 1 ≤ n) :
    (t.codes.map fun ip => 2 ^ (n - ip.2.length)).sum = 2 ^ n := by
  have hheight := t.height_lt_leaves
  cases t with
  | leaf i => exact absurd htwo (Nat.lt_irrefl 1)
  | node i l r => exact HTree.kraft (.node i l r) [] n (by simp only [List.length_nil]; omega)

theorem kraft_sum_codesOf (hc : c.wf) (h : IsCodeTree counts t) (hlen : counts.length = c.nsymMax)
    (htwo : 2 ≤ counts.countP (· ≠ 0)) :
    (((codesOf c (treeOf counts)).entries.filter (·.valid)).map fun e => 2 ^ (c.codeLenMax - e.len.toNat)).sum
      = 2 ^ c.codeLenMax := by
  have hshare : ∀ ip ∈ t.codes,
      2 ^ (c.codeLenMax - (entryOfPath ip.2).len.toNat) = 2 ^ (c.codeLenMax - ip.2.length) := fun ip hip => by
    rw [entryOfPath_len ((code_length_le h hlen hip).2.trans (Config.codeLenMax_le hc))]
  rw [((filter_valid_codesOf h hlen (hlen ▸ nsymMax_le hc)).map _).sum_eq, List.map_map]
  refine (congrArg List.sum (List.map_congr_left hshare)).trans (t.codes_kraft ?_ ?_) <;> rw [h.leaves_length]
  · exact htwo
  · exact counted_pred_le_codeLenMax hlen

end

/-- Settles O35: the table is the one of the built tree's leaves, and each clause of R101 is a property of that
table. -/
theorem assignedTableIsPrefixCode : Obligations.AssignedTableIsPrefixCode := by
  intro s hready
  obtain ⟨tree, hcodeTree⟩ := hready.exists_isCodeTree
  have hl := hready.counts_length_le
  obtain ⟨t, hbuild, hbuilt, htree⟩ := exists_exec_buildTree hready
  obtain ⟨u, hassign, -, hcodes⟩ := exists_exec_assignCodes (s := t) (by rw [htree]; rfl)
  obtain ⟨hc, -, hlen, hnsym, -⟩ := hready
  rw [htree, hbuilt.cfg] at hcodes
  refine ⟨t, u, hbuild, hassign, ?_⟩
  rw [hcodes, hnsym]
  exact ⟨codeAt_codesOf_valid_iff hcodeTree hlen hl, countP_valid_codesOf hcodeTree hlen hl,
    fun _ => codeAt_codesOf_len hc hcodeTree hlen, counted_pred_le_codeLenMax hlen,
    fun _ _ => eq_of_codestr_prefix hc hcodeTree hlen, kraft_sum_codesOf hc hcodeTree hlen⟩

end Sys2Proof.Machine
end

section
/-! The length laws of the packed bit sequence (R109), and its length as the sum over the symbols of their counts and
the lengths of their codes. -/

namespace Sys2Proof.Machine

/-! ## BIT_LEN from the counts and the lengths of the codes (R109 (e)) -/

/-- A sum over the symbols of a text is a sum over the alphabet, each symbol weighted by its occurrences. -/
theorem sum_map_eq_sum_range_count {n : Nat} (hn : n ≤ 256) {text : List Sym} (hs : ∀ x ∈ text, x.toNat < n)
    (f : Sym → Nat) : (text.map f).sum =
      ((List.range n).map fun v => text.count (BitVec.ofNat 8 v) * f (BitVec.ofNat 8 v)).sum := by
  have hinj : Set.InjOn (BitVec.ofNat 8) (Finset.range n) := fun a ha b hb hab => by
    have ha : a < n := by simpa using ha
    have hb : b < n := by simpa using hb
    have hmod : a % 256 = b % 256 := by simpa using congrArg BitVec.toNat hab
    omega
  have hsub : text.toFinset ⊆ (Finset.range n).image (BitVec.ofNat 8) := fun x hx =>
    Finset.mem_image.2 ⟨x.toNat, Finset.mem_range.2 (hs x (List.mem_toFinset.1 hx)), by simp⟩
  have habsent : ∀ x ∉ text.toFinset, text.count x • f x = 0 := fun x hx => by
    rw [List.count_eq_zero.2 (mt List.mem_toFinset.2 hx), zero_smul]
  calc (text.map f).sum
      = ∑ x ∈ text.toFinset, text.count x • f x := Finset.sum_list_map_count text f
    _ = ∑ x ∈ (Finset.range n).image (BitVec.ofNat 8), text.count x • f x :=
        Finset.sum_subset hsub fun x _ => habsent x
    _ = ∑ v ∈ Finset.range n, text.count (BitVec.ofNat 8 v) • f (BitVec.ofNat 8 v) := Finset.sum_image hinj

theorem codedText_length (entries : List CodeEntry) (text : List Sym) :
    (codedText entries text).length = (text.map fun x => (codeAt entries x).len.toNat).sum := by
  simp only [codedText, List.length_flatMap, codestr_length]

/-- R109 (e), for any table: the length of the coded text, where FREQ counts the text. -/
theorem codedText_length_eq_sum_freqAt {s : State} (hc : s.cfg.wf) (ht : s.text.wf s.cfg)
    (hfreq : ∀ v < s.cfg.nsymMax, (freqAt s (BitVec.ofNat 8 v)).toNat = s.input.count (BitVec.ofNat 8 v))
    (entries : List CodeEntry) :
    (codedText entries s.input).length = ((List.range s.cfg.nsymMax).map fun v =>
      (freqAt s (BitVec.ofNat 8 v)).toNat * (codeAt entries (BitVec.ofNat 8 v)).len.toNat).sum := by
  rw [codedText_length, sum_map_eq_sum_range_count (nsymMax_le hc) (input_legal ht)]
  exact congrArg List.sum (List.map_congr_left fun v hv => by rw [hfreq v (List.mem_range.1 hv)])

/-! ## The padding (R106, R109) -/

/-- The padding fills the last byte of the payload (R109 (b)). -/
theorem length_add_extraOf (bits : Bits) : bits.length + extraOf bits = 8 * (bits.length / 8 + 1) := by
  unfold extraOf; omega

/-- OUT[0] is the padding count (R107, R109 (c)). -/
theorem outAt_zero_of_outOf {t : State} {bits : Bits} (h : t.out = outOf bits) :
    (outAt t 0).toNat = extraOf bits := by
  have hrange := extraOf_range bits
  rw [outAt, h, outOf_bytes, List.getD_cons_zero, BitVec.toNat_ofNat]
  omega

/-! ## PACK -/

/-- PACK of a text whose symbols all have codes completes with their codes in OUT (R108). -/
theorem exists_exec_pack {s : State} (hv : s.codes.valid = true)
    (hx : ∀ x ∈ s.input, (codeAt s.codes.entries x).valid = true) :
    ∃ t, exec .pack s = .next t ∧ Succeeded s t ∧ t.out = outOf (codedText s.codes.entries s.input) :=
  have ⟨hexec, hok⟩ := succeeded_of_rule (i := .pack) (packBody_ok hv hx)
  ⟨_, hexec, hok, rfl⟩

/-- Settles O39: PACK leaves `outOf` of the coded text, whose registers and bytes are known; the length of the coded
text is a sum over the text, which FREQ turns into a sum over the alphabet. -/
theorem packLengthLaws : Obligations.PackLengthLaws := by
  intro s hc ⟨htext, _⟩ hv hx
  obtain ⟨t, hexec, -, hout⟩ := exists_exec_pack hv hx
  have hsum := codedText_length_eq_sum_freqAt hc htext (entries := s.codes.entries)
  have hfit := codedText_length_lt hc htext s.codes.entries
  generalize codedText s.codes.entries s.input = bits at hout hsum hfit
  obtain ⟨hlen, hbitLen, hpad, -⟩ := outOf_registers hfit
  obtain ⟨hpos, hmax⟩ := extraOf_range bits
  have hfill := length_add_extraOf bits
  refine ⟨t, hexec, ?_⟩
  rw [outAt_zero_of_outOf hout, payloadBits, hout, hlen, hbitLen, hpad, outOf_payload]
  refine ⟨rfl, by omega, hpos, hmax, rfl, ?_, hsum⟩
  exact List.drop_left' (by omega)

end Sys2Proof.Machine
end

section
/-! The errors of the commands (R124 to R131): which command fails with which code, in which state, and what no command
reports. -/

namespace Sys2Proof.Machine

/-! ## When a command's rule fails -/

section Rules

variable {s : State}

/-- No room for one more symbol (R130). -/
theorem textPushBody_full {sym : Sym} (h : s.text.len.toNat = s.cfg.textMax) :
    textPushBody sym s = .fail .capacityError (BitVec.ofNat 32 s.cfg.textMax) := if_pos h

theorem buildTreeBody_noFreq (h : s.freq.valid = false) :
    buildTreeBody s = .fail .sequenceError freqValidMask := if_pos h

/-- A table that counts no symbol (R97). -/
theorem buildTreeBody_noSymbols (hv : s.freq.valid = true) (hn : s.freq.nsym = 0) :
    buildTreeBody s = .fail .invalidInput 0 := by
  rw [buildTreeBody, if_neg (by simp [hv]), if_pos hn]

theorem assignCodesBody_noTree (h : s.tree.valid = false) :
    assignCodesBody s = .fail .sequenceError treeValidMask := if_pos h

theorem packBody_noCodes (h : s.codes.valid = false) :
    packBody s = .fail .sequenceError codesValidMask := if_pos h

theorem compressBody_noText (h : s.text.len = 0) : compressBody s = .fail .invalidInput 0 := if_pos h

/-- PACK of a text with a symbol that has no code (R126). -/
theorem packBody_missingCode (hv : s.codes.valid = true) {x : Sym} {k : Nat}
    (h : assembleFrom s.codes.entries 0 s.input = .error (x, k)) :
    packBody s = .fail .lookupError (lookupInfo x k) := by
  rw [packBody, if_neg (by simp [hv]), h]

end Rules

/-! ## The first symbol without a code (R105, R126) -/

/-- `assemble()` fails at the first symbol without a code: it cannot succeed past it, and the symbol it reports is
preceded by symbols with codes only, so it comes neither later nor earlier. -/
theorem assembleFrom_eq_error {entries : List CodeEntry} (i : Nat) {text : List Sym} {k : Nat} {x : Sym}
    (hx : text[k]? = some x) (hmiss : (codeAt entries x).valid = false)
    (hfirst : ∀ m < k, ∀ y, text[m]? = some y → (codeAt entries y).valid = true) :
    assembleFrom entries i text = .error (x, i + k) := by
  cases h : assembleFrom entries i text with
  | ok bits =>
    have hall := ((assembleFrom_ok_iff entries i text bits).1 h).1
    simp [hall x (List.mem_of_getElem? hx)] at hmiss
  | error e =>
    obtain ⟨y, n⟩ := e
    obtain ⟨j, rfl, hy, hmiss', hfirst'⟩ := assembleFrom_error h
    obtain hlt | rfl | hgt := Nat.lt_trichotomy j k
    · simp [hfirst j hlt y hy] at hmiss'
    · rw [hx] at hy
      cases hy
      rfl
    · simp [hfirst' k hgt x hx] at hmiss

/-- ERR_INFO of a LOOKUP_ERROR as a number: the two fields do not overlap (R126). -/
theorem lookupInfo_toNat (x : Sym) {k : Nat} (hk : k < 2 ^ 24) :
    (lookupInfo x k).toNat = x.toNat * 2 ^ 24 + k := by
  have hshift : x.toNat <<< 24 < 2 ^ 32 := by have := x.isLt; rw [Nat.shiftLeft_eq]; omega
  simp only [lookupInfo, BitVec.toNat_or, BitVec.toNat_shiftLeft, BitVec.toNat_setWidth, BitVec.toNat_ofNat]
  rw [Nat.mod_eq_of_lt (by omega : x.toNat < 2 ^ 32), Nat.mod_eq_of_lt hshift, Nat.mod_eq_of_lt (by omega : k < 2 ^ 32),
    ← Nat.shiftLeft_add_eq_or_of_lt hk, Nat.shiftLeft_eq]

/-- An index into the text fits ERR_INFO[23:0] (R7, R33). -/
theorem lt_of_input_getElem? {s : State} (hc : s.cfg.wf) (ht : s.text.wf s.cfg) {k : Nat} {x : Sym}
    (h : s.input[k]? = some x) : k < 2 ^ 24 := by
  have hlt : k < s.input.length := (List.getElem?_eq_some_iff.1 h).1
  have hlen := input_length ht
  have hmax := text_len_le hc ht
  omega

/-! ## The codes a completion can report (R124) -/

/-- A completion reports code 0 with ERR = 0, or the code of an error with ERR = 1. -/
theorem exec_report_cases {i : Instr} {s t : State} (h : exec i s = .next t) :
    (t.report.errCode = 0 ∧ t.report.err = false) ∨
      ∃ e : ErrCode, t.report.errCode = e.code ∧ t.report.err = true := by
  rw [exec_next_iff] at h
  subst h
  cases ruleOf i s with
  | ok u => exact .inl ⟨rfl, rfl⟩
  | fail e info => exact .inr ⟨e, rfl, rfl⟩

/-- COMPRESS of a non-empty text completes without an error (R114). -/
theorem exec_compress_errCode {s t : State} (hc : s.cfg.wf) (hm : Memory.wf s) (hn : s.text.len ≠ 0)
    (h : exec .compress s = .next t) : t.report.errCode = 0 := by
  obtain ⟨_, _, hok⟩ := compressBody_ok hc hm hn
  rw [(succeeded_of_rule (i := .compress) hok).1] at h
  cases h
  rfl

/-! ## The obligations -/

/-- Settles O40: `assemble()` fails at index `k`, and the two fields of ERR_INFO are the symbol and `k`. -/
theorem packReportsFirstMissingCode : Obligations.PackReportsFirstMissingCode := by
  intro s k x hc ⟨htext, _⟩ hv hx hmiss hfirst
  have herror := assembleFrom_eq_error 0 hx hmiss hfirst
  rw [Nat.zero_add] at herror
  have hk := lt_of_input_getElem? hc htext hx
  have hinfo := lookupInfo_toNat x hk
  refine ⟨lookupInfo x k, ?_, by omega, by omega⟩
  exact failsWith_of_rule (i := .pack) (e := .lookupError) (packBody_missingCode hv herror)

/-- Settles O41: STRUCTURAL_ERROR has no cause; a success reports 0, a failure the code of an error, 1 to 7. -/
theorem neverStructuralOrReservedError : Obligations.NeverStructuralOrReservedError := by
  intro i s t h
  refine ⟨fun h3 => exec_errCode (e := .structuralError) h h3, ?_⟩
  obtain ⟨hcode, herr⟩ | ⟨e, hcode, herr⟩ := exec_report_cases h <;> rw [hcode, herr]
  · decide
  · exact ⟨e.code_le, iff_of_false e.code_ne_zero (by decide)⟩

/-- Settles O22: a full buffer fails the rule of TEXT_PUSH, and CAPACITY_ERROR has no other cause. -/
theorem textPushIntoFullBuffer : Obligations.TextPushIntoFullBuffer := by
  refine fun s => ⟨fun sym hsym hfull => ?_, fun i t h h6 => exec_errCode (e := .capacityError) h h6⟩
  exact failsWith_of_rule (i := .textPush sym) (e := .capacityError)
    ((withSym_legal _ hsym).trans (textPushBody_full hfull))

/-- Settles O30: each stage checks its input product first, and SEQUENCE_ERROR has no other cause. -/
theorem sequenceErrors : Obligations.SequenceErrors := fun _ =>
  ⟨fun hfreq => failsWith_of_rule (i := .buildTree) (e := .sequenceError) (buildTreeBody_noFreq hfreq),
    fun htree => failsWith_of_rule (i := .assignCodes) (e := .sequenceError) (assignCodesBody_noTree htree),
    fun hcodes => failsWith_of_rule (i := .pack) (e := .sequenceError) (packBody_noCodes hcodes),
    fun _ _ h h5 => exec_errCode (e := .sequenceError) h h5⟩

/-- Settles O31: only BUILD_TREE and COMPRESS have a cause for INVALID_INPUT, and COMPRESS of a text succeeds. -/
theorem invalidInputCases : Obligations.InvalidInputCases := by
  refine fun s => ⟨fun hv hn => ?_, fun hempty => ?_, fun hc hm i t h h1 => ?_⟩
  · exact failsWith_of_rule (i := .buildTree) (e := .invalidInput) (buildTreeBody_noSymbols hv hn)
  · exact failsWith_of_rule (i := .compress) (e := .invalidInput) (compressBody_noText hempty)
  · obtain hbuild | rfl : ErrorCause i s .invalidInput := exec_errCode h h1
    · exact .inl hbuild
    · refine .inr ⟨rfl, ?_⟩
      by_contra hn
      rw [exec_compress_errCode hc hm hn h] at h1
      cases h1

/-- Settles O51: the check of INDEX fails each of the three commands with INDEX, zero-extended, in ERR_INFO. -/
theorem rangeErrors : Obligations.RangeErrors := fun s index =>
  ⟨indexWord index, by simp only [indexWord, BitVec.toNat_setWidth]; omega,
    fun h => failsWith_of_rule (i := .textRead index) (e := .rangeError) (withIndex_out _ h),
    fun h => failsWith_of_rule (i := .nodeRead index) (e := .rangeError) (withIndex_out _ h),
    fun h => failsWith_of_rule (i := .outRead index) (e := .rangeError) (withIndex_out _ h)⟩

end Sys2Proof.Machine
end

section
/-! The state after hardware reset (R142): what every register and table holds; and CLEAR against reset (R145). -/

namespace Sys2Proof.Machine

/-! ## The empty tables (R40) -/

theorem freqAt_of_empty {s : State} {c : Config} (h : s.freq = .empty c) (sym : Sym) : freqAt s sym = 0 := by
  simp [freqAt, h, FreqTable.empty]

@[simp] theorem codeAt_empty (c : Config) (sym : Sym) : codeAt (CodeTable.empty c).entries sym = CodeEntry.none := by
  simp [codeAt, CodeTable.empty]

/-! ## The state after reset (R44, R142) -/

section Reset

variable (c : Config) (e : Env)

/-- No event is pending and none is enabled, so IRQ is low (R46). -/
theorem irqLine_resetIn : (State.resetIn c e).irqLine = false := by
  simp [State.irqLine, State.resetIn]

/-- The block is IDLE, without an error and without a product (R26). -/
theorem status_resetIn : (State.resetIn c e).status = 0 := by
  change statusWord (bit false ++ bit false ++ bit false ++ bit false) 0 false false = 0
  decide

theorem codeW_resetIn : (State.resetIn c e).data.codeW = .replicate 8 0 := rfl

/-- After reset a register reads 0, unless it is one of the four that identify the implementation (R22 to R24). -/
theorem regValue_resetIn {r : Reg} (hr : r ∉ [.id, .cfg, .cfgTextMax, .cfgOutMax]) :
    regValue (State.resetIn c e) r = 0 := by
  cases r with
  | id | cfg | cfgTextMax | cfgOutMax => simp at hr
  | status => exact status_resetIn c e
  | codeW k => rw [regValue, codeW_resetIn, Vector.getElem_replicate]
  | _ => rfl

end Reset

/-! ## CLEAR against reset (R145) -/

/-- CLEAR's effects are those of a reset, but for PHASE, the report, the interrupts, QUEUE and the data registers. -/
theorem clearRun_eq_resetIn (s : State) : clearRun s = { State.resetIn s.cfg s.env with
    phase := s.phase, report := s.report, irq := s.irq, queue := s.queue, data := s.data } := rfl

/-- CLEAR always succeeds (R85). -/
theorem exec_clear (s : State) : exec .clear s = .next (reportOk (clearRun s)) := exec_eq .clear s

theorem encode_clear : encode .clear = 0x00000001 := by decide

/-! ## The obligations -/

/-- Settles O1: PHASE, the parameters, QUEUE and the tables are those `State.resetIn` names, and the registers follow. -/
theorem resetStateIsAllZero : Obligations.ResetStateIsAllZero := by
  intro c e
  have hregs : ∀ r ∈ [Reg.status, .irqStatus, .irqEnable, .lastCmd, .errInfo, .textLen, .nsym, .nnodes, .root, .bitLen,
      .pad, .outLen, .result0, .result1, .result2], r ∉ [Reg.id, .cfg, .cfgTextMax, .cfgOutMax] := by decide
  refine ⟨_, rfl, rfl, rfl, rfl, irqLine_resetIn c e, fun r hr => regValue_resetIn c e (hregs r hr),
    fun k => regValue_resetIn c e (by simp), rfl, rfl, freqAt_of_empty rfl, fun sym => ?_⟩
  exact congrArg CodeEntry.valid (codeAt_empty c sym)

/-- Settles O20: the effects of CLEAR are those of a reset; the issue gives LAST_CMD and the report the rest. -/
theorem clearComparedWithReset : Obligations.ClearComparedWithReset := by
  intro s _ hqueue
  rw [exec_clear, clearRun_eq_resetIn, encode_clear, issue_queue, hqueue]
  rfl

end Sys2Proof.Machine
end

section
/-! The decoder and the encoder undo each other (R63 to R70). -/

namespace Sys2Proof

/-! ## Decoding the word of a command, format by format -/

section Encoded

variable {i : Instr} {sym : Sym} {len : BitVec 8}

theorem formatN_encode (h : i.operandBits = 0) (j : Instr) : formatN (encode i) j = .ok j :=
  if_pos ((indexOf_encode i).trans h)

theorem formatS_encode (h : i.operandBits = 0#16 ++ sym) (f : Sym → Instr) :
    formatS (encode i) f = .ok (f sym) := by
  have hreserved : (encode i).extractLsb' 16 16 = 0 := by
    rw [field_encode i 8 16, h, reserved_operandBits]
  have hsym : symOf (encode i) = sym := by
    rw [symOf, field_encode i 0 8, h, symOf_operandBits]
  rw [formatS, if_pos hreserved, hsym]

theorem formatSL_encode (h : i.operandBits = 0#8 ++ len ++ sym) (f : Sym → BitVec 8 → Instr) :
    formatSL (encode i) f = .ok (f sym len) := by
  obtain ⟨hfield, hzero⟩ := lenOf_operandBits len sym
  have hreserved : (encode i).extractLsb' 24 8 = 0 := by
    rw [field_encode i 16 8, h, hzero]
  have hsym : symOf (encode i) = sym := by
    rw [symOf, field_encode i 0 8, h]
    exact symOf_operandBits (0#8 ++ len) sym
  have hlen : lenOf (encode i) = len := by
    rw [lenOf, field_encode i 8 8, h, hfield]
  rw [formatSL, if_pos hreserved, hsym, hlen]

theorem formatX_encode (f : Index → Instr) : formatX (encode i) f = .ok (f i.operandBits) := by
  rw [formatX, indexOf_encode]

end Encoded

/-- The OPCODE of the word chooses the command's own format, and the format gives the operands back. -/
theorem decode_encode (i : Instr) : decode (encode i) = .ok i := by
  rw [decode, opcodeOf_encode]
  cases i with
  | nop | clear | freqCount | buildTree | assignCodes | pack | compress => exact formatN_encode rfl _
  | textPush sym | freqRead sym | codeRead sym => exact formatS_encode rfl _
  | codeLoad sym len => exact formatSL_encode rfl _
  | textRead index | nodeRead index | outRead index => exact formatX_encode _

/-! ## The word of a decoded command, format by format -/

section Decoded

variable {w : Word} {j : Instr}

/-- A word is its OPCODE and the bits above it (R64, R65). -/
theorem encode_eq_of_fields (hop : j.opcode = opcodeOf w) (hbits : j.operandBits = indexOf w) : encode j = w := by
  rw [encode, hop, hbits, indexOf, opcodeOf]
  exact (BitVec.extractLsb'_append_extractLsb'_eq_extractLsb' rfl).trans BitVec.extractLsb'_eq_self

theorem encode_of_formatN {i : Instr} (h : formatN w i = .ok j) (hop : i.opcode = opcodeOf w)
    (hbits : i.operandBits = 0) : encode j = w := by
  unfold formatN at h
  split at h <;> cases h
  rename_i hzero
  exact encode_eq_of_fields hop (hbits.trans hzero.symm)

/-- INDEX is SYM and the bits above it (R66, R68). -/
theorem append_symOf (w : Word) : w.extractLsb' 16 16 ++ symOf w = indexOf w :=
  BitVec.extractLsb'_append_extractLsb'_eq_extractLsb' rfl

/-- Where the bits above SYM are 0, the operand bits are SYM under zeros (R69). -/
theorem indexOf_formatS (h : w.extractLsb' 16 16 = 0) : indexOf w = 0#16 ++ symOf w := by
  rw [← append_symOf, h]; rfl

theorem encode_of_formatS {f : Sym → Instr} (h : formatS w f = .ok j) (hop : (f (symOf w)).opcode = opcodeOf w)
    (hbits : (f (symOf w)).operandBits = 0#16 ++ symOf w) : encode j = w := by
  unfold formatS at h
  split at h <;> cases h
  rename_i hzero
  exact encode_eq_of_fields hop (hbits.trans (indexOf_formatS hzero).symm)

/-- Where the bits above LEN are 0, the operand bits are LEN over SYM under zeros (R69). -/
theorem indexOf_formatSL (h : w.extractLsb' 24 8 = 0) : indexOf w = 0#8 ++ lenOf w ++ symOf w := by
  have hhigh : w.extractLsb' 24 8 ++ lenOf w = w.extractLsb' 16 16 :=
    BitVec.extractLsb'_append_extractLsb'_eq_extractLsb' rfl
  rw [← append_symOf, ← hhigh, h]; rfl

theorem encode_of_formatSL {f : Sym → BitVec 8 → Instr} (h : formatSL w f = .ok j)
    (hop : (f (symOf w) (lenOf w)).opcode = opcodeOf w)
    (hbits : (f (symOf w) (lenOf w)).operandBits = 0#8 ++ lenOf w ++ symOf w) : encode j = w := by
  unfold formatSL at h
  split at h <;> cases h
  rename_i hzero
  exact encode_eq_of_fields hop (hbits.trans (indexOf_formatSL hzero).symm)

theorem encode_of_formatX {f : Index → Instr} (h : formatX w f = .ok j)
    (hop : (f (indexOf w)).opcode = opcodeOf w) (hbits : (f (indexOf w)).operandBits = indexOf w) :
    encode j = w := by
  cases h
  exact encode_eq_of_fields hop hbits

/-- R69: no bit of a word that decodes is ignored. -/
theorem encode_of_decode (h : decode w = .ok j) : encode j = w := by
  have hop : ∀ {op : BitVec 8}, (opcodeOf w).toNat = op.toNat → op = opcodeOf w :=
    fun e => BitVec.eq_of_toNat_eq e.symm
  unfold decode at h
  split at h
  case h_1 e | h_2 e | h_4 e | h_5 e | h_6 e | h_8 e | h_9 e => exact encode_of_formatN h (hop e) rfl
  case h_3 e | h_11 e | h_13 e => exact encode_of_formatS h (hop e) rfl
  case h_7 e => exact encode_of_formatSL h (hop e) rfl
  case h_10 e | h_12 e | h_14 e => exact encode_of_formatX h (hop e) rfl
  case h_15 => cases h

end Decoded

end Sys2Proof

namespace Sys2Proof.Machine

/-- Settles O14: the OPCODE chooses the command's format, and each format's fields are the operands. -/
theorem decodeOfEncode : Obligations.DecodeOfEncode := decode_encode

/-- Settles O15: each format accounts for every bit above the OPCODE, as an operand or as a zero. -/
theorem encodeOfDecode : Obligations.EncodeOfDecode := fun _ _ => encode_of_decode

/-- Settles O17: the commands are decoded from the words they encode to, the three words without a command by the
decoder on that word. -/
theorem sampleWordsDecode : Obligations.SampleWordsDecode :=
  ⟨decode_encode .clear, decode_encode (.textPush 0x61), decode_encode (.codeLoad 0x62 3), decode_encode .compress,
    decode_encode (.nodeRead 4), decode_encode (.codeRead 0x72), decode_encode (.outRead 0xFFFFFF), by decide,
    by decide, by decide⟩

end Sys2Proof.Machine
end

section
/-! What a step does with the next event: accesses (R48 to R50), reset (R141), the completion's report (R79, R80), the
data registers (R121) and the event bits (R27). -/

namespace Sys2Proof.Machine

/-! ## Accesses the block has no step for (R49, R50) -/

theorem access_outside {s : State} {addr bytes : Nat} (h : addr < s.cfg.base ∨ s.cfg.base + 256 ≤ addr)
    (act : Reg → State → State) : access addr bytes s act = .fault .outsideWindow := if_pos h

theorem access_undefined {s : State} {addr bytes : Nat} (hlow : s.cfg.base ≤ addr) (hhigh : addr < s.cfg.base + 256)
    (h : bytes ≠ 4 ∨ (addr - s.cfg.base) % 4 ≠ 0) (act : Reg → State → State) :
    access addr bytes s act = .refused .undefinedAccess := by
  rw [access, if_neg (by omega), if_neg (by omega)]

/-- A read or a write with the next event's address and width is an access of the state with that event taken off. -/
theorem step_eq_access {s : State} {addr bytes : Nat} {v : Word} {es : List Event}
    (h : s.env.pending = .hostRead addr bytes :: es ∨ s.env.pending = .hostWrite addr bytes v :: es) :
    ∃ act, step s = access addr bytes (setPending es s) act := by
  rcases h with h | h
  · exact ⟨readReg, by rw [step, h]; rfl⟩
  · exact ⟨fun r => writeReg r v, by rw [step, h]; rfl⟩

/-! ## Every step but an access R49 or R50 excludes answers a next state -/

theorem exists_sequencerStep (s : State) : ∃ t, sequencerStep s = .next t := by
  unfold sequencerStep
  split
  · exact ⟨_, complete_eq _ s⟩
  · exact ⟨s, rfl⟩

theorem exists_step {s : State} (h : ∀ e es, s.env.pending = e :: es → e.defined s.cfg) : ∃ t, step s = .next t := by
  cases hp : s.env.pending with
  | nil =>
    rw [step, hp]
    exact exists_sequencerStep s
  | cons e es =>
    have hdef := h e es hp
    cases e with
    | hostRead addr bytes =>
      obtain ⟨rfl, off, hoff, h4, rfl⟩ := hdef
      exact ⟨_, step_read hoff h4 hp⟩
    | hostWrite addr bytes v =>
      obtain ⟨rfl, off, hoff, h4, rfl⟩ := hdef
      exact ⟨_, step_write hoff h4 hp⟩
    | reset => exact ⟨_, step_reset hp⟩
    | sequencer =>
      rw [step, hp]
      exact exists_sequencerStep (setPending es s)

/-! ## The report of a completion (R80) -/

/-- A completion is the success of R80 over the command's effects, or the failed state of R82. -/
theorem finish_outcomeOf_cases (w : Word) (s : State) : Succeeded s (finish s (outcomeOf w s)) ∨
    ∃ (e : ErrCode) (info : Word), Failed e.code info s (finish s (outcomeOf w s)) := by
  cases h : outcomeOf w s with
  | ok t =>
    obtain ⟨i, -, hi⟩ := outcomeOf_eq_ok h
    exact .inl (succeeded_of_rule hi).2
  | fail e info => exact .inr ⟨e, info, failed_reportFail e info s⟩

theorem finish_outcomeOf_env (w : Word) (s : State) : (finish s (outcomeOf w s)).env = s.env := by
  obtain h | ⟨e, info, h⟩ := finish_outcomeOf_cases w s
  · exact h.env
  · exact h.same.env

theorem finish_outcomeOf_lastCmd (w : Word) (s : State) :
    (finish s (outcomeOf w s)).report.lastCmd = s.report.lastCmd := by
  obtain h | ⟨e, info, h⟩ := finish_outcomeOf_cases w s
  · exact h.lastCmd
  · exact h.same.lastCmd

theorem finish_outcomeOf_enable (w : Word) (s : State) :
    (finish s (outcomeOf w s)).irq.enable = s.irq.enable := by
  obtain h | ⟨e, info, h⟩ := finish_outcomeOf_cases w s
  · exact h.enable
  · exact h.same.enable

/-- A completion raises DONE, and ERROR when it fails; every other event bit is as before (R80). -/
theorem finish_outcomeOf_events (w : Word) (s : State) :
    (finish s (outcomeOf w s)).irq.status = s.irq.status ||| 0b001 ∨
      (finish s (outcomeOf w s)).irq.status = s.irq.status ||| 0b011 := by
  obtain h | ⟨e, info, h⟩ := finish_outcomeOf_cases w s
  · exact .inl h.events
  · exact .inr h.events

/-- OVERRUN is none of the bits a completion raises (R80). -/
theorem finish_outcomeOf_overrun (w : Word) (s : State) :
    (finish s (outcomeOf w s)).irq.status.getLsbD 2 = s.irq.status.getLsbD 2 := by
  obtain h | h := finish_outcomeOf_events w s <;> rw [h] <;> simp

/-! ## A busy command completes (R152) -/

theorem writeReg_env (r : Reg) (v : Word) (s : State) : (writeReg r v s).env = s.env := by
  obtain h | h | ⟨-, h⟩ | ⟨-, k, h⟩ | h | h := writeReg_cases r v s <;> rw [h] <;> rfl

/-- A step takes its event off the list (R150). -/
theorem step_pending {s t : State} {e : Event} {es : List Event} (hp : s.env.pending = e :: es)
    (h : step s = .next t) : t.env.pending = es := by
  obtain ⟨u, hu, hcases⟩ := step_cases h
  have hes : u.env.pending = es := by
    obtain ⟨-, hnil⟩ | ⟨e', es', hp', rfl⟩ := hu
    · rw [hp] at hnil; cases hnil
    · rw [hp] at hp'; cases hp'; rfl
  obtain ⟨off, es, -, -, -, rfl⟩ | ⟨off, v, es, -, -, -, rfl⟩ | ⟨es, -, rfl⟩ | ⟨w, -, -, rfl⟩ | ⟨-, -, rfl⟩ := hcases
  · exact hes
  · rw [writeReg_env]; exact hes
  · exact hes
  · rw [finish_outcomeOf_env]; exact hes
  · exact hes

/-- The first step of a run. -/
theorem run_succ {s t : State} (h : step s = .next t) (n : Nat) :
    Host.Core.run Sys2Proof.core (n + 1) s = Host.Core.run Sys2Proof.core n t := by
  have hcore : Sys2Proof.core.step s = .next t := h
  simp only [Host.Core.run, hcore]

/-- Each step takes an event off the list, and with none left the sequencer completes the command. -/
theorem exists_run_idle {s : State} {w : Word} (es : List Event) (hp : s.env.pending = es) (hw : s.phase = .busy w)
    (hdef : ∀ e ∈ es, e.defined s.cfg) :
    ∃ n t, n ≤ es.length + 1 ∧ Host.Core.run Sys2Proof.core n s = .next t ∧ t.phase = .idle := by
  induction es generalizing s w with
  | nil => exact ⟨1, _, Nat.le_refl 1, run_succ (step_nil hw hp) 0, finish_phase _ _⟩
  | cons e es ih =>
    have hhead : ∀ e' es', s.env.pending = e' :: es' → e'.defined s.cfg := by
      intro e' es' hp'
      rw [hp] at hp'
      cases hp'
      exact hdef e List.mem_cons_self
    obtain ⟨t, ht⟩ := exists_step hhead
    cases hphase : t.phase with
    | idle => exact ⟨1, t, by simp, run_succ ht 0, hphase⟩
    | busy w' =>
      have htail : ∀ e' ∈ es, e'.defined t.cfg := fun e' he' => by
        rw [step_cfg ht]; exact hdef e' (List.mem_cons_of_mem _ he')
      obtain ⟨n, u, hn, hrun, hidle⟩ := ih (step_pending hp ht) hphase htail
      exact ⟨n + 1, u, by simpa using hn, (run_succ ht n).trans hrun, hidle⟩

/-! ## A completion and a write of CMD (R77, R78, R79) -/

section CommandWrite

variable {s : State} {w v : Word} {es : List Event}

theorem exists_step_completion (hw : s.phase = .busy w) (hp : s.env.pending = .sequencer :: es) :
    ∃ t, step s = .next t ∧ t.phase = .idle ∧ t.cfg = s.cfg ∧ t.env.pending = es ∧
      t.report.lastCmd = s.report.lastCmd ∧ t.irq.status.getLsbD 2 = s.irq.status.getLsbD 2 := by
  have hstep := step_sequencer hw hp
  exact ⟨_, hstep, finish_phase _ _, step_cfg hstep, step_pending hp hstep, finish_outcomeOf_lastCmd _ _,
    finish_outcomeOf_overrun _ _⟩

theorem step_write_cmd_idle (hidle : s.phase = .idle) (hp : s.env.pending = .hostWrite (s.cfg.base + 0x10) 4 v :: es) :
    step s = .next (issue v (setPending es s)) := by
  rw [step_write (by decide) (by decide) hp]
  exact congrArg _ (writeReg_cmd_idle (s := setPending es s) v hidle)

theorem step_write_cmd_busy (hw : s.phase = .busy w) (hp : s.env.pending = .hostWrite (s.cfg.base + 0x10) 4 v :: es) :
    step s = .next (dropWrite (setPending es s)) := by
  rw [step_write (by decide) (by decide) hp]
  exact congrArg _ (writeReg_cmd_busy (s := setPending es s) v hw)

end CommandWrite

/-! ## Who writes the data registers (R121) -/

/-- Only a read command's effects change the data registers, and only CODE_READ's change CODE_W. -/
theorem ruleOf_data {i : Instr} {s t : State} (h : ruleOf i s = .ok t) : t.data = s.data ∨
    isReadCommand i = true ∧ (t.data.codeW = s.data.codeW ∨ ∃ sym, i = .codeRead sym) := by
  cases i with
  | nop | clear => cases h; exact .inl rfl
  | textPush sym =>
    obtain ⟨-, h⟩ := withSym_eq_ok h
    unfold textPushBody at h
    split at h <;> cases h
    exact .inl rfl
  | freqCount => exact .inl (stage_frame_freqCount h).data
  | buildTree => exact .inl (stage_frame_buildTree h).data
  | assignCodes => exact .inl (stage_frame_assignCodes h).data
  | codeLoad sym len =>
    obtain ⟨-, h⟩ := withSym_eq_ok h
    obtain ⟨-, h⟩ := withLen_eq_ok h
    cases h
    exact .inl rfl
  | pack => exact .inl (stage_frame_pack h).data
  | compress => exact .inl (stage_frame_compress h).data
  | textRead index | nodeRead index | outRead index =>
    obtain ⟨-, h⟩ := withIndex_eq_ok h
    cases h
    exact .inr ⟨rfl, .inl rfl⟩
  | freqRead sym =>
    obtain ⟨-, h⟩ := withSym_eq_ok h
    cases h
    exact .inr ⟨rfl, .inl rfl⟩
  | codeRead sym => exact .inr ⟨rfl, .inr ⟨sym, rfl⟩⟩

/-- A completion changes the data registers only as the success of a read command. -/
theorem finish_outcomeOf_data (w : Word) (s : State) : (finish s (outcomeOf w s)).data = s.data ∨
    ∃ i, decode w = .ok i ∧ isReadCommand i = true ∧ (finish s (outcomeOf w s)).report.err = false ∧
      ((finish s (outcomeOf w s)).data.codeW = s.data.codeW ∨ ∃ sym, i = .codeRead sym) := by
  cases h : outcomeOf w s with
  | ok t =>
    obtain ⟨i, hdecode, hi⟩ := outcomeOf_eq_ok h
    obtain hsame | ⟨hread, hcode⟩ := ruleOf_data hi
    · exact .inl hsame
    · exact .inr ⟨i, hdecode, hread, rfl, hcode⟩
  | fail e info => exact .inl rfl

/-- A host write changes a data register only as a write of CODE_Wk while IDLE (R32, R87). -/
theorem writeReg_data (r : Reg) (v : Word) (s : State) : (writeReg r v s).data = s.data ∨
    s.phase = .idle ∧ ∃ k, r = .codeW k ∧ writeReg r v s = setCodeW k v s := by
  cases r with
  | cmd =>
    cases hp : s.phase with
    | idle => rw [writeReg_cmd_idle v hp]; exact .inl rfl
    | busy w => rw [writeReg_cmd_busy v hp]; exact .inl rfl
  | codeW k =>
    cases hp : s.phase with
    | idle => exact .inr ⟨rfl, k, rfl, writeReg_codeW_idle v k hp⟩
    | busy w => rw [writeReg_codeW_busy v k hp]; exact .inl rfl
  | _ => exact .inl rfl

/-- WHO WRITES THE DATA REGISTERS, said once (R121): a reset, a host write of CODE_Wk while IDLE, or the success of a
read command. -/
theorem step_data {s t : State} (h : step s = .next t) : t.data = s.data ∨
    (∃ es, s.env.pending = .reset :: es) ∨
    (s.phase = .idle ∧ ∃ (k : Fin 8) (v : Word) (es : List Event),
      s.env.pending = .hostWrite (s.cfg.base + (0x50 + 4 * k.val)) 4 v :: es ∧
      t.data = { s.data with codeW := s.data.codeW.set k.val v }) ∨
    ∃ u w i, SequencerTurn s u ∧ s.phase = .busy w ∧ t.phase = .idle ∧ decode w = .ok i ∧ isReadCommand i = true ∧
      t.report.err = false ∧ (t.data.codeW = s.data.codeW ∨ ∃ sym, i = .codeRead sym) := by
  obtain ⟨u, hu, hcases⟩ := step_cases h
  have hdata : u.data = s.data := by obtain ⟨rfl, -⟩ | ⟨e, es, -, rfl⟩ := hu <;> rfl
  have hphase : u.phase = s.phase := by obtain ⟨rfl, -⟩ | ⟨e, es, -, rfl⟩ := hu <;> rfl
  rw [← hdata, ← hphase]
  obtain ⟨off, es, -, -, -, rfl⟩ | ⟨off, v, es, -, -, hp, rfl⟩ | ⟨es, hp, -⟩ | ⟨w, hturn, hw, rfl⟩ | ⟨-, -, rfl⟩ :=
    hcases
  · exact .inl rfl
  · obtain hsame | ⟨hidle, k, hreg, hset⟩ := writeReg_data (regAt off) v u
    · exact .inl hsame
    · rw [eq_of_regAt_codeW hreg] at hp
      exact .inr (.inr (.inl ⟨hidle, k, v, es, hp, by rw [hset]; rfl⟩))
  · exact .inr (.inl ⟨es, hp⟩)
  · obtain hsame | ⟨i, hdecode, hread, herr, hcode⟩ := finish_outcomeOf_data w u
    · exact .inl hsame
    · exact .inr (.inr (.inr ⟨u, w, i, hturn, hphase.trans hw, finish_phase _ _, hdecode, hread, herr, hcode⟩))
  · exact .inl rfl

/-! ## The event bits (R27) -/

/-- Raising events clears none. -/
theorem getLsbD_raise {q : Irq} {k : Nat} (h : q.status.getLsbD k = true) (events : BitVec 3) :
    (q.raise events).status.getLsbD k = true := by simp [Irq.raise, h]

/-- A host write clears an event bit only with a 1 in that bit of IRQ_STATUS. -/
theorem writeReg_events {r : Reg} {v : Word} {s : State} {k : Nat} (h : s.irq.status.getLsbD k = true) :
    (writeReg r v s).irq.status.getLsbD k = true ∨ r = .irqStatus ∧ v.getLsbD k = true := by
  have hk : k < 3 := BitVec.lt_of_getLsbD h
  cases r with
  | cmd =>
    cases hp : s.phase with
    | idle => rw [writeReg_cmd_idle v hp]; exact .inl h
    | busy w => rw [writeReg_cmd_busy v hp]; exact .inl (getLsbD_raise h _)
  | codeW j =>
    cases hp : s.phase with
    | idle => rw [writeReg_codeW_idle v j hp]; exact .inl h
    | busy w => rw [writeReg_codeW_busy v j hp]; exact .inl (getLsbD_raise h _)
  | irqStatus =>
    cases hv : v.getLsbD k with
    | true => exact .inr ⟨rfl, rfl⟩
    | false =>
      rw [writeReg_irqStatus]
      exact .inl (by simp [h, hv, hk])
  | _ => exact .inl h

theorem finish_outcomeOf_keeps_events {w : Word} {s : State} {k : Nat} (h : s.irq.status.getLsbD k = true) :
    (finish s (outcomeOf w s)).irq.status.getLsbD k = true := by
  obtain e | e := finish_outcomeOf_events w s <;> rw [e] <;> simp [h]

/-! ## The obligations -/

/-- Settles O58: by the inversion of a step; the invariant is kept by each kind of step. -/
theorem stepKeepsInv : Obligations.StepKeepsInv := fun _ _ h ht => h.of_step ht

/-- Settles O8: only an access R49 or R50 excludes has no next state. -/
theorem definedEventHasNextStep : Obligations.DefinedEventHasNextStep := fun _ => exists_step

/-- Settles O9: by induction on the list of events. -/
theorem busyCommandCompletes : Obligations.BusyCommandCompletes := fun _ _ hw => exists_run_idle _ rfl hw

/-- Settles O13: a dropped write, then the completion; or the completion, then the issue. -/
theorem completionAndCommandWriteRace : Obligations.CompletionAndCommandWriteRace := by
  intro s w v es hw
  refine ⟨fun hp => ?_, fun hp => ?_⟩
  · have hdrop := step_write_cmd_busy hw hp
    obtain ⟨t, hturn, hidle, -, -, hlast, hoverrun⟩ :=
      exists_step_completion (s := dropWrite (setPending (.sequencer :: es) s)) hw rfl
    refine ⟨t, (run_succ hdrop 1).trans (run_succ hturn 0), hidle, hlast, ?_⟩
    rw [hoverrun]
    simp [Irq.raise, irqOverrun]
  · obtain ⟨t, hturn, hidle, hcfg, hpending, -, hoverrun⟩ := exists_step_completion hw hp
    have hissue := step_write_cmd_idle hidle (by rw [hpending, hcfg])
    exact ⟨_, (run_succ hturn 1).trans (run_succ hissue 0), rfl, rfl, hoverrun⟩

/-- Settles O52: the step is the completion of the word in progress, whose report is a success's or a failure's. -/
theorem completionWritesReport : Obligations.CompletionWritesReport := by
  intro s u w hturn hw
  have hu := hturn.eq
  have hlast : u.report.lastCmd = s.report.lastCmd := by rw [hu]; rfl
  have hirq : u.irq = s.irq := by rw [hu]; rfl
  have hcfg : u.cfg = s.cfg := by rw [hu]; rfl
  rw [← hlast, ← hirq, ← hcfg]
  refine ⟨_, step_turn hturn hw, finish_phase _ _, finish_outcomeOf_lastCmd w u, finish_outcomeOf_enable w u,
    finish_outcomeOf_cfg w u, finish_outcomeOf_env w u, ?_⟩
  obtain h | ⟨e, info, h⟩ := finish_outcomeOf_cases w u
  · exact .inl ⟨h.noErr, h.code, h.info, h.events⟩
  · exact .inr ⟨h.err, h.code ▸ e.code_ne_zero, h.events⟩

/-- Settles O54: by `step_data`; a write of CODE_Wk leaves the RESULT registers, and of the read commands only
CODE_READ writes CODE_W. -/
theorem dataRegisterWritePolicy : Obligations.DataRegisterWritePolicy := by
  intro s t hstep
  obtain hsame | hreset | ⟨hidle, k, v, es, hp, hset⟩ | ⟨u, w, i, hturn, hw, hidle, hdecode, hread, herr, hcode⟩ :=
    step_data hstep
  · rw [hsame]
    exact ⟨fun h => by simp at h, fun h => absurd rfl h⟩
  · exact ⟨fun _ => .inl hreset, fun _ => .inl hreset⟩
  · rw [hset]
    exact ⟨fun h => by simp at h, fun _ => .inr (.inl ⟨hidle, _, v, es, by omega, by omega, hp⟩)⟩
  · refine ⟨fun _ => .inr ⟨u, w, i, hturn, hw, hidle, hdecode, hread, herr⟩, fun hne => ?_⟩
    obtain hsame | ⟨sym, rfl⟩ := hcode
    · exact absurd hsame hne
    · exact .inr (.inr ⟨u, w, sym, hturn, hw, hidle, hdecode, herr⟩)

/-- Settles O55: a completion and a dropped write only set event bits; only a write of IRQ_STATUS and a reset clear
them. -/
theorem eventBitsAreSticky : Obligations.EventBitsAreSticky := by
  intro s t k hstep hk
  obtain ⟨u, hu, hcases⟩ := step_cases hstep
  have hku : u.irq.status.getLsbD k = true := by obtain ⟨rfl, -⟩ | ⟨e, es, -, rfl⟩ := hu <;> exact hk
  obtain ⟨off, es, -, -, -, rfl⟩ | ⟨off, v, es, -, -, hp, rfl⟩ | ⟨es, hp, -⟩ | ⟨w, -, -, rfl⟩ | ⟨-, -, rfl⟩ := hcases
  · exact .inl hku
  · obtain hset | ⟨hreg, hv⟩ := writeReg_events (r := regAt off) (v := v) hku
    · exact .inl hset
    · rw [eq_of_regAt_irqStatus hreg] at hp
      exact .inr (.inr ⟨v, es, hp, hv⟩)
  · exact .inr (.inl ⟨es, hp⟩)
  · exact .inl (finish_outcomeOf_keeps_events hku)
  · exact .inl hku

/-- Settles O59: each clause of R45 follows from the products' match with what they depend on. -/
theorem invGivesR45 : Obligations.InvGivesR45 := fun _ h => h.r45

/-- Settles O2: a reset is one step, from every state. -/
theorem resetFromAnyState : Obligations.ResetFromAnyState := fun _ _ hp => step_reset hp

/-- Settles O7: a read and a write make the same access. -/
theorem undefinedAccessStops : Obligations.UndefinedAccessStops := by
  intro s addr bytes v es hp
  obtain ⟨act, hstep⟩ := step_eq_access hp
  rw [hstep]
  exact ⟨fun hlow hhigh h => access_undefined (s := setPending es s) hlow hhigh h act,
    fun h => access_outside (s := setPending es s) h act⟩

/-- Settles O10: the completion of a word is that of the command it decodes to. -/
theorem stepRunsDecodedCommand : Obligations.StepRunsDecodedCommand := by
  intro s w i hw hdecode
  refine ⟨fun es hp => ?_, fun hp => ?_⟩
  · rw [step_sequencer hw hp, outcomeOf_ok hdecode, ← exec_eq]; rfl
  · rw [step_nil hw hp, outcomeOf_ok hdecode, ← exec_eq]

/-- Settles O57: the reset state has no product and no text. -/
theorem resetHasInv : Obligations.ResetHasInv := fun _ e hc => inv_resetIn hc e

end Sys2Proof.Machine
end

section
/-! What a host read returns, IDLE (R20 to R32) and BUSY (R147). -/

namespace Sys2Proof.Machine

/-! ## The registers as numbers -/

section Registers

variable {s : State}

theorem regValue_cfgTextMax_toNat (hc : s.cfg.wf) : (regValue s .cfgTextMax).toNat = s.cfg.textMax := by
  obtain ⟨-, -, -, htext, -⟩ := hc
  rw [regValue, BitVec.toNat_ofNat]
  omega

theorem regValue_cfgOutMax_toNat (hc : s.cfg.wf) : (regValue s .cfgOutMax).toNat = s.cfg.outMax := by
  obtain ⟨-, -, -, -, hout, -⟩ := hc
  rw [regValue, BitVec.toNat_ofNat]
  omega

theorem regValue_irqStatus_toNat : (regValue s .irqStatus).toNat = s.irq.status.toNat :=
  BitVec.toNat_setWidth_of_le (by decide)

theorem regValue_irqEnable_toNat : (regValue s .irqEnable).toNat = s.irq.enable.toNat :=
  BitVec.toNat_setWidth_of_le (by decide)

/-- STATUS of an IDLE block (R26). -/
theorem regValue_status_toNat (hidle : s.phase = .idle) : (regValue s .status).toNat =
    2 * s.report.err.toNat + 16 * s.report.errCode.toNat + 0x100 * s.freq.valid.toNat + 0x200 * s.tree.valid.toNat +
      0x400 * s.codes.valid.toNat + 0x800 * s.out.valid.toNat := by
  rw [regValue, State.status, statusWord_toNat, validFlags_toNat, isBusy_idle hidle, Bool.toNat_false]
  omega

/-- STATUS during BUSY: the low byte is that of a busy block without an error, bits [31:12] are 0 (R147). -/
theorem regValueBusy_status_toNat (free : Word) : (regValueBusy free s .status).toNat % 256 = 1 ∧
    (regValueBusy free s .status).toNat < 0x1000 := by
  have hvalid := (free.extractLsb' 8 4).isLt
  have hcode : (0 : BitVec 4).toNat = 0 := rfl
  rw [regValueBusy, statusWord_toNat, Bool.toNat_true, Bool.toNat_false, hcode]
  omega

/-- The offsets from 0x70 on are reserved (R20). -/
theorem regAt_reserved {off : Nat} (h : 0x70 ≤ off) : regAt off = .reserved := by
  unfold regAt
  split
  case h_29 => rfl
  all_goals omega

end Registers

/-! ## A read -/

section Read

variable {s : State} {off : Nat} {es : List Event}

/-- A read while IDLE moves the value read and the list of events, nothing else (R55). -/
theorem step_read_idle (hidle : s.phase = .idle) (h : off < 256) (h4 : off % 4 = 0)
    (hp : s.env.pending = .hostRead (s.cfg.base + off) 4 :: es) :
    step s = .next { s with env := { s.env with pending := es, readData := regValue s (regAt off) } } := by
  have hbusy : (setPending es s).isBusy = false := isBusy_idle hidle
  have hvalue : readValue (setPending es s) (regAt off) = regValue s (regAt off) := by
    rw [readValue, hbusy]
    cases regAt off <;> rfl
  rw [step_read h h4 hp, readReg, hvalue, hbusy]
  rfl

/-- A read during BUSY moves the free value's index as well (R147). -/
theorem step_read_busy {w : Word} (hw : s.phase = .busy w) (h : off < 256) (h4 : off % 4 = 0)
    (hp : s.env.pending = .hostRead (s.cfg.base + off) 4 :: es) :
    step s = .next { s with env := {
      pending := es
      readData := regValueBusy (Config.freeRead s.env.freeIndex) s (regAt off)
      freeIndex := s.env.freeIndex + 1 } } := by
  have hbusy : (setPending es s).isBusy = true := isBusy_busy hw
  have hvalue : readValue (setPending es s) (regAt off) =
      regValueBusy (Config.freeRead s.env.freeIndex) s (regAt off) := by
    rw [readValue, hbusy]
    cases regAt off <;> rfl
  rw [step_read h h4 hp, readReg, hvalue, hbusy]
  rfl

end Read

/-! ## The obligations -/

/-- Settles O4: the value read is the one the register's rule gives, at each offset of the map. -/
theorem idleReadReturnsRegister : Obligations.IdleReadReturnsRegister := by
  intro s off es hidle hc h h4 hp
  refine ⟨_, step_read_idle hidle h h4 hp, ?_, fun k hk => by rw [hk, regAt_codeW]; rfl,
    fun hres => by rw [regAt_reserved hres]; rfl⟩
  simp only [List.forall_mem_cons, List.not_mem_nil, false_imp_iff, implies_true, and_true]
  refine ⟨?_, ?_, ?_, ?_, ?_, ?_, ?_, ?_, ?_, ?_, ?_, ?_, ?_, ?_, ?_, ?_, ?_, ?_, ?_, ?_⟩ <;> rintro rfl
  case refine_2 => exact cfgWord_toNat hc
  case refine_3 => exact regValue_cfgTextMax_toNat hc
  case refine_4 => exact regValue_cfgOutMax_toNat hc
  case refine_6 => exact regValue_status_toNat hidle
  case refine_7 => exact regValue_irqStatus_toNat
  case refine_8 => exact regValue_irqEnable_toNat
  all_goals rfl

/-- Settles O5: R147 leaves the constants, CMD, the interrupt registers, LAST_CMD and most of STATUS at their values. -/
theorem busyReadReturnsFixedBits : Obligations.BusyReadReturnsFixedBits := by
  intro s w off es hw hlast hc h h4 hp
  refine ⟨_, step_read_busy hw h h4 hp, ?_, by rintro rfl; exact regValueBusy_status_toNat _,
    fun hres => by rw [regAt_reserved hres]; rfl⟩
  simp only [List.forall_mem_cons, List.not_mem_nil, false_imp_iff, implies_true, and_true]
  refine ⟨?_, ?_, ?_, ?_, ?_, ?_, ?_, ?_⟩ <;> rintro rfl
  case refine_2 => exact cfgWord_toNat hc
  case refine_3 => exact regValue_cfgTextMax_toNat hc
  case refine_4 => exact regValue_cfgOutMax_toNat hc
  case refine_6 => exact regValue_irqStatus_toNat
  case refine_7 => exact regValue_irqEnable_toNat
  case refine_8 => exact congrArg BitVec.toNat hlast
  all_goals rfl

end Sys2Proof.Machine
end

section
/-! The readback commands (R116 to R120). -/

namespace Sys2Proof.Machine

/-! ## A successful read -/

/-- The report of a success over unchanged memories changes nothing but PHASE, the report and DONE. -/
theorem sameButReport_reportOk (s : State) : SameButReport s (reportOk s) :=
  ⟨rfl, rfl, rfl, rfl, rfl, rfl, rfl, rfl, rfl, rfl, rfl⟩

/-- A command that only writes the data registers (R121). -/
theorem exists_exec_of_data {i : Instr} {s : State} {d : DataRegs} (h : ruleOf i s = .ok { s with data := d }) :
    ∃ t, exec i s = .next t ∧ Succeeded s t ∧ t.data = d ∧ SameButReport { s with data := t.data } t :=
  have ⟨hexec, hok⟩ := succeeded_of_rule h
  ⟨_, hexec, hok, rfl, sameButReport_reportOk _⟩

/-! ## The fields of the results -/

/-- A result of one bit over a field of 8 bits (R118, R119). -/
theorem flag_append_toNat (b : Bool) (x : BitVec 8) : (bit b ++ 0#23 ++ x).toNat = 2 ^ 31 * b.toNat + x.toNat := by
  rw [toNat_append_add, toNat_append_add, bit, BitVec.toNat_ofBool, BitVec.toNat_zero]
  omega

/-- CODE_Wk holds bits [32k+31:32k] of CW (R32). -/
theorem codeWords_getElem (v : BitVec 256) (k : Fin 8) : (codeWords v)[k.val] = v.extractLsb' (32 * k.val) 32 := by
  fin_cases k <;> rfl

/-! ## The obligations -/

/-- Settles O46: INDEX is in range, and RESULT0 is the symbol, zero-extended. -/
theorem textReadReturnsSymbol : Obligations.TextReadReturnsSymbol := by
  intro s index h
  obtain ⟨t, hexec, hok, hdata, hsame⟩ := exists_exec_of_data (i := .textRead index) (withIndex_in _ h)
  refine ⟨t, hexec, hok, ?_, by rw [hdata], by rw [hdata], by rw [hdata], hsame⟩
  rw [hdata]
  exact BitVec.toNat_setWidth_of_le (by decide)

/-- Settles O47: SYM is legal, and RESULT0 is its count. -/
theorem freqReadReturnsCount : Obligations.FreqReadReturnsCount := by
  intro s sym h
  obtain ⟨t, hexec, hok, hdata, hsame⟩ := exists_exec_of_data (i := .freqRead sym) (withSym_legal _ h)
  exact ⟨t, hexec, hok, by rw [hdata], by rw [hdata], by rw [hdata], by rw [hdata], hsame⟩

/-- Settles O48: INDEX is in range, and RESULT1 and RESULT2 hold two fields each. -/
theorem nodeReadReturnsNode : Obligations.NodeReadReturnsNode := by
  intro s index h
  obtain ⟨t, hexec, hok, hdata, hsame⟩ := exists_exec_of_data (i := .nodeRead index) (withIndex_in _ h)
  refine ⟨t, _, hexec, rfl, hok, by rw [hdata], ?_, ?_, by rw [hdata], hsame⟩ <;> rw [hdata]
  · exact flag_append_toNat _ _
  · exact (toNat_append_add _ _).trans (by rw [Nat.mul_comm])

/-- Settles O49: SYM is legal; RESULT0 holds two fields, and CW is the code's value. -/
theorem codeReadReturnsCode : Obligations.CodeReadReturnsCode := by
  intro s sym h
  obtain ⟨t, hexec, hok, hdata, hsame⟩ := exists_exec_of_data (i := .codeRead sym) (withSym_legal _ h)
  refine ⟨t, _, hexec, rfl, hok, ?_, by rw [hdata]; rfl, by rw [hdata]; rfl, fun k => ?_, hsame⟩ <;> rw [hdata]
  · exact flag_append_toNat _ _
  · rw [codeWords_getElem, BitVec.extractLsb'_toNat, BitVec.toNat_setWidth_of_le (by decide),
      Nat.shiftRight_eq_div_pow]

/-- Settles O50: INDEX is in range, and RESULT0 is the byte, zero-extended. -/
theorem outReadReturnsByte : Obligations.OutReadReturnsByte := by
  intro s index h
  obtain ⟨t, hexec, hok, hdata, hsame⟩ := exists_exec_of_data (i := .outRead index) (withIndex_in _ h)
  refine ⟨t, hexec, hok, ?_, by rw [hdata], by rw [hdata], by rw [hdata], hsame⟩
  rw [hdata]
  exact BitVec.toNat_setWidth_of_le (by decide)

end Sys2Proof.Machine
end

section
/-! NOP and CLEAR (R84, R85), the operand checks (R66, R67, R72), and the text and its counts (R88, R89). -/

namespace Sys2Proof.Machine

/-- STATUS after a success: the valid flags alone (R26, R80). -/
theorem Succeeded.status {s t : State} (h : Succeeded s t) :
    regValue t .status = statusWord t.validFlags 0 false false := by
  rw [regValue, State.status, h.code, h.noErr, isBusy_idle h.idle]

/-- Without a product STATUS reads 0 after a success (R40). -/
theorem Succeeded.status_of_no_products {s t : State} {c : Config} (h : Succeeded s t) (hfreq : t.freq = .empty c)
    (htree : t.tree = .empty) (hcodes : t.codes = .empty c) (hout : t.out = .empty) : regValue t .status = 0 := by
  rw [h.status, State.validFlags, hfreq, htree, hcodes, hout]
  simp only [FreqTable.empty, Tree.empty, CodeTable.empty, OutBuffer.empty]
  decide

/-! ## TEXT after an append (R33, R88) -/

section Append

variable {s : State} {sym : Sym}

theorem input_appendText (hc : s.cfg.wf) (ht : s.text.wf s.cfg) (hs : sym.toNat < s.cfg.nsymMax)
    (hn : s.text.len.toNat ≠ s.cfg.textMax) : (appendText sym s).input = s.input ++ [sym] :=
  input_eq (textBuffer_wf_appendText hc ht hs hn)

theorem textAt_appendText_new (ht : s.text.wf s.cfg) : textAt (appendText sym s) s.text.len.toNat = sym := by
  rw [textAt, appendText_text, ← input_length ht]
  simp

theorem textAt_appendText_old (ht : s.text.wf s.cfg) {i : Nat} (hi : i < s.text.len.toNat) :
    textAt (appendText sym s) i = textAt s i := by
  rw [textAt, textAt, appendText_text, input_eq ht]
  exact List.getD_append _ _ _ _ (ht.1 ▸ hi)

end Append

/-! ## The obligations -/

/-- Settles O21: the append keeps the text's form, and every product is dropped. -/
theorem textPushAppends : Obligations.TextPushAppends := by
  rintro s sym hc ⟨htext, -⟩ hs hn
  have hrule : ruleOf (.textPush sym) s =
      .ok (invalOut (invalCodes (invalTree (invalFreq (appendText sym s))))) :=
    (withSym_legal _ hs).trans (if_neg hn)
  obtain ⟨hexec, hok⟩ := succeeded_of_rule hrule
  exact ⟨_, hexec, hok, input_appendText hc htext hs hn, text_len_succ hc htext, textAt_appendText_new htext,
    fun _ => textAt_appendText_old htext, rfl, rfl, rfl, rfl, hok.status_of_no_products rfl rfl rfl rfl, rfl, rfl⟩

/-- Settles O23: the table is `freqOf` of the text, whose counts and NSYM do not wrap. -/
theorem freqCountCountsSymbols : Obligations.FreqCountCountsSymbols := by
  rintro s hc ⟨htext, -⟩
  have hlen := input_length htext
  have hmax := text_len_le hc htext
  obtain ⟨hexec, hok⟩ := succeeded_of_rule (i := .freqCount) (s := s) rfl
  refine ⟨_, hexec, hok, fun sym hs => countSymbols_toNat (by omega) hs, countSymbols_length _ _, ?_, rfl, rfl, rfl,
    rfl, rfl, rfl, rfl⟩
  obtain ⟨hrange, hdedup⟩ := distinctCount_countSymbols (nsymMax_le hc) (by omega) (input_legal htext)
  rw [← hrange, hdedup]
  exact freqOf_nsym_toNat hc htext

/-- Settles O12: the check of SYM comes first, then that of LEN. -/
theorem illegalOperandsFail : Obligations.IllegalOperandsFail := by
  refine fun s sym len => ⟨fun hs => ⟨?_, ?_, ?_, ?_⟩, fun hs hlen => ?_⟩
  · exact failsWith_of_rule (i := .textPush sym) (e := .illegalCommand) (withSym_illegal _ hs)
  · exact failsWith_of_rule (i := .freqRead sym) (e := .illegalCommand) (withSym_illegal _ hs)
  · exact failsWith_of_rule (i := .codeRead sym) (e := .illegalCommand) (withSym_illegal _ hs)
  · exact failsWith_of_rule (i := .codeLoad sym len) (e := .illegalCommand) (withSym_illegal _ hs)
  · exact failsWith_of_rule (i := .codeLoad sym len) (e := .illegalCommand)
      ((withSym_legal _ hs).trans (withLen_illegal _ hlen))

/-- Settles O18: NOP's rule has no effect, so only the report is written. -/
theorem nopChangesOnlyReport : Obligations.NopChangesOnlyReport := fun s =>
  have ⟨hexec, hok⟩ := succeeded_of_rule (i := .nop) (s := s) rfl
  ⟨_, hexec, hok, sameButReport_reportOk s⟩

/-- Settles O19: every memory is in its empty state. -/
theorem clearEmptiesRun : Obligations.ClearEmptiesRun := by
  intro s
  obtain ⟨hexec, hok⟩ := succeeded_of_rule (i := .clear) (s := s) rfl
  exact ⟨_, hexec, hok, rfl, rfl, freqAt_of_empty rfl, List.length_replicate, rfl, rfl, rfl, codeAt_empty s.cfg,
    List.length_replicate, rfl, rfl, rfl, hok.status_of_no_products rfl rfl rfl rfl, rfl, rfl⟩

end Sys2Proof.Machine
end

section
/-! The tree BUILD_TREE leaves (R94, R95): its size and leaves, the greedy merges, the weights and the shape. -/

namespace Sys2Proof.Machine

/-! ## The finished tree of a table that BUILD_TREE accepts -/

section Built

variable {s : State}

theorem FreqReady.leaves_length (h : FreqReady s) : (leavesFrom 0 s.freq.counts).length = s.freq.nsym.toNat := by
  obtain ⟨-, -, -, hnsym, -⟩ := h
  rw [leavesFrom_length, hnsym]

/-- NNODES, ROOT and QUEUE (R95 (a), R36). -/
theorem FreqReady.treeOf_shape (h : FreqReady s) :
    (treeOf s.freq.counts).nnodes.toNat = 2 * s.freq.nsym.toNat - 1 ∧
      (treeOf s.freq.counts).root.toNat = (treeOf s.freq.counts).nnodes.toNat - 1 ∧
      (treeOf s.freq.counts).nodes.length = (treeOf s.freq.counts).nnodes.toNat ∧ queueAfter s.freq.counts = [] := by
  obtain ⟨t, ht⟩ := h.exists_isCodeTree
  obtain ⟨hnodes, hroot, hlen, hqueue⟩ := Machine.treeOf_shape ht h.counts_length_le
  obtain ⟨-, -, -, hnsym, -⟩ := h
  exact ⟨hnsym ▸ hnodes, by rw [hroot, ht.root, ← hlen]; rfl, hlen, hqueue⟩

/-- What holds of NODE when the merge ends, with ROOT alone in QUEUE (R94 step 3). -/
theorem FreqReady.greedyInv (h : FreqReady s) :
    GreedyInv (leavesFrom 0 s.freq.counts) (treeOf s.freq.counts).nodes [(treeOf s.freq.counts).root.toNat] ∧
      WeightInv (s.freq.counts.map BitVec.toNat).sum (leavesFrom 0 s.freq.counts).length (treeOf s.freq.counts).nodes
        [(treeOf s.freq.counts).root.toNat] := by
  obtain ⟨t, ht⟩ := h.exists_isCodeTree
  have hl := h.counts_length_le
  obtain ⟨-, hroot, -, -⟩ := Machine.treeOf_shape ht hl
  obtain ⟨-, -, -, -, hpos, hsum⟩ := h
  rw [hroot, ← ht.queue]
  exact huffman_greedy hl hpos hsum

/-- Every internal node merges the two least waiting nodes (R94 step 2). -/
theorem FreqReady.greedyAt (h : FreqReady s) {j : Nat} (hj : s.freq.nsym.toNat ≤ j)
    (hlt : j < (treeOf s.freq.counts).nnodes.toNat) : GreedyAt (treeOf s.freq.counts).nodes j := by
  obtain ⟨-, -, hlen, -⟩ := h.treeOf_shape
  exact h.greedyInv.1.greedy j (h.leaves_length.le.trans hj) (hlen ▸ hlt)

end Built

section Leaves

variable {counts : List Word} {t : HTree}

/-- The records below N are leaves, with the count of their symbol and no children (R94 step 1, R95 (b)). -/
theorem IsCodeTree.leaf_record (h : IsCodeTree counts t) (hl : counts.length ≤ 256) {i : Nat}
    (hi : i < (leavesFrom 0 counts).length) :
    (nodeAt (huffman counts).1 i).leaf = true ∧
      (nodeAt (huffman counts).1 i).freq = counts.getD (nodeAt (huffman counts).1 i).sym.toNat 0 ∧
      (nodeAt (huffman counts).1 i).freq ≠ 0 ∧ (nodeAt (huffman counts).1 i).left = 0 ∧
      (nodeAt (huffman counts).1 i).right = 0 := by
  obtain ⟨-, hcount, hfreq⟩ := h.leaf_counted hl (h.mem_leaves.2 hi)
  refine ⟨?_, hfreq, hfreq ▸ hcount, ?_⟩
  · rw [h.nodeAt_leaf hi]
    exact leaf_of_mem_leavesFrom (List.getElem_mem hi)
  · obtain ⟨k, -, -, hnode⟩ := mem_leavesFrom (List.getElem_mem hi)
    rw [h.nodeAt_leaf hi, hnode]
    exact ⟨rfl, rfl⟩

/-- The leaves stand in ascending symbol order (R94 step 1). -/
theorem IsCodeTree.sym_lt (h : IsCodeTree counts t) (hl : counts.length ≤ 256) {i j : Nat} (hij : i < j)
    (hj : j < (leavesFrom 0 counts).length) :
    (nodeAt (huffman counts).1 i).sym.toNat < (nodeAt (huffman counts).1 j).sym.toNat := by
  have hi := hij.trans hj
  rw [h.nodeAt_leaf hi, h.nodeAt_leaf hj]
  exact List.pairwise_iff_getElem.1 (leavesFrom_pairwise 0 counts (by omega)) i j hi hj hij

end Leaves

/-! ## The obligations -/

/-- Settles O27: an invariant of the merge loop. -/
theorem builtTreeIsGreedyMerge : Obligations.BuiltTreeIsGreedyMerge := by
  intro s hready
  obtain ⟨t, hexec, -, htree⟩ := exists_exec_buildTree hready
  refine ⟨t, hexec, ?_⟩
  rw [htree]
  exact fun j hj hlt => hready.greedyAt hj hlt

/-- Settles O28: the merge loop keeps the total weight of QUEUE, in which ROOT is left alone. -/
theorem builtTreeWeights : Obligations.BuiltTreeWeights := by
  intro s hready
  obtain ⟨t, hexec, -, htree⟩ := exists_exec_buildTree hready
  obtain ⟨-, -, hlen, -⟩ := hready.treeOf_shape
  obtain ⟨-, htotal, hsums, hmono, -⟩ := hready.greedyInv
  rw [hready.leaves_length, hlen] at hsums hmono
  refine ⟨t, hexec, ?_⟩
  rw [htree]
  exact ⟨by simpa [freqNat] using htotal, hsums, hmono⟩

/-- Settles O29: children wait before their parent is made, the store is one tree of N leaves, and its root is ROOT. -/
theorem builtTreeStructure : Obligations.BuiltTreeStructure := by
  intro s hready
  obtain ⟨t, hexec, -, htree⟩ := exists_exec_buildTree hready
  obtain ⟨-, -, hlen, -⟩ := hready.treeOf_shape
  obtain ⟨tree, hcode⟩ := hready.exists_isCodeTree
  obtain ⟨-, hroot, -, -⟩ := treeOf_shape hcode hready.counts_length_le
  have hgreedy := hready.greedyInv.1
  refine ⟨t, hexec, ?_⟩
  rw [htree]
  refine ⟨fun i hi hlt => ?_, fun i hi hne => ?_, fun i hi => ?_, fun p i hp _ => ?_⟩
  · obtain ⟨⟨hleft, -⟩, ⟨hright, -⟩, hne, -⟩ := hready.greedyAt hi hlt
    exact ⟨hleft, hright, fun e => hne (congrArg BitVec.toNat e)⟩
  · rw [← hlen] at hi ⊢
    exact exists_unique_parent (fun _ hn => leaf_of_mem_leavesFrom hn) hgreedy hi hne
  · rw [← hlen] at hi
    rw [hroot]
    exact HTree.exists_path hcode.rep (hcode.covers.mem_iff.2 (List.mem_range.2 hi))
  · rw [hroot] at hp
    obtain ⟨hheight, -⟩ := HTree.path_length_le hcode.rep hp
    have hleaves := tree.height_lt_leaves
    have hnsym := hready.leaves_length
    rw [leavesFrom_length, ← hcode.leaves_length] at hnsym
    omega

/-- Settles O25: BUILD_TREE accepts the table, and the merge ends with QUEUE used up. -/
theorem buildTreeCompletes : Obligations.BuildTreeCompletes := by
  intro s hready
  obtain ⟨-, -, hlen, hqueue⟩ := hready.treeOf_shape
  obtain ⟨hexec, hok⟩ := succeeded_of_rule (ruleOf_buildTree hready)
  exact ⟨_, hexec, hok, rfl, hlen, hqueue, rfl, rfl, rfl, rfl, rfl⟩

/-- Settles O26: the leaves of step 1 come first, and each merge adds one internal node. -/
theorem builtTreeCountsAndLeaves : Obligations.BuiltTreeCountsAndLeaves := by
  intro s hready
  obtain ⟨t, hexec, -, htree⟩ := exists_exec_buildTree hready
  obtain ⟨hnodes, hroot, hlen, -⟩ := hready.treeOf_shape
  obtain ⟨tree, hcode⟩ := hready.exists_isCodeTree
  have hl := hready.counts_length_le
  have hnsym := hready.leaves_length
  refine ⟨t, hexec, ?_⟩
  rw [htree]
  refine ⟨hnodes, hroot, fun i hi => hcode.leaf_record hl (hnsym ▸ hi),
    fun i j hij hj => hcode.sym_lt hl hij (hnsym ▸ hj), fun sym hsym => ?_, fun i hi hlt => ?_⟩
  · obtain ⟨i, hmem, hi⟩ := hcode.exists_leaf hsym
    exact ⟨i, hnsym ▸ hcode.mem_leaves.1 hmem, hi⟩
  · rw [← hlen] at hlt
    rw [← hnsym, leavesFrom_length] at hi
    exact hcode.nodeAt_internal hi hlt

end Sys2Proof.Machine
end

section
/-! The codes of ASSIGN_CODES (R99, R100), and the table the host loads (R54, R103). -/

namespace Sys2Proof.Machine

/-! ## A leaf's code is its path -/

section Paths

variable {counts : List Word} {t : HTree}

/-- A path from the top to a leaf is the one the walk finds, where there are two leaves or more. -/
theorem IsCodeTree.mem_codes_of_path (h : IsCodeTree counts t) (htwo : 2 ≤ counts.countP (· ≠ 0)) {p : Bits} {i : Nat}
    (hp : PathTo (huffman counts).1 t.root p i) (hleaf : (nodeAt (huffman counts).1 i).leaf = true) :
    (i, p) ∈ t.codes := by
  have hleaves := h.leaves_length
  cases t with
  | leaf j => change 1 = _ at hleaves; omega
  | node j l r =>
    have hmem : i ∈ (HTree.node j l r).leaves :=
      (HTree.mem_leaves_iff h.rep).2 ⟨(HTree.path_length_le h.rep hp).2, hleaf⟩
    rw [← HTree.codes_fst] at hmem
    obtain ⟨⟨_, q⟩, hq, rfl⟩ := List.mem_map.1 hmem
    obtain ⟨q', hnil, hpath, -⟩ := HTree.pathTo_of_mem_paths h.rep hq
    rw [List.nil_append] at hnil
    rw [HTree.path_unique h.rep (h.covers.nodup_iff.2 List.nodup_range) hp hpath, ← hnil]
    exact hq

end Paths

/-- BITS holds the value of any path that fits the table (R100). -/
theorem entryOfPath_bits {p : Bits} (h : p.length ≤ 255) : (entryOfPath p).bits.toNat = valueOf p := by
  have hlt := valueOf_lt p
  have hpow : 2 ^ p.length ≤ 2 ^ 255 := Nat.pow_le_pow_right (by decide) h
  rw [entryOfPath, BitVec.toNat_ofNat, Nat.mod_eq_of_lt (hlt.trans_le hpow)]

/-! ## CODE_LOAD (R103) -/

section Load

variable {s : State} {sym : Sym} {len : BitVec 8}

/-- CODE_LOAD's effects where its operands are legal. -/
theorem ruleOf_codeLoad (hs : sym.toNat < s.cfg.nsymMax) (hlen : 1 ≤ len.toNat ∧ len.toNat ≤ s.cfg.codeLenMax) :
    ruleOf (.codeLoad sym len) s = .ok { invalOut s with
      codes := { entries := setCode s.codes.entries sym (loadedEntry s.data.cw len), valid := true } } :=
  (withSym_legal _ hs).trans (withLen_legal _ hlen)

/-- The record loaded is CW below LEN, bit by bit (R54). -/
theorem getLsbD_loadedEntry (cw : BitVec 256) (len : BitVec 8) (j : Nat) :
    (loadedEntry cw len).bits.getLsbD j = (decide (j < len.toNat) && cw.getLsbD j) := by
  rw [← BitVec.testBit_toNat, loadedEntry_bits, Nat.testBit_mod_two_pow, BitVec.testBit_toNat]

theorem exists_exec_codeLoad (hl : s.codes.entries.length = s.cfg.nsymMax) (hs : sym.toNat < s.cfg.nsymMax)
    (hlen : 1 ≤ len.toNat ∧ len.toNat ≤ s.cfg.codeLenMax) :
    ∃ t, exec (.codeLoad sym len) s = .next t ∧ t.cfg = s.cfg ∧
      codeAt t.codes.entries sym = loadedEntry s.data.cw len :=
  ⟨_, (succeeded_of_rule (ruleOf_codeLoad hs hlen)).1, rfl, (codeAt_setCode (hl ▸ hs)).trans (if_pos rfl)⟩

end Load

/-! ## The obligations -/

/-- Settles O34: a path to a leaf is in the walk's list of codes, and the table holds that list. -/
theorem assignedCodesArePaths : Obligations.AssignedCodesArePaths := by
  intro s hready htwo
  obtain ⟨tree, hcode⟩ := hready.exists_isCodeTree
  have hl := hready.counts_length_le
  obtain ⟨t, hbuild, hbuilt, htree⟩ := exists_exec_buildTree hready
  obtain ⟨u, hassign, -, hcodes⟩ := exists_exec_assignCodes (s := t) (by rw [htree]; rfl)
  obtain ⟨-, hroot, -, -⟩ := treeOf_shape hcode hl
  obtain ⟨hc, -, hlen, hnsym, -⟩ := hready
  rw [htree, hbuilt.cfg] at hcodes
  refine ⟨t, u, hbuild, hassign, ?_⟩
  rw [htree, hcodes, hroot]
  refine ⟨fun p i hp hleaf => ?_, fun sym => codeAt_codesOf_absent hcode hlen hl⟩
  have hmem := hcode.mem_codes_of_path (hnsym ▸ htwo) hp hleaf
  have hfit : p.length ≤ 255 := (code_length_le hcode hlen hmem).2.trans (Config.codeLenMax_le hc)
  have hentry : codeAt (codesOf s.cfg (treeOf s.freq.counts)).entries (nodeAt (treeOf s.freq.counts).nodes i).sym =
      entryOfPath p := codeAt_codesOf_leaf hcode hlen hl hmem
  rw [hentry]
  exact ⟨rfl, codestr_entryOfPath hfit, entryOfPath_bits hfit⟩

/-- Settles O36: the record is CW below LEN, and CW is the sum of the CODE_W words. -/
theorem codeLoadWritesEntry : Obligations.CodeLoadWritesEntry := by
  intro s sym len hl hs hpos hmax
  obtain ⟨hexec, hok⟩ := succeeded_of_rule (ruleOf_codeLoad hs ⟨hpos, hmax⟩)
  have hat : ∀ y, codeAt (setCode s.codes.entries sym (loadedEntry s.data.cw len)) y =
      if sym = y then loadedEntry s.data.cw len else codeAt s.codes.entries y := fun y => codeAt_setCode (hl ▸ hs)
  refine ⟨_, hexec, hok, ?_⟩
  rw [reportOk_codes, hat, if_pos rfl, loadedEntry_bits, cw_toNat]
  exact ⟨rfl, rfl, rfl, fun y hy => (hat y).trans (if_neg (Ne.symm hy)), (setCode_length _ _ _).trans hl, rfl, rfl,
    rfl, rfl, rfl, rfl, rfl⟩

/-- Settles O37: CODE_READ puts the loaded record into RESULT0 and CW. -/
theorem codeLoadThenCodeRead : Obligations.CodeLoadThenCodeRead := by
  intro s sym len hl hs hpos hmax
  obtain ⟨t, hload, hcfg, hcode⟩ := exists_exec_codeLoad hl hs ⟨hpos, hmax⟩
  obtain ⟨u, hread, hok, hdata, -⟩ :=
    exists_exec_of_data (i := .codeRead sym) (s := t) (withSym_legal _ (hcfg ▸ hs))
  have hresult : u.data.result0 = codeResult0 (loadedEntry s.data.cw len) := by rw [hdata, ← hcode]; rfl
  have hcw : u.data.cw = (loadedEntry s.data.cw len).bits.setWidth 256 := by rw [hdata, ← hcode]; exact setCw_cw _ t
  refine ⟨t, u, hload, hread, hok.noErr, ?_, fun j hj => ?_⟩
  · rw [hresult, codeResult0, flag_append_toNat]
    simp [loadedEntry]
  · rw [hcw, BitVec.getLsbD_setWidth, getLsbD_loadedEntry]
    simp [hj]

/-- Settles O33: a valid tree is all ASSIGN_CODES asks for, and its table has a record for each symbol. -/
theorem assignCodesCompletes : Obligations.AssignCodesCompletes := by
  intro s htree
  obtain ⟨hexec, hok⟩ := succeeded_of_rule (ruleOf_assignCodes htree)
  exact ⟨_, hexec, hok, rfl, codeTable_wf_codesOf _ _, rfl, rfl, rfl, rfl, rfl, rfl⟩

end Sys2Proof.Machine
end

section
/-! PACK (R105 to R108) and COMPRESS (R112 to R114). -/

namespace Sys2Proof.Machine

/-! ## OUT after PACK (R111) -/

/-- The encoded bits of an output are the bits it was made from, with the padding after them. -/
theorem encodedBits_of_outOf {t : State} {bits : Bits} (hout : t.out = outOf bits) (hfit : bits.length < 2 ^ 32 - 16) :
    encodedBits t = bits ∧ payloadBits t = bits ++ List.replicate (extraOf bits) false := by
  obtain ⟨-, hbitLen, -⟩ := outOf_registers hfit
  have hpayload : payloadBits t = bits ++ List.replicate (extraOf bits) false := by
    rw [payloadBits, hout, outOf_payload]
  exact ⟨by rw [encodedBits, hpayload, hout, hbitLen, List.take_left], hpayload⟩

/-- The header byte is PAD (R107). -/
theorem outOf_head (bits : Bits) : (outOf bits).bytes.head?.map BitVec.toNat = some (extraOf bits) := by
  have hrange := extraOf_range bits
  rw [outOf_bytes, List.head?_cons, Option.map_some, BitVec.toNat_ofNat, Nat.mod_eq_of_lt (by omega)]

/-! ## The stages, each a success where its input product is there (R89, R94, R100, R108) -/

/-- FREQ_COUNT's effects. -/
def counted (s : State) : State := { invalOut (invalCodes (invalTree s)) with freq := freqOf s.cfg s.input }

@[simp] theorem counted_cfg (s : State) : (counted s).cfg = s.cfg := rfl
@[simp] theorem counted_text (s : State) : (counted s).text = s.text := rfl
@[simp] theorem counted_freq (s : State) : (counted s).freq = freqOf s.cfg s.input := rfl
@[simp] theorem counted_data (s : State) : (counted s).data = s.data := rfl

/-- BUILD_TREE's effects. -/
def built (s : State) : State :=
  { invalOut (invalCodes s) with tree := treeOf s.freq.counts, queue := queueAfter s.freq.counts }

@[simp] theorem built_cfg (s : State) : (built s).cfg = s.cfg := rfl
@[simp] theorem built_text (s : State) : (built s).text = s.text := rfl
@[simp] theorem built_freq (s : State) : (built s).freq = s.freq := rfl
@[simp] theorem built_tree (s : State) : (built s).tree = treeOf s.freq.counts := rfl
@[simp] theorem built_queue (s : State) : (built s).queue = queueAfter s.freq.counts := rfl
@[simp] theorem built_data (s : State) : (built s).data = s.data := rfl

/-- ASSIGN_CODES's effects. -/
def coded (s : State) : State := { invalOut s with codes := codesOf s.cfg s.tree }

@[simp] theorem coded_text (s : State) : (coded s).text = s.text := rfl
@[simp] theorem coded_freq (s : State) : (coded s).freq = s.freq := rfl
@[simp] theorem coded_tree (s : State) : (coded s).tree = s.tree := rfl
@[simp] theorem coded_queue (s : State) : (coded s).queue = s.queue := rfl
@[simp] theorem coded_codes (s : State) : (coded s).codes = codesOf s.cfg s.tree := rfl
@[simp] theorem coded_data (s : State) : (coded s).data = s.data := rfl

/-- PACK's effects. -/
def packed (s : State) : State := { s with out := outOf (codedText s.codes.entries s.input) }

@[simp] theorem packed_text (s : State) : (packed s).text = s.text := rfl
@[simp] theorem packed_freq (s : State) : (packed s).freq = s.freq := rfl
@[simp] theorem packed_tree (s : State) : (packed s).tree = s.tree := rfl
@[simp] theorem packed_queue (s : State) : (packed s).queue = s.queue := rfl
@[simp] theorem packed_codes (s : State) : (packed s).codes = s.codes := rfl
@[simp] theorem packed_data (s : State) : (packed s).data = s.data := rfl

theorem exec_freqCount (s : State) :
    exec .freqCount s = .next (reportOk (counted s)) ∧ Succeeded s (reportOk (counted s)) :=
  succeeded_of_rule (i := .freqCount) rfl

theorem exec_buildTree {s : State} (h : FreqReady s) :
    exec .buildTree s = .next (reportOk (built s)) ∧ Succeeded s (reportOk (built s)) :=
  succeeded_of_rule (ruleOf_buildTree h)

theorem exec_assignCodes {s : State} (h : s.tree.valid = true) :
    exec .assignCodes s = .next (reportOk (coded s)) ∧ Succeeded s (reportOk (coded s)) :=
  succeeded_of_rule (ruleOf_assignCodes h)

theorem exec_pack {s : State} (hv : s.codes.valid = true)
    (hx : ∀ x ∈ s.input, (codeAt s.codes.entries x).valid = true) :
    exec .pack s = .next (reportOk (packed s)) ∧ Succeeded s (reportOk (packed s)) :=
  succeeded_of_rule (i := .pack) (packBody_ok hv hx)

/-! ## COMPRESS of a non-empty text (R113, R114) -/

/-- The state after the four stages: every product is the one computed from the text. -/
def compressed (s : State) : State :=
  { s with
    freq := freqOf s.cfg s.input
    tree := treeOf (freqOf s.cfg s.input).counts
    queue := []
    codes := codesOf s.cfg (treeOf (freqOf s.cfg s.input).counts)
    out := outOf (codedText (codesOf s.cfg (treeOf (freqOf s.cfg s.input).counts)).entries s.input) }

@[simp] theorem compressed_text (s : State) : (compressed s).text = s.text := rfl
@[simp] theorem compressed_freq (s : State) : (compressed s).freq = freqOf s.cfg s.input := rfl
@[simp] theorem compressed_tree (s : State) : (compressed s).tree = treeOf (freqOf s.cfg s.input).counts := rfl
@[simp] theorem compressed_queue (s : State) : (compressed s).queue = [] := rfl
@[simp] theorem compressed_codes (s : State) : (compressed s).codes =
    codesOf s.cfg (treeOf (freqOf s.cfg s.input).counts) := rfl
@[simp] theorem compressed_data (s : State) : (compressed s).data = s.data := rfl

section Text

variable {s : State}

theorem exec_compress (hc : s.cfg.wf) (hm : Memory.wf s) (hn : s.text.len ≠ 0) :
    exec .compress s = .next (reportOk (compressed s)) ∧ Succeeded s (reportOk (compressed s)) :=
  have ⟨_, _, hbody⟩ := compressBody_ok hc hm hn
  succeeded_of_rule (i := .compress) hbody

/-- The tree of the counts of a non-empty text. -/
theorem exists_textTree (hc : s.cfg.wf) (hm : Memory.wf s) (hn : s.text.len ≠ 0) :
    ∃ t, IsCodeTree (freqOf s.cfg s.input).counts t :=
  have ⟨t, ht, _⟩ := compressBody_ok hc hm hn
  ⟨t, ht⟩

/-- NSYM is the number of counted symbols (R89). -/
theorem freqOf_nsym_eq_countP (hc : s.cfg.wf) (hm : Memory.wf s) (hn : s.text.len ≠ 0) :
    (freqOf s.cfg s.input).nsym.toNat = (freqOf s.cfg s.input).counts.countP (· ≠ 0) := by
  obtain ⟨-, -, -, hnsym, -⟩ := freqReady_freqOf (t := { s with freq := freqOf s.cfg s.input }) hc hm hn rfl rfl
  exact hnsym

/-- With one symbol every code is "0", so the coded text is zeros (R102). -/
theorem codedText_of_one {counts : List Word} {t : HTree} (h : IsCodeTree counts t) {c : Config}
    (hlen : counts.length = c.nsymMax) (hl : counts.length ≤ 256) (hone : counts.countP (· ≠ 0) = 1)
    {text : List Sym} (hx : ∀ x ∈ text, counts.getD x.toNat 0 ≠ 0) :
    codedText (codesOf c (treeOf counts)).entries text = List.replicate text.length false := by
  induction text with
  | nil => rfl
  | cons x rest ih =>
    have hcode : codestr (codeAt (codesOf c (treeOf counts)).entries x) = [false] := by
      rw [h.code_of_one hlen hl hone (hx x List.mem_cons_self), codestr_entryOfPath (by decide)]
    rw [codedText, List.flatMap_cons, hcode, List.length_cons, List.replicate_succ]
    exact congrArg (false :: ·) (ih fun y hy => hx y (List.mem_cons_of_mem x hy))

/-- PACK finds a code for every symbol of the text, once the first three stages have run on it (R110, R114). -/
theorem exec_pack_of_text (hc : s.cfg.wf) (hm : Memory.wf s) (hn : s.text.len ≠ 0) {c : State}
    (htext : c.text = s.text) (hcodes : c.codes = (compressed s).codes) :
    exec .pack c = .next (reportOk (packed c)) ∧ Succeeded c (reportOk (packed c)) ∧
      (packed c).out = (compressed s).out := by
  obtain ⟨t, ht⟩ := exists_textTree hc hm hn
  have hinput : c.input = s.input := by rw [State.input, htext, State.input]
  have hx : ∀ x ∈ c.input, (codeAt c.codes.entries x).valid = true := by
    rw [hinput, hcodes]
    exact codes_of_text hc hm ht
  obtain ⟨hexec, hok⟩ := exec_pack (by rw [hcodes]; rfl) hx
  exact ⟨hexec, hok, by rw [packed, hinput, hcodes]; rfl⟩

end Text

/-! ## The obligations -/

/-- Settles O42: COMPRESS of a non-empty text succeeds, with every product valid. -/
theorem compressSucceeds : Obligations.CompressSucceeds := by
  intro s hc hm hn
  obtain ⟨hexec, hok⟩ := exec_compress hc hm hn
  refine ⟨_, hexec, hok, ?_, rfl, rfl, rfl⟩
  have hflags : (reportOk (compressed s)).validFlags = bit true ++ bit true ++ bit true ++ bit true := rfl
  rw [hok.status, hflags]
  decide

/-- Settles O43: each stage leaves what the next one needs, and the last the products of COMPRESS. -/
theorem compressEqualsFourStages : Obligations.CompressEqualsFourStages := by
  intro s hc hm hn
  have hready : FreqReady (reportOk (counted s)) := freqReady_freqOf hc hm hn rfl rfl
  have hqueue : queueAfter (freqOf s.cfg s.input).counts = [] := hready.tree_fits.2
  obtain ⟨hexec, -⟩ := exec_compress hc hm hn
  obtain ⟨hcount, hokCount⟩ := exec_freqCount s
  obtain ⟨hbuild, hokBuild⟩ := exec_buildTree hready
  obtain ⟨hassign, hokAssign⟩ := exec_assignCodes (s := reportOk (built (reportOk (counted s)))) rfl
  obtain ⟨hpack, hokPack, hout⟩ :=
    exec_pack_of_text hc hm hn (c := reportOk (coded (reportOk (built (reportOk (counted s))))))
      (by simp) (by simp)
  exact ⟨_, _, _, _, _, hexec, hcount, hbuild, hassign, hpack, hokCount.noErr, hokBuild.noErr, hokAssign.noErr,
    hokPack.noErr, by simp, by simp, by simp, by simp [hqueue], by simp, hout.symm, by simp⟩

/-- Settles O44: the encoded bits are the coded text, which replays to the text, or is zeros for one symbol. -/
theorem compressedBitsReplayToText : Obligations.CompressedBitsReplayToText := by
  intro s hc hm hn
  have htext : s.text.wf s.cfg := hm.1
  obtain ⟨hexec, -⟩ := exec_compress hc hm hn
  obtain ⟨tree, hcode⟩ := exists_textTree hc hm hn
  have hnsym := freqOf_nsym_eq_countP hc hm hn
  have hlen : (freqOf s.cfg s.input).counts.length = s.cfg.nsymMax := countSymbols_length _ _
  have hl := hlen.le.trans (nsymMax_le hc)
  have hcounted : ∀ x ∈ s.input, (freqOf s.cfg s.input).counts.getD x.toNat 0 ≠ 0 :=
    fun x hx => (freqOf_count_ne_zero_iff hc htext x).2 hx
  have hbits : encodedBits (reportOk (compressed s)) =
      codedText (codesOf s.cfg (treeOf (freqOf s.cfg s.input).counts)).entries s.input :=
    (encodedBits_of_outOf rfl (codedText_length_lt hc htext _)).1
  obtain ⟨-, hroot, -, -⟩ := treeOf_shape hcode hl
  refine ⟨_, hexec, fun htwo => ?_, fun hone => ?_⟩
  · rw [hbits]
    change replay _ (treeOf _).root.toNat (treeOf _).root.toNat _ = _
    rw [hroot]
    exact replay_codedText hc hcode hlen (hnsym ▸ htwo) hcounted
  · rw [hbits, codedText_of_one hcode hlen hl (hnsym ▸ hone) hcounted, input_length htext]

/-- Settles O38: OUT holds the coded text, whose length fits the registers. -/
theorem packEncodesText : Obligations.PackEncodesText := by
  rintro s hc ⟨htext, -⟩ hv hx
  have hfit := codedText_length_lt hc htext s.codes.entries
  obtain ⟨hexec, hok⟩ := exec_pack hv hx
  obtain ⟨-, hbitLen, hpad, hbytes⟩ := outOf_registers hfit
  obtain ⟨hencoded, hpayload⟩ := encodedBits_of_outOf (t := reportOk (packed s)) rfl hfit
  refine ⟨_, hexec, hok, rfl, hencoded, ?_, ?_, ?_, ?_, hbytes, rfl, rfl, rfl, rfl, rfl, rfl⟩
  · rw [hencoded, hpayload]
    exact congrArg (_ ++ List.replicate · false) hpad.symm
  · exact (outOf_head _).trans (congrArg some hpad.symm)
  · exact hpad.trans (by rw [extraOf]; exact congrArg (8 - · % 8) hbitLen.symm)
  · rw [hencoded]; exact hbitLen

end Sys2Proof.Machine
end

section
/-! Runs after CLEAR are isolated (R86): the products of a run depend on the parameters and the text, and on nothing
else. -/

namespace Sys2Proof.Machine

/-! ## Two states with the same text and products -/

/-- What a run after CLEAR can see: the two states may differ in PHASE, the report, the interrupts, QUEUE, the data
registers and the world outside. -/
structure SameProducts (s s' : State) : Prop where
  cfg   : s.cfg = s'.cfg
  text  : s.text = s'.text
  freq  : s.freq = s'.freq
  tree  : s.tree = s'.tree
  codes : s.codes = s'.codes
  out   : s.out = s'.out

/-- The same error from both, or success with the same text and products. -/
inductive SameOutcome : CmdOutcome → CmdOutcome → Prop where
  | ok {t t' : State} (h : SameProducts t t') : SameOutcome (.ok t) (.ok t')
  | fail (e : ErrCode) (info : Word) : SameOutcome (.fail e info) (.fail e info)

theorem SameOutcome.andThen {r r' : CmdOutcome} {k : State → CmdOutcome} (h : SameOutcome r r')
    (hk : ∀ t t', SameProducts t t' → SameOutcome (k t) (k t')) : SameOutcome (r.andThen k) (r'.andThen k) := by
  cases h with
  | ok h => exact hk _ _ h
  | fail e info => exact .fail e info

section Rules

variable {s s' : State}

theorem SameProducts.input (h : SameProducts s s') : s.input = s'.input := by
  rw [State.input, State.input, h.text]

theorem SameProducts.textPush (h : SameProducts s s') (sym : Sym) :
    SameOutcome (ruleOf (.textPush sym) s) (ruleOf (.textPush sym) s') := by
  simp only [ruleOf, withSym, textPushBody, h.cfg, h.text]
  split_ifs
  · exact .fail _ _
  · exact .ok ⟨h.cfg, by simp [h.input, h.text], by simp [h.cfg], rfl, by simp [h.cfg], rfl⟩
  · exact .fail _ _

theorem SameProducts.freqCount (h : SameProducts s s') : SameOutcome (freqCountBody s) (freqCountBody s') :=
  .ok ⟨h.cfg, h.text, by simp only [h.cfg, h.input], rfl, by simp [h.cfg], rfl⟩

theorem SameProducts.buildTree (h : SameProducts s s') : SameOutcome (buildTreeBody s) (buildTreeBody s') := by
  simp only [buildTreeBody, h.freq]
  split_ifs
  · exact .fail _ _
  · exact .fail _ _
  · exact .ok ⟨h.cfg, h.text, h.freq, rfl, by simp [h.cfg], rfl⟩

theorem SameProducts.assignCodes (h : SameProducts s s') : SameOutcome (assignCodesBody s) (assignCodesBody s') := by
  simp only [assignCodesBody, h.tree, h.cfg]
  split_ifs
  · exact .fail _ _
  · exact .ok ⟨h.cfg, h.text, h.freq, h.tree, rfl, rfl⟩

theorem SameProducts.pack (h : SameProducts s s') : SameOutcome (packBody s) (packBody s') := by
  simp only [packBody, h.codes, h.input]
  split_ifs
  · exact .fail _ _
  · split
    · exact .fail _ _
    · split_ifs
      · exact .fail _ _
      · exact .ok ⟨h.cfg, h.text, h.freq, h.tree, rfl, rfl⟩

theorem SameProducts.compress (h : SameProducts s s') : SameOutcome (compressBody s) (compressBody s') := by
  simp only [compressBody, h.text]
  split_ifs
  · exact .fail _ _
  · exact ((h.freqCount.andThen fun _ _ ha => ha.buildTree).andThen fun _ _ hb => hb.assignCodes).andThen
      fun _ _ hc => hc.pack

end Rules

/-! ## Completions and runs -/

section Runs

variable {s s' : State}

/-- A completion keeps the relation, and reports the same error (R80, R82). -/
theorem SameProducts.finish (h : SameProducts s s') {r r' : CmdOutcome} (hr : SameOutcome r r') :
    SameProducts (finish s r) (finish s' r') ∧ (finish s r).report.err = (finish s' r').report.err ∧
      (finish s r).report.errCode = (finish s' r').report.errCode := by
  cases hr with
  | ok h => exact ⟨⟨h.cfg, h.text, h.freq, h.tree, h.codes, h.out⟩, rfl, rfl⟩
  | fail e info => exact ⟨⟨h.cfg, h.text, h.freq, h.tree, h.codes, h.out⟩, rfl, rfl⟩

/-- CLEAR leaves no text and no product, whatever was there (R85). -/
theorem sameProducts_clear (hcfg : s.cfg = s'.cfg) : SameProducts (reportOk (clearRun s)) (reportOk (clearRun s')) :=
  ⟨hcfg, rfl, by simp [hcfg], rfl, by simp [hcfg], rfl⟩

theorem runCommands_cons (i : Instr) (rest : List Instr) (s : State) :
    runCommands (i :: rest) s = runCommands rest (finish s (ruleOf i s)) := by
  rw [runCommands, exec_eq]

/-- Pushing the same symbols and compressing keeps the relation, and ends with the same report. -/
theorem SameProducts.run_push_compress (h : SameProducts s s') (text : List Sym) :
    ∃ t t', runCommands (text.map .textPush ++ [.compress]) s = some t ∧
      runCommands (text.map .textPush ++ [.compress]) s' = some t' ∧ SameProducts t t' ∧
      t.report.err = t'.report.err ∧ t.report.errCode = t'.report.errCode := by
  induction text generalizing s s' with
  | nil => exact ⟨_, _, runCommands_cons .compress [] s, runCommands_cons .compress [] s', h.finish h.compress⟩
  | cons x rest ih =>
    simp only [List.map_cons, List.cons_append, runCommands_cons]
    exact ih (h.finish (h.textPush x)).1

end Runs

/-- Settles O45: CLEAR relates the two states, and each command after it keeps the relation. -/
theorem clearedRunsAreIsolated : Obligations.ClearedRunsAreIsolated := by
  intro s s' text hcfg
  obtain ⟨t, t', hrun, hrun', hsame, herr, hcode⟩ :=
    (sameProducts_clear (s := s) (s' := s') hcfg.symm).run_push_compress text
  refine ⟨t, t', ?_, ?_, herr, hcode, hsame.text, hsame.freq, hsame.tree, hsame.codes, hsame.out⟩
  · exact (runCommands_cons .clear _ s).trans hrun
  · exact (runCommands_cons .clear _ s').trans hrun'

end Sys2Proof.Machine
end
